-- ==== Sys2Proof/Word.lean ====
section
/-! DEFINITION. The values the machine computes on: the BitStream value of 00_scope.md rule R6 (a length and that many
bits), the byte, and the 32-bit word of the SHA unit (rule R5, `XLEN_SHA`). -/

namespace Sys2Proof

/-- One byte (rule R5: byte = 8 bits). -/
abbrev Byte := BitVec 8

/-- One 32-bit quantity of the SHA unit (rule R5, `XLEN_SHA = 32`; 10_state.md rule R25: "exactly 32 bits"). -/
abbrev Word32 := BitVec 32

/-- A BitStream value (rule R6): an explicit length and exactly that many bits, leading zeros included. It is the pair
that 10_state.md rule R22 allows, (length, natural number below `2^length`); two values are the same datum exactly when
length and bits agree, so no invariant is needed. -/
structure Bits where
  len  : Nat
  bits : BitVec len
  deriving DecidableEq, Repr

namespace Bits

/-- `val(s)`, rule R6: the unsigned integer the bits denote, the leftmost bit the most significant. -/
def val (s : Bits) : Nat := s.bits.toNat

/-- `s⟨i⟩`, rule R6: the bit at string position `i`, position 0 the leftmost, most significant one; false beyond the
length. -/
def digit (s : Bits) (i : Nat) : Bool := s.bits.getMsbD i

/-- The digit string of a value (rule R6), leftmost digit first. -/
def digits (s : Bits) : List Bool := (List.range s.len).map s.digit

/-- `""`, the empty value (rule R6). -/
def empty : Bits := ⟨0, 0#0⟩

/-- `0^k` (rule R6). -/
def zeros (k : Nat) : Bits := ⟨k, 0#k⟩

/-- A 32-bit SHA quantity as the BitStream value it is (10_state.md rule R25). -/
def ofWord32 (w : Word32) : Bits := ⟨32, w⟩

end Bits
end Sys2Proof
end

