-- ==== Sys2Proof/Syntax.lean ====
section
/-! DEFINITION. The command set UBC-1 as syntax: one constructor of `Instr` per row of spec/opcode_table.json
(30_encoding.md rule R73), and the command triple the host presents (rule R70). Register and slot numbers are bounded by
their types; an integer operand is a natural number or an integer, as the semantic rules state it (rule R72: "The
semantic rules are stated for all natural numbers (or all integers)"), and WellFormed says which fit the operand
words. -/

namespace Sys2Proof

/-- A BitStream register number, `s0` to `s15` (10_state.md rule R21, `NSREG = 16`). -/
abbrev Reg := Fin 16

/-- A ByteBuffer slot number, `m0` to `m3` (10_state.md rule R23, `NBUF = 4`). -/
abbrev Slot := Fin 4

/-- A buffer's byte order (10_state.md rule R23): `BIG`, encoded 0, or `LITTLE`, encoded 1. -/
inductive Order where
  | big
  | little
  deriving DecidableEq, Repr

/-- A command as the host presents it (rule R70): the command word and the two operand words. -/
structure Command where
  cmd : BitVec 32
  opa : BitVec 64
  opb : BitVec 64
  deriving DecidableEq, Repr

/-- The 47 commands, in the order of rule R73's table; operands in the order of the assembler syntax (rule R76):
destination, sources, integers. `none` as a slice bound is a bound written `_`. -/
inductive Instr where
  | sysReset
  | sysRdcsr (csr : Nat)
  | bsLdi (rd : Reg) (n zfill : Nat)
  | bsEmpty (rd : Reg)
  | bsJoin (rd ra rb : Reg)
  | bsBit (rd ra : Reg) (i : Int)
  | bsSlice (rd ra : Reg) (start stop : Option Int)
  | bsLen (ra : Reg)
  | bsEq (ra rb : Reg)
  | bsRd (ra : Reg)
  | bsAdd (rd ra rb : Reg)
  | bsAddi (rd ra : Reg) (n : Nat)
  | bsAnd (rd ra rb : Reg)
  | bsOr (rd ra rb : Reg)
  | bsXor (rd ra rb : Reg)
  | bsNot (rd ra : Reg)
  | bsShr (rd ra : Reg) (n : Nat)
  | bsRotl (rd ra : Reg) (n : Nat)
  | bsRotr (rd ra : Reg) (n : Nat)
  | bsMod (rd ra : Reg) (d : Nat)
  | bbNew (md : Slot) (order : Order)
  | bbPutb (md : Slot) (v : Nat)
  | bbPutw16 (md : Slot) (ra : Reg)
  | bbPutw32 (md : Slot) (ra : Reg)
  | bbPutw64 (md : Slot) (ra : Reg)
  | bbPutw128 (md : Slot) (ra : Reg)
  | bbGetb (rd : Reg) (ma : Slot)
  | bbGetw16 (rd : Reg) (ma : Slot)
  | bbGetw32 (rd : Reg) (ma : Slot)
  | bbGetw64 (rd : Reg) (ma : Slot)
  | bbGetw128 (rd : Reg) (ma : Slot)
  | bbIdx (md ma : Slot) (i : Int)
  | bbSlice (md ma : Slot) (start stop : Option Int)
  | bbLen (ma : Slot)
  | bbStr (rd : Reg) (ma : Slot)
  | shaInit
  | shaPad (ma : Slot)
  | shaLdblk
  | shaExpand
  | shaBegin
  | shaRound
  | shaUpdate
  | shaDigest (rd : Reg)
  | shaBlock
  | shaHash (rd : Reg) (ma : Slot)
  | shaRdr (rd : Reg) (idx : Nat)
  | shaWrr (idx : Nat) (ra : Reg)
  deriving DecidableEq, Repr

end Sys2Proof
end

