-- ==== Sys2Proof/WellFormed.lean ====
section
/-! DEFINITION. Which commands the port can carry (30_encoding.md rule R72): an unsigned operand fits the 64-bit
operand word, a signed one its two's-complement reading. Register and slot numbers are in range by their types. -/

namespace Sys2Proof

/-- The unsigned reading of an operand word: `0 .. 2^64-1` (rule R72). -/
def fitsUnsigned (n : Nat) : Bool := decide (n < 2 ^ 64)

/-- The signed reading of an operand word: `-2^63 .. 2^63-1` (rule R72). -/
def fitsSigned (i : Int) : Bool := decide (-2 ^ 63 ≤ i) && decide (i < 2 ^ 63)

/-- A slice bound: absent, or a signed operand (rule R72). -/
def fitsBound : Option Int → Bool
  | none => true
  | some i => fitsSigned i

/-- The command's integer operands fit their operand words. -/
def Instr.wf : Instr → Bool
  | .sysReset => true
  | .sysRdcsr csr => fitsUnsigned csr
  | .bsLdi _ n zfill => fitsUnsigned n && fitsUnsigned zfill
  | .bsEmpty _ => true
  | .bsJoin _ _ _ => true
  | .bsBit _ _ i => fitsSigned i
  | .bsSlice _ _ start stop => fitsBound start && fitsBound stop
  | .bsLen _ => true
  | .bsEq _ _ => true
  | .bsRd _ => true
  | .bsAdd _ _ _ => true
  | .bsAddi _ _ n => fitsUnsigned n
  | .bsAnd _ _ _ => true
  | .bsOr _ _ _ => true
  | .bsXor _ _ _ => true
  | .bsNot _ _ => true
  | .bsShr _ _ n => fitsUnsigned n
  | .bsRotl _ _ n => fitsUnsigned n
  | .bsRotr _ _ n => fitsUnsigned n
  | .bsMod _ _ d => fitsUnsigned d
  | .bbNew _ _ => true
  | .bbPutb _ v => fitsUnsigned v
  | .bbPutw16 _ _ => true
  | .bbPutw32 _ _ => true
  | .bbPutw64 _ _ => true
  | .bbPutw128 _ _ => true
  | .bbGetb _ _ => true
  | .bbGetw16 _ _ => true
  | .bbGetw32 _ _ => true
  | .bbGetw64 _ _ => true
  | .bbGetw128 _ _ => true
  | .bbIdx _ _ i => fitsSigned i
  | .bbSlice _ _ start stop => fitsBound start && fitsBound stop
  | .bbLen _ => true
  | .bbStr _ _ => true
  | .shaInit => true
  | .shaPad _ => true
  | .shaLdblk => true
  | .shaExpand => true
  | .shaBegin => true
  | .shaRound => true
  | .shaUpdate => true
  | .shaDigest _ => true
  | .shaBlock => true
  | .shaHash _ _ => true
  | .shaRdr _ idx => fitsUnsigned idx
  | .shaWrr idx _ => fitsUnsigned idx

/-- A well-formed command: one the command port can carry. -/
abbrev Instr.WellFormed (i : Instr) : Prop := i.wf = true

end Sys2Proof
end

