-- ==== Sys2Proof/Decode.lean ====
section
/-! DEFINITION. The command decoder and the encoder, 30_encoding.md. A command is not a byte string: it is the triple
(CMD, OPA, OPB) of rule R70, so the decoder is total on every triple, and rejects a command word by a named reason of
rule R74. -/

namespace Sys2Proof

/-! ## The fields of format C (rule R71) -/

/-- The six fields of the command word, most significant first. -/
structure Fields where
  opcode : BitVec 8
  rd     : BitVec 4
  ra     : BitVec 4
  rb     : BitVec 4
  fl     : BitVec 4
  rsv    : BitVec 8
  deriving DecidableEq, Repr

/-- `opcode = CMD[31:24]`, `rd = CMD[23:20]`, `ra = CMD[19:16]`, `rb = CMD[15:12]`, `fl = CMD[11:8]`,
`rsv = CMD[7:0]` (rule R71). -/
def Fields.ofWord (w : BitVec 32) : Fields where
  opcode := w.extractLsb' 24 8
  rd     := w.extractLsb' 20 4
  ra     := w.extractLsb' 16 4
  rb     := w.extractLsb' 12 4
  fl     := w.extractLsb' 8 4
  rsv    := w.extractLsb' 0 8

/-- The command word with these fields (rule R71). -/
def Fields.toWord (f : Fields) : BitVec 32 :=
  f.opcode ++ f.rd ++ f.ra ++ f.rb ++ f.fl ++ f.rsv

/-- How a command uses the `rd` or the `ra` field (rules R71, R73): not at all, as a BitStream register number, or as a
buffer slot number. -/
inductive FieldUse where
  | unused
  | reg
  | slot
  deriving DecidableEq, Repr

/-- Which flag bits a command defines (rule R71): none; `order` = `CMD[8]`; or `no_start` = `CMD[8]` and
`no_stop` = `CMD[9]`. -/
inductive FlagUse where
  | none
  | order
  | bounds
  deriving DecidableEq, Repr

/-- What a command uses of format C: its row's mask in rule R73, field by field. -/
structure Shape where
  rd : FieldUse
  ra : FieldUse
  rb : Bool
  fl : FlagUse
  deriving DecidableEq, Repr

/-- Why a command word is illegal (rule R74's list). -/
inductive Illegal where
  /-- an opcode value not in the table -/
  | unassignedOpcode
  /-- a non-zero `rsv` -/
  | reservedNotZero
  /-- a non-zero bit in `fl` that the command does not define -/
  | undefinedFlag
  /-- a non-zero unused `rd`, `ra` or `rb` -/
  | unusedNotZero
  /-- a buffer slot number 4 to 15 -/
  | slotOutOfRange
  deriving DecidableEq, Repr

/-- The field respects its use: an unused field is 0, a slot number has its upper two bits 0 (rule R71). -/
def FieldUse.objection (u : FieldUse) (x : BitVec 4) : Option Illegal :=
  match u with
  | .unused => if x = 0#4 then none else some .unusedNotZero
  | .reg => none
  | .slot => if x.extractLsb' 2 2 = 0#2 then none else some .slotOutOfRange

/-- The flag bits the command does not define are 0 (rules R71, R74; `CMD[11:10]` are always 0). -/
def FlagUse.objection (u : FlagUse) (x : BitVec 4) : Option Illegal :=
  match u with
  | .none => if x = 0#4 then .none else some .undefinedFlag
  | .order => if x.extractLsb' 1 3 = 0#3 then .none else some .undefinedFlag
  | .bounds => if x.extractLsb' 2 2 = 0#2 then .none else some .undefinedFlag

/-- What is wrong with the fields of a command of this shape, if anything (rule R74). -/
def Fields.objection (f : Fields) (sh : Shape) : Option Illegal :=
  (if f.rsv = 0#8 then none else some .reservedNotZero)
    <|> sh.fl.objection f.fl
    <|> sh.rd.objection f.rd
    <|> sh.ra.objection f.ra
    <|> (if sh.rb = true then none else FieldUse.unused.objection f.rb)

/-- The instruction, if the fields fit the command's shape. -/
def Fields.accept (f : Fields) (sh : Shape) (i : Instr) : Except Illegal Instr :=
  match f.objection sh with
  | none => .ok i
  | some e => .error e

/-! ## Operands (rules R71, R72) -/

/-- `rd` as a register number. -/
def Fields.rdReg (f : Fields) : Reg := f.rd.toFin
/-- `ra` as a register number. -/
def Fields.raReg (f : Fields) : Reg := f.ra.toFin
/-- `rb` as a register number. -/
def Fields.rbReg (f : Fields) : Reg := f.rb.toFin
/-- `md = CMD[21:20]`. -/
def Fields.mdSlot (f : Fields) : Slot := (f.rd.extractLsb' 0 2).toFin
/-- `ma = CMD[17:16]`. -/
def Fields.maSlot (f : Fields) : Slot := (f.ra.extractLsb' 0 2).toFin
/-- `order = CMD[8]`: 0 `BIG`, 1 `LITTLE`. -/
def Fields.orderFlag (f : Fields) : Order := if f.fl.getLsbD 0 then .little else .big

/-- `sgn(x)`, 00_scope.md rule R11: the two's-complement reading of an operand word. -/
def sgn (x : BitVec 64) : Int := if x.toNat ≥ 2 ^ 63 then (x.toNat : Int) - 2 ^ 64 else x.toNat

/-- `start`: absent when `no_start = CMD[8]` is 1, and `OPA` is then ignored (rule R72). -/
def Fields.startBound (f : Fields) (opa : BitVec 64) : Option Int :=
  if f.fl.getLsbD 0 then none else some (sgn opa)
/-- `stop`: absent when `no_stop = CMD[9]` is 1, and `OPB` is then ignored (rule R72). -/
def Fields.stopBound (f : Fields) (opb : BitVec 64) : Option Int :=
  if f.fl.getLsbD 1 then none else some (sgn opb)

/-! ## The decoder (rules R73, R74) -/

/-- Decodes the fields of a command word and its operand words: rule R73's table by opcode. A word that matches no row
is rejected with rule R74's reason. Nothing in the state changes how a word is decoded (rule R75). -/
def decodeFields (f : Fields) (c : Command) : Except Illegal Instr :=
  match f.opcode.toNat with
  | 0x01 => f.accept ⟨.unused, .unused, false, .none⟩ .sysReset
  | 0x02 => f.accept ⟨.unused, .unused, false, .none⟩ (.sysRdcsr c.opa.toNat)
  | 0x10 => f.accept ⟨.reg, .unused, false, .none⟩ (.bsLdi f.rdReg c.opa.toNat c.opb.toNat)
  | 0x11 => f.accept ⟨.reg, .unused, false, .none⟩ (.bsEmpty f.rdReg)
  | 0x12 => f.accept ⟨.reg, .reg, true, .none⟩ (.bsJoin f.rdReg f.raReg f.rbReg)
  | 0x13 => f.accept ⟨.reg, .reg, false, .none⟩ (.bsBit f.rdReg f.raReg (sgn c.opa))
  | 0x14 => f.accept ⟨.reg, .reg, false, .bounds⟩ (.bsSlice f.rdReg f.raReg (f.startBound c.opa) (f.stopBound c.opb))
  | 0x15 => f.accept ⟨.unused, .reg, false, .none⟩ (.bsLen f.raReg)
  | 0x16 => f.accept ⟨.unused, .reg, true, .none⟩ (.bsEq f.raReg f.rbReg)
  | 0x17 => f.accept ⟨.unused, .reg, false, .none⟩ (.bsRd f.raReg)
  | 0x20 => f.accept ⟨.reg, .reg, true, .none⟩ (.bsAdd f.rdReg f.raReg f.rbReg)
  | 0x21 => f.accept ⟨.reg, .reg, false, .none⟩ (.bsAddi f.rdReg f.raReg c.opa.toNat)
  | 0x22 => f.accept ⟨.reg, .reg, true, .none⟩ (.bsAnd f.rdReg f.raReg f.rbReg)
  | 0x23 => f.accept ⟨.reg, .reg, true, .none⟩ (.bsOr f.rdReg f.raReg f.rbReg)
  | 0x24 => f.accept ⟨.reg, .reg, true, .none⟩ (.bsXor f.rdReg f.raReg f.rbReg)
  | 0x25 => f.accept ⟨.reg, .reg, false, .none⟩ (.bsNot f.rdReg f.raReg)
  | 0x26 => f.accept ⟨.reg, .reg, false, .none⟩ (.bsShr f.rdReg f.raReg c.opa.toNat)
  | 0x27 => f.accept ⟨.reg, .reg, false, .none⟩ (.bsRotl f.rdReg f.raReg c.opa.toNat)
  | 0x28 => f.accept ⟨.reg, .reg, false, .none⟩ (.bsRotr f.rdReg f.raReg c.opa.toNat)
  | 0x29 => f.accept ⟨.reg, .reg, false, .none⟩ (.bsMod f.rdReg f.raReg c.opa.toNat)
  | 0x30 => f.accept ⟨.slot, .unused, false, .order⟩ (.bbNew f.mdSlot f.orderFlag)
  | 0x31 => f.accept ⟨.slot, .unused, false, .none⟩ (.bbPutb f.mdSlot c.opa.toNat)
  | 0x32 => f.accept ⟨.slot, .reg, false, .none⟩ (.bbPutw16 f.mdSlot f.raReg)
  | 0x33 => f.accept ⟨.slot, .reg, false, .none⟩ (.bbPutw32 f.mdSlot f.raReg)
  | 0x34 => f.accept ⟨.slot, .reg, false, .none⟩ (.bbPutw64 f.mdSlot f.raReg)
  | 0x35 => f.accept ⟨.slot, .reg, false, .none⟩ (.bbPutw128 f.mdSlot f.raReg)
  | 0x36 => f.accept ⟨.reg, .slot, false, .none⟩ (.bbGetb f.rdReg f.maSlot)
  | 0x37 => f.accept ⟨.reg, .slot, false, .none⟩ (.bbGetw16 f.rdReg f.maSlot)
  | 0x38 => f.accept ⟨.reg, .slot, false, .none⟩ (.bbGetw32 f.rdReg f.maSlot)
  | 0x39 => f.accept ⟨.reg, .slot, false, .none⟩ (.bbGetw64 f.rdReg f.maSlot)
  | 0x3A => f.accept ⟨.reg, .slot, false, .none⟩ (.bbGetw128 f.rdReg f.maSlot)
  | 0x3B => f.accept ⟨.slot, .slot, false, .none⟩ (.bbIdx f.mdSlot f.maSlot (sgn c.opa))
  | 0x3C => f.accept ⟨.slot, .slot, false, .bounds⟩ (.bbSlice f.mdSlot f.maSlot (f.startBound c.opa) (f.stopBound c.opb))
  | 0x3D => f.accept ⟨.unused, .slot, false, .none⟩ (.bbLen f.maSlot)
  | 0x3E => f.accept ⟨.reg, .slot, false, .none⟩ (.bbStr f.rdReg f.maSlot)
  | 0x40 => f.accept ⟨.unused, .unused, false, .none⟩ .shaInit
  | 0x41 => f.accept ⟨.unused, .slot, false, .none⟩ (.shaPad f.maSlot)
  | 0x42 => f.accept ⟨.unused, .unused, false, .none⟩ .shaLdblk
  | 0x43 => f.accept ⟨.unused, .unused, false, .none⟩ .shaExpand
  | 0x44 => f.accept ⟨.unused, .unused, false, .none⟩ .shaBegin
  | 0x45 => f.accept ⟨.unused, .unused, false, .none⟩ .shaRound
  | 0x46 => f.accept ⟨.unused, .unused, false, .none⟩ .shaUpdate
  | 0x47 => f.accept ⟨.reg, .unused, false, .none⟩ (.shaDigest f.rdReg)
  | 0x48 => f.accept ⟨.unused, .unused, false, .none⟩ .shaBlock
  | 0x49 => f.accept ⟨.reg, .slot, false, .none⟩ (.shaHash f.rdReg f.maSlot)
  | 0x4A => f.accept ⟨.reg, .unused, false, .none⟩ (.shaRdr f.rdReg c.opa.toNat)
  | 0x4B => f.accept ⟨.unused, .reg, false, .none⟩ (.shaWrr c.opa.toNat f.raReg)
  | _ => .error .unassignedOpcode

/-- The decoder. -/
def decode (c : Command) : Except Illegal Instr := decodeFields (Fields.ofWord c.cmd) c

/-! ## Rule R73's table as the spec writes it -/

/-- One row: a word `w` selects the row when `(w AND mask) = pat`. -/
structure OpRow where
  mnemonic : String
  pat      : BitVec 32
  mask     : BitVec 32
  deriving DecidableEq, Repr

/-- `(w AND mask) = match` (rule R73). -/
def OpRow.selects (r : OpRow) (w : BitVec 32) : Bool := w &&& r.mask == r.pat

/-- Rows of rule R73's table: opcode high nibble 0, system. -/
def systemRows : List OpRow :=
  [ ⟨"SYS.RESET", 0x01000000#32, 0xFFFFFFFF#32⟩
  , ⟨"SYS.RDCSR", 0x02000000#32, 0xFFFFFFFF#32⟩ ]

/-- Rows of rule R73's table: opcode high nibbles 1 and 2, BitStream. -/
def bitStreamRows : List OpRow :=
  [ ⟨"BS.LDI", 0x10000000#32, 0xFF0FFFFF#32⟩
  , ⟨"BS.EMPTY", 0x11000000#32, 0xFF0FFFFF#32⟩
  , ⟨"BS.JOIN", 0x12000000#32, 0xFF000FFF#32⟩
  , ⟨"BS.BIT", 0x13000000#32, 0xFF00FFFF#32⟩
  , ⟨"BS.SLICE", 0x14000000#32, 0xFF00FCFF#32⟩
  , ⟨"BS.LEN", 0x15000000#32, 0xFFF0FFFF#32⟩
  , ⟨"BS.EQ", 0x16000000#32, 0xFFF00FFF#32⟩
  , ⟨"BS.RD", 0x17000000#32, 0xFFF0FFFF#32⟩
  , ⟨"BS.ADD", 0x20000000#32, 0xFF000FFF#32⟩
  , ⟨"BS.ADDI", 0x21000000#32, 0xFF00FFFF#32⟩
  , ⟨"BS.AND", 0x22000000#32, 0xFF000FFF#32⟩
  , ⟨"BS.OR", 0x23000000#32, 0xFF000FFF#32⟩
  , ⟨"BS.XOR", 0x24000000#32, 0xFF000FFF#32⟩
  , ⟨"BS.NOT", 0x25000000#32, 0xFF00FFFF#32⟩
  , ⟨"BS.SHR", 0x26000000#32, 0xFF00FFFF#32⟩
  , ⟨"BS.ROTL", 0x27000000#32, 0xFF00FFFF#32⟩
  , ⟨"BS.ROTR", 0x28000000#32, 0xFF00FFFF#32⟩
  , ⟨"BS.MOD", 0x29000000#32, 0xFF00FFFF#32⟩ ]

/-- Rows of rule R73's table: opcode high nibble 3, ByteBuffer. -/
def byteBufferRows : List OpRow :=
  [ ⟨"BB.NEW", 0x30000000#32, 0xFFCFFEFF#32⟩
  , ⟨"BB.PUTB", 0x31000000#32, 0xFFCFFFFF#32⟩
  , ⟨"BB.PUTW16", 0x32000000#32, 0xFFC0FFFF#32⟩
  , ⟨"BB.PUTW32", 0x33000000#32, 0xFFC0FFFF#32⟩
  , ⟨"BB.PUTW64", 0x34000000#32, 0xFFC0FFFF#32⟩
  , ⟨"BB.PUTW128", 0x35000000#32, 0xFFC0FFFF#32⟩
  , ⟨"BB.GETB", 0x36000000#32, 0xFF0CFFFF#32⟩
  , ⟨"BB.GETW16", 0x37000000#32, 0xFF0CFFFF#32⟩
  , ⟨"BB.GETW32", 0x38000000#32, 0xFF0CFFFF#32⟩
  , ⟨"BB.GETW64", 0x39000000#32, 0xFF0CFFFF#32⟩
  , ⟨"BB.GETW128", 0x3A000000#32, 0xFF0CFFFF#32⟩
  , ⟨"BB.IDX", 0x3B000000#32, 0xFFCCFFFF#32⟩
  , ⟨"BB.SLICE", 0x3C000000#32, 0xFFCCFCFF#32⟩
  , ⟨"BB.LEN", 0x3D000000#32, 0xFFFCFFFF#32⟩
  , ⟨"BB.STR", 0x3E000000#32, 0xFF0CFFFF#32⟩ ]

/-- Rows of rule R73's table: opcode high nibble 4, SHA-256. -/
def shaRows : List OpRow :=
  [ ⟨"SHA.INIT", 0x40000000#32, 0xFFFFFFFF#32⟩
  , ⟨"SHA.PAD", 0x41000000#32, 0xFFFCFFFF#32⟩
  , ⟨"SHA.LDBLK", 0x42000000#32, 0xFFFFFFFF#32⟩
  , ⟨"SHA.EXPAND", 0x43000000#32, 0xFFFFFFFF#32⟩
  , ⟨"SHA.BEGIN", 0x44000000#32, 0xFFFFFFFF#32⟩
  , ⟨"SHA.ROUND", 0x45000000#32, 0xFFFFFFFF#32⟩
  , ⟨"SHA.UPDATE", 0x46000000#32, 0xFFFFFFFF#32⟩
  , ⟨"SHA.DIGEST", 0x47000000#32, 0xFF0FFFFF#32⟩
  , ⟨"SHA.BLOCK", 0x48000000#32, 0xFFFFFFFF#32⟩
  , ⟨"SHA.HASH", 0x49000000#32, 0xFF0CFFFF#32⟩
  , ⟨"SHA.RDR", 0x4A000000#32, 0xFF0FFFFF#32⟩
  , ⟨"SHA.WRR", 0x4B000000#32, 0xFFF0FFFF#32⟩ ]

/-- The whole opcode map (rule R73). The decoder above does not read it: the two are held against each other. -/
def opcodeTable : List OpRow := systemRows ++ bitStreamRows ++ byteBufferRows ++ shaRows

/-- The instruction's mnemonic in rule R73's table. -/
def Instr.mnemonic : Instr → String
  | .sysReset => "SYS.RESET"
  | .sysRdcsr _ => "SYS.RDCSR"
  | .bsLdi _ _ _ => "BS.LDI"
  | .bsEmpty _ => "BS.EMPTY"
  | .bsJoin _ _ _ => "BS.JOIN"
  | .bsBit _ _ _ => "BS.BIT"
  | .bsSlice _ _ _ _ => "BS.SLICE"
  | .bsLen _ => "BS.LEN"
  | .bsEq _ _ => "BS.EQ"
  | .bsRd _ => "BS.RD"
  | .bsAdd _ _ _ => "BS.ADD"
  | .bsAddi _ _ _ => "BS.ADDI"
  | .bsAnd _ _ _ => "BS.AND"
  | .bsOr _ _ _ => "BS.OR"
  | .bsXor _ _ _ => "BS.XOR"
  | .bsNot _ _ => "BS.NOT"
  | .bsShr _ _ _ => "BS.SHR"
  | .bsRotl _ _ _ => "BS.ROTL"
  | .bsRotr _ _ _ => "BS.ROTR"
  | .bsMod _ _ _ => "BS.MOD"
  | .bbNew _ _ => "BB.NEW"
  | .bbPutb _ _ => "BB.PUTB"
  | .bbPutw16 _ _ => "BB.PUTW16"
  | .bbPutw32 _ _ => "BB.PUTW32"
  | .bbPutw64 _ _ => "BB.PUTW64"
  | .bbPutw128 _ _ => "BB.PUTW128"
  | .bbGetb _ _ => "BB.GETB"
  | .bbGetw16 _ _ => "BB.GETW16"
  | .bbGetw32 _ _ => "BB.GETW32"
  | .bbGetw64 _ _ => "BB.GETW64"
  | .bbGetw128 _ _ => "BB.GETW128"
  | .bbIdx _ _ _ => "BB.IDX"
  | .bbSlice _ _ _ _ => "BB.SLICE"
  | .bbLen _ => "BB.LEN"
  | .bbStr _ _ => "BB.STR"
  | .shaInit => "SHA.INIT"
  | .shaPad _ => "SHA.PAD"
  | .shaLdblk => "SHA.LDBLK"
  | .shaExpand => "SHA.EXPAND"
  | .shaBegin => "SHA.BEGIN"
  | .shaRound => "SHA.ROUND"
  | .shaUpdate => "SHA.UPDATE"
  | .shaDigest _ => "SHA.DIGEST"
  | .shaBlock => "SHA.BLOCK"
  | .shaHash _ _ => "SHA.HASH"
  | .shaRdr _ _ => "SHA.RDR"
  | .shaWrr _ _ => "SHA.WRR"

/-! ## The encoder (rules R71 to R73) -/

/-- A register number in its 4-bit field. -/
def regField (r : Reg) : BitVec 4 := BitVec.ofFin r
/-- A slot number in its 4-bit field, the upper two bits 0. -/
def slotField (m : Slot) : BitVec 4 := 0#2 ++ (BitVec.ofFin m : BitVec 2)
/-- `CMD[8]` of BB.NEW. -/
def orderField : Order → BitVec 4
  | .big => 0#4
  | .little => 1#4
/-- `CMD[9:8]` of BS.SLICE and BB.SLICE: a bit is 1 when its bound is absent. -/
def boundsField (start stop : Option Int) : BitVec 4 :=
  0#2 ++ BitVec.ofBool stop.isNone ++ BitVec.ofBool start.isNone
/-- An unsigned operand word (rule R72). -/
def unsignedWord (n : Nat) : BitVec 64 := BitVec.ofNat 64 n
/-- A signed operand word (rule R72). -/
def signedWord (i : Int) : BitVec 64 := BitVec.ofInt 64 i
/-- The operand word of a slice bound; an absent bound's word is ignored and is sent as 0. -/
def boundWord : Option Int → BitVec 64
  | none => 0#64
  | some i => signedWord i

/-- The command with these fields and operand words. -/
def command (f : Fields) (opa opb : BitVec 64) : Command := ⟨f.toWord, opa, opb⟩

/-- The command that carries an instruction; a word the command does not use is 0. -/
def encode : Instr → Command
  | .sysReset => command ⟨0x01#8, 0#4, 0#4, 0#4, 0#4, 0#8⟩ 0#64 0#64
  | .sysRdcsr n => command ⟨0x02#8, 0#4, 0#4, 0#4, 0#4, 0#8⟩ (unsignedWord n) 0#64
  | .bsLdi rd n z => command ⟨0x10#8, regField rd, 0#4, 0#4, 0#4, 0#8⟩ (unsignedWord n) (unsignedWord z)
  | .bsEmpty rd => command ⟨0x11#8, regField rd, 0#4, 0#4, 0#4, 0#8⟩ 0#64 0#64
  | .bsJoin rd ra rb => command ⟨0x12#8, regField rd, regField ra, regField rb, 0#4, 0#8⟩ 0#64 0#64
  | .bsBit rd ra i => command ⟨0x13#8, regField rd, regField ra, 0#4, 0#4, 0#8⟩ (signedWord i) 0#64
  | .bsSlice rd ra start stop => command ⟨0x14#8, regField rd, regField ra, 0#4, boundsField start stop, 0#8⟩ (boundWord start) (boundWord stop)
  | .bsLen ra => command ⟨0x15#8, 0#4, regField ra, 0#4, 0#4, 0#8⟩ 0#64 0#64
  | .bsEq ra rb => command ⟨0x16#8, 0#4, regField ra, regField rb, 0#4, 0#8⟩ 0#64 0#64
  | .bsRd ra => command ⟨0x17#8, 0#4, regField ra, 0#4, 0#4, 0#8⟩ 0#64 0#64
  | .bsAdd rd ra rb => command ⟨0x20#8, regField rd, regField ra, regField rb, 0#4, 0#8⟩ 0#64 0#64
  | .bsAddi rd ra n => command ⟨0x21#8, regField rd, regField ra, 0#4, 0#4, 0#8⟩ (unsignedWord n) 0#64
  | .bsAnd rd ra rb => command ⟨0x22#8, regField rd, regField ra, regField rb, 0#4, 0#8⟩ 0#64 0#64
  | .bsOr rd ra rb => command ⟨0x23#8, regField rd, regField ra, regField rb, 0#4, 0#8⟩ 0#64 0#64
  | .bsXor rd ra rb => command ⟨0x24#8, regField rd, regField ra, regField rb, 0#4, 0#8⟩ 0#64 0#64
  | .bsNot rd ra => command ⟨0x25#8, regField rd, regField ra, 0#4, 0#4, 0#8⟩ 0#64 0#64
  | .bsShr rd ra n => command ⟨0x26#8, regField rd, regField ra, 0#4, 0#4, 0#8⟩ (unsignedWord n) 0#64
  | .bsRotl rd ra n => command ⟨0x27#8, regField rd, regField ra, 0#4, 0#4, 0#8⟩ (unsignedWord n) 0#64
  | .bsRotr rd ra n => command ⟨0x28#8, regField rd, regField ra, 0#4, 0#4, 0#8⟩ (unsignedWord n) 0#64
  | .bsMod rd ra n => command ⟨0x29#8, regField rd, regField ra, 0#4, 0#4, 0#8⟩ (unsignedWord n) 0#64
  | .bbNew md order => command ⟨0x30#8, slotField md, 0#4, 0#4, orderField order, 0#8⟩ 0#64 0#64
  | .bbPutb md n => command ⟨0x31#8, slotField md, 0#4, 0#4, 0#4, 0#8⟩ (unsignedWord n) 0#64
  | .bbPutw16 md ra => command ⟨0x32#8, slotField md, regField ra, 0#4, 0#4, 0#8⟩ 0#64 0#64
  | .bbPutw32 md ra => command ⟨0x33#8, slotField md, regField ra, 0#4, 0#4, 0#8⟩ 0#64 0#64
  | .bbPutw64 md ra => command ⟨0x34#8, slotField md, regField ra, 0#4, 0#4, 0#8⟩ 0#64 0#64
  | .bbPutw128 md ra => command ⟨0x35#8, slotField md, regField ra, 0#4, 0#4, 0#8⟩ 0#64 0#64
  | .bbGetb rd ma => command ⟨0x36#8, regField rd, slotField ma, 0#4, 0#4, 0#8⟩ 0#64 0#64
  | .bbGetw16 rd ma => command ⟨0x37#8, regField rd, slotField ma, 0#4, 0#4, 0#8⟩ 0#64 0#64
  | .bbGetw32 rd ma => command ⟨0x38#8, regField rd, slotField ma, 0#4, 0#4, 0#8⟩ 0#64 0#64
  | .bbGetw64 rd ma => command ⟨0x39#8, regField rd, slotField ma, 0#4, 0#4, 0#8⟩ 0#64 0#64
  | .bbGetw128 rd ma => command ⟨0x3A#8, regField rd, slotField ma, 0#4, 0#4, 0#8⟩ 0#64 0#64
  | .bbIdx md ma i => command ⟨0x3B#8, slotField md, slotField ma, 0#4, 0#4, 0#8⟩ (signedWord i) 0#64
  | .bbSlice md ma start stop => command ⟨0x3C#8, slotField md, slotField ma, 0#4, boundsField start stop, 0#8⟩ (boundWord start) (boundWord stop)
  | .bbLen ma => command ⟨0x3D#8, 0#4, slotField ma, 0#4, 0#4, 0#8⟩ 0#64 0#64
  | .bbStr rd ma => command ⟨0x3E#8, regField rd, slotField ma, 0#4, 0#4, 0#8⟩ 0#64 0#64
  | .shaInit => command ⟨0x40#8, 0#4, 0#4, 0#4, 0#4, 0#8⟩ 0#64 0#64
  | .shaPad ma => command ⟨0x41#8, 0#4, slotField ma, 0#4, 0#4, 0#8⟩ 0#64 0#64
  | .shaLdblk => command ⟨0x42#8, 0#4, 0#4, 0#4, 0#4, 0#8⟩ 0#64 0#64
  | .shaExpand => command ⟨0x43#8, 0#4, 0#4, 0#4, 0#4, 0#8⟩ 0#64 0#64
  | .shaBegin => command ⟨0x44#8, 0#4, 0#4, 0#4, 0#4, 0#8⟩ 0#64 0#64
  | .shaRound => command ⟨0x45#8, 0#4, 0#4, 0#4, 0#4, 0#8⟩ 0#64 0#64
  | .shaUpdate => command ⟨0x46#8, 0#4, 0#4, 0#4, 0#4, 0#8⟩ 0#64 0#64
  | .shaDigest rd => command ⟨0x47#8, regField rd, 0#4, 0#4, 0#4, 0#8⟩ 0#64 0#64
  | .shaBlock => command ⟨0x48#8, 0#4, 0#4, 0#4, 0#4, 0#8⟩ 0#64 0#64
  | .shaHash rd ma => command ⟨0x49#8, regField rd, slotField ma, 0#4, 0#4, 0#8⟩ 0#64 0#64
  | .shaRdr rd n => command ⟨0x4A#8, regField rd, 0#4, 0#4, 0#4, 0#8⟩ (unsignedWord n) 0#64
  | .shaWrr n ra => command ⟨0x4B#8, 0#4, regField ra, 0#4, 0#4, 0#8⟩ (unsignedWord n) 0#64

/-! ## The numbering of spec/opcode_table.json -/

/-- The command whose bits are `w`, bit 0 the least significant bit of `CMD`, then `OPA` from bit 32 and `OPB` from bit
96 (rule R70 gives the order of the three words; log entry 7); every bit above `nbits` is 0. -/
def Command.ofBits (nbits w : Nat) : Command where
  cmd := BitVec.ofNat 32 (w % 2 ^ nbits)
  opa := BitVec.ofNat 64 (w % 2 ^ nbits / 2 ^ 32)
  opb := BitVec.ofNat 64 (w % 2 ^ nbits / 2 ^ 96)

/-- What the decoder reads from an instruction whose bits are `w`; `none` where it refuses. -/
def decodeTableWord (nbits w : Nat) : Option Instr :=
  match decode (Command.ofBits nbits w) with
  | .ok i => some i
  | .error _ => none

end Sys2Proof
end

