-- ==== Sys2Proof/Config.lean ====
section
/-! DEFINITION. The named parameters of 00_scope.md rule R5 that the spec leaves to a model. The fixed counts
(`NSREG = 16`, `NBUF = 4`, `NROUND = 64`, `OPW = 64`, `BLOCK_BYTES = 64`) stand in the types and rules that use them.
`MAXW` is OPEN: it is the field `maxw` of State, which no step changes, so that every statement about every state holds
for every `MAXW` (log entry 1). `PARTIAL_READ` has its decided default (rule R157) and `RES_TRANSPORT` has no effect on
any rule (log entries 5 and 6). No opaque constant stands here: the spec leaves no result free. -/

namespace Sys2Proof.Config

/-- `ZERO_FORM` (rules R5 and R8, decision D6): the binary numeral of the integer 0 is `"0"`, one bit. Log entry 4. -/
def zeroForm : Bits := ⟨1, 0#1⟩

/-- `MAXW` in the reset state: `none` stands for `unbounded`, the source-faithful value (rule R5). DESIGN CHOICE, log
entry 1. -/
def maxwAtReset : Option Nat := none

end Sys2Proof.Config
end

