-- ==== Sys2Proof/Machine/Alu.lean ====
section
/-! DEFINITION. The value-level functions of the BitStream ALU: the helpers of 00_scope.md rules R6, R8, R10 and the
functions in capitals of 40_bitstream_alu.md. They act on values alone; the commands that apply them to registers are in
Machine/BitStream.lean. -/

namespace Sys2Proof.Bits

/-! ## Building blocks (00_scope.md rules R6, R8, R10) -/

/-- `s ‖ t` (rule R6). -/
def append (s t : Bits) : Bits := ⟨s.len + t.len, s.bits ++ t.bits⟩

/-- `s⟨lo..hi⟩` (rule R6): positions `lo` to `hi - 1`, empty when `lo ≥ hi`; used with `hi ≤ len s` only. -/
def slice (s : Bits) (lo hi : Nat) : Bits := ⟨hi - lo, s.bits.extractLsb' (s.len - hi) (hi - lo)⟩

/-- `bin(n)` (rule R8): the binary numeral, `floor(log2 n) + 1` digits; `bin(0)` is `ZERO_FORM`. -/
def bin (n : Nat) : Bits := if n = 0 then Config.zeroForm else ⟨n.log2 + 1, BitVec.ofNat _ n⟩

/-- `zfill(s, w)` (rule R8): pads on the left with zeros to at least `w` bits, never truncates. -/
def zfill (s : Bits) (w : Nat) : Bits := if s.len ≥ w then s else append (zeros (w - s.len)) s

/-- `from_int(n, z) = zfill(bin(n), z)` (rule R8). -/
def fromInt (n z : Nat) : Bits := zfill (bin n) z

/-- The bytes `c_(k-1) ‖ … ‖ c_0` of the first `k` bytes `c_0 … c_(k-1)` of `s`. -/
def byterevFirst (s : Bits) : Nat → Bits
  | 0 => empty
  | k + 1 => append (s.slice (8 * k) (8 * k + 8)) (byterevFirst s k)

/-- `byterev(s)` (rule R10): the bytes in reverse order, the bits inside each byte unchanged. Defined for a length that is a
multiple of 8, and applied to no other. -/
def byterev (s : Bits) : Bits := byterevFirst s (s.len / 8)

/-! ## Arithmetic (40_bitstream_alu.md section 2) -/

/-- `ADD(x, y)` (rule R108): the exact sum, padded to the wider operand's width, one bit longer on a carry out. -/
def add (x y : Bits) : Bits := fromInt (x.val + y.val) (max x.len y.len)

/-- `ADDI(x, n)` (rule R109). -/
def addi (x : Bits) (n : Nat) : Bits := fromInt (x.val + n) x.len

/-- `MOD(x, d)` for `d ≥ 1` (rule R117): the last `d` digits, the whole value when it has no more. -/
def mod (x : Bits) (d : Nat) : Bits := if d ≥ x.len then x else x.slice (x.len - d) x.len

/-! ## Logic (section 3): the shorter operand is zero-extended on the left (rule R110) -/

/-- `AND(x, y)` (rule R110). -/
def and (x y : Bits) : Bits :=
  ⟨max x.len y.len, x.bits.setWidth (max x.len y.len) &&& y.bits.setWidth (max x.len y.len)⟩

/-- `OR(x, y)` (rule R111). -/
def or (x y : Bits) : Bits :=
  ⟨max x.len y.len, x.bits.setWidth (max x.len y.len) ||| y.bits.setWidth (max x.len y.len)⟩

/-- `XOR(x, y)` (rule R112). -/
def xor (x y : Bits) : Bits :=
  ⟨max x.len y.len, x.bits.setWidth (max x.len y.len) ^^^ y.bits.setWidth (max x.len y.len)⟩

/-- `NOT(x)` (rule R113): width preserved, every bit complemented. -/
def not (x : Bits) : Bits := ⟨x.len, ~~~x.bits⟩

/-! ## Shift and rotations (section 4) -/

/-- `SHR(x, n)` for `n ≥ 1` (rule R114): width preserved, vacated high bits zero. -/
def shr (x : Bits) (n : Nat) : Bits :=
  if n ≥ x.len then zeros x.len else append (zeros n) (x.slice 0 (x.len - n))

/-- The effective rotation amount (rules R115, R116): reduced modulo the length when it exceeds a non-zero length. -/
def rotAmount (len n : Nat) : Nat := if len > 0 ∧ n > len then n % len else n

/-- `ROTL(x, n)` (rule R115): `x⟨n'..L⟩ ‖ x⟨0..n'⟩`, and `""` for the empty value. -/
def rotl (x : Bits) (n : Nat) : Bits :=
  if x.len = 0 then empty
  else append (x.slice (rotAmount x.len n) x.len) (x.slice 0 (rotAmount x.len n))

/-- `ROTR(x, n)` (rule R116): `x⟨L-n'..L⟩ ‖ x⟨0..L-n'⟩`, and `""` for the empty value. -/
def rotr (x : Bits) (n : Nat) : Bits :=
  if x.len = 0 then empty
  else append (x.slice (x.len - rotAmount x.len n) x.len) (x.slice 0 (x.len - rotAmount x.len n))

/-- A value of exactly 32 bits as the word it is; the SHA unit applies it to such values only (42_sha256_pipeline.md rule
R190). -/
def toWord32 (x : Bits) : Word32 := x.bits.setWidth 32

end Sys2Proof.Bits
end

