-- ==== Sys2Proof/Machine/State.lean ====
section
/-! DEFINITION. The state of the core (10_state.md rules R20 to R25, R34), its reset value (rule R36), the status codes
(60_exceptions.md rule R240), and the two kinds of stop the interface asks for. State is plain data. -/

namespace Sys2Proof.Machine

/-- The status codes (60_exceptions.md rule R240), in the order of their numbers 0 to 8. -/
inductive Status where
  | ok
  | exhausted
  | malformedValue
  | widthMismatch
  | indexShape
  | operandDomain
  | illegalCommand
  | sequence
  | capacity
  deriving DecidableEq, Repr

/-- The response of a command (10_state.md rule R30). -/
structure Response where
  status : Status
  rval   : Nat
  res    : Bits
  deriving DecidableEq, Repr

/-- What the host side does at the command port: it presents a command (30_encoding.md rule R70), or it asserts the reset
input (70_reset_and_hazards.md rule R270). -/
inductive PortEvent where
  | command (c : Command)
  | resetInput
  deriving DecidableEq, Repr

/-- A ByteBuffer (10_state.md rule R23): byte order, backing store, and a read cursor counted in bytes. -/
structure ByteBuffer where
  order : Order
  store : Bits
  cur   : Nat
  deriving DecidableEq, Repr

/-- The SHA unit's message buffer `MB` (10_state.md rule R25): it has no `ORDER` field, its order is hardwired `BIG`. -/
structure MsgBuffer where
  store : Bits
  cur   : Nat
  deriving DecidableEq, Repr

/-- The state. The first eight fields are the whole architectural state of rule R20; the last three are the model's own:
the parameter `MAXW`, which no step changes (log entry 1), the port's queue of events the host will present (log entry
2), and the last response (log entry 3). -/
structure State where
  /-- `S[0..15]`, the BitStream registers (rule R21) -/
  regs    : Vector Bits 16
  /-- `M[0..3]`, the ByteBuffer slots (rule R23) -/
  slots   : Vector ByteBuffer 4
  /-- `MB` (rule R25) -/
  mb      : MsgBuffer
  /-- `H[0..7]`, the hash registers (rule R25) -/
  h       : Vector Word32 8
  /-- `V[0..7]`, the working variables a to h (rule R25) -/
  v       : Vector Word32 8
  /-- `W[0..63]`, the message schedule (rule R25) -/
  w       : Vector Word32 64
  /-- `T`, the round counter (rule R25) -/
  t       : Nat
  /-- `ESTICKY`, the sticky error bit (rule R34) -/
  esticky : Bool
  /-- `MAXW` (00_scope.md rule R5), `none` for `unbounded` -/
  maxw    : Option Nat
  /-- the events the host will present, the next one first (00_scope.md rule R12) -/
  port    : List PortEvent
  /-- the response of the last command (rule R30); `none` when no command has run since the last reset -/
  resp    : Option Response
  deriving DecidableEq, Repr

/-- No step of this core faults in the sense of the interface: 93_implementation_defined.md says of `stuck` "not used", and
a command that ends with an error status is a next state (60_exceptions.md rules R249, R251). The type is closed and empty:
nobody raises it (safe, nothing is left out by it). -/
inductive Fault where
  deriving DecidableEq, Repr

/-- The reasons for which the model gives a step no meaning. -/
inductive Refusal where
  /-- Raised by an arm of `exec` whose instruction has no meaning yet, and by nothing else (safe: the model stops). No arm
  raises it now. -/
  | notModelled (mnemonic : String)
  deriving DecidableEq, Repr

/-- What a meaning answers. -/
abbrev Result := Host.Outcome State Fault Refusal

/-- An empty buffer of the given order (41_bytebuffer.md rule R140). -/
def ByteBuffer.fresh (order : Order) : ByteBuffer := ⟨order, Bits.empty, 0⟩

/-- The state after reset (10_state.md rule R36, 70_reset_and_hazards.md rule R271): every register empty, every slot an
empty `BIG` buffer, `MB` empty, `H`, `V`, `W` all-zero, `T = 64`, `ESTICKY = 0`. No event is pending and no response has
been given; `MAXW` is unbounded (log entries 1 to 3). -/
def State.reset : State where
  regs    := Vector.replicate 16 Bits.empty
  slots   := Vector.replicate 4 (ByteBuffer.fresh .big)
  mb      := ⟨Bits.empty, 0⟩
  h       := Vector.replicate 8 0#32
  v       := Vector.replicate 8 0#32
  w       := Vector.replicate 64 0#32
  t       := 64
  esticky := false
  maxw    := Config.maxwAtReset
  port    := []
  resp    := none

end Sys2Proof.Machine
end

