-- ==== Sys2Proof/Machine/Flags.lean ====
section
/-! DEFINITION. The one flag-like bit. The core has no status flags and no condition codes (10_state.md rule R32: no carry,
no zero, no overflow, no negative flag); a comparison's result is `RVAL` and a carry out is a bit of the result. What is
left is `ESTICKY` (rule R34) and the numbering of the status codes (60_exceptions.md rule R240). -/

namespace Sys2Proof.Machine

/-- The code of a status (rule R240). -/
def Status.code : Status → Nat
  | .ok => 0
  | .exhausted => 1
  | .malformedValue => 2
  | .widthMismatch => 3
  | .indexShape => 4
  | .operandDomain => 5
  | .illegalCommand => 6
  | .sequence => 7
  | .capacity => 8

/-- A status of kind error (rule R240): every status other than `OK` and `EXHAUSTED`. -/
def Status.isError : Status → Bool
  | .ok => false
  | .exhausted => false
  | .malformedValue => true
  | .widthMismatch => true
  | .indexShape => true
  | .operandDomain => true
  | .illegalCommand => true
  | .sequence => true
  | .capacity => true

/-- `ESTICKY` after a command with this status (rule R34): set by every error, never cleared. -/
def estickyAfter (old : Bool) (st : Status) : Bool := old || st.isError

end Sys2Proof.Machine
end

