-- ==== Sys2Proof/Machine/Operands.lean ====
section
/-! DEFINITION. The operand forms that are resolved against the state: index and slice normalisation (00_scope.md rule
R9). The readings of the operand words themselves (unsigned, signed, absent bounds; 30_encoding.md rule R72) are the
decoder's. There is no other operand form: no immediate in `CMD`, no scaling, no displacement (rules R72, R155). -/

namespace Sys2Proof.Machine

/-- A single index into a sequence of `len` elements, normalised (rule R9): `none` when it is not valid. -/
def normIndex (len : Nat) (i : Int) : Option Nat :=
  let j := if i < 0 then i + len else i
  if 0 ≤ j ∧ j < len then some j.toNat else none

/-- One bound of a slice, clamped (rule R9); `absent` is its value when it is not given. -/
def normBound (len : Nat) (bound : Option Int) (absent : Nat) : Nat :=
  match bound with
  | none => absent
  | some a => if a < 0 then (max (a + len) 0).toNat else (min a len).toNat

/-- `norm_slice(L, start, stop)` (rule R9): the positions selected are `lo` to `hi - 1`. -/
def normSlice (len : Nat) (start stop : Option Int) : Nat × Nat :=
  let lo := normBound len start 0
  let hi := normBound len stop len
  (lo, max lo hi)

end Sys2Proof.Machine
end

