-- ==== Sys2Proof/Machine/Ops.lean ====
section
/-! DEFINITION. The named operations over registers, buffers and the port, and the one operation by which a command ends in
a fault. The meanings of the commands are written over these. -/

namespace Sys2Proof.Machine

/-! ## One buffer (00_scope.md rule R11, 41_bytebuffer.md rules R155 to R157) -/

/-- `blen(B)`: the length in bytes (rule R11). -/
def ByteBuffer.blen (b : ByteBuffer) : Nat := b.store.len / 8

/-- `MemRead(B, off, n)` (rule R11): the `n` bytes from byte offset `off`, in storage order. -/
def ByteBuffer.memRead (b : ByteBuffer) (off n : Nat) : Bits := b.store.slice (8 * off) (8 * (off + n))

/-- `MemWrite(B, blen(B), n, v)` (rule R11): appends the bytes `v`; a buffer has no other write (20_memory.md rule R58). -/
def ByteBuffer.memWrite (b : ByteBuffer) (v : Bits) : ByteBuffer := { b with store := b.store.append v }

/-- A word of the store as the buffer's order reads or writes it (20_memory.md rule R52). -/
def Order.arrange (o : Order) (v : Bits) : Bits :=
  match o with
  | .big => v
  | .little => v.byterev

/-- The bytes a relative read of `n` bytes consumes, `min(n, rem)` (rule R157). -/
def ByteBuffer.getCount (b : ByteBuffer) (n : Nat) : Nat := min n (b.blen - b.cur)

/-- `GET(B, n)` (rule R157): the value read at the cursor, and the buffer with the cursor advanced by the bytes consumed. A
word with fewer bytes left is the short word of the bytes that are left (`PARTIAL_READ`, log entry 5). -/
def ByteBuffer.get (b : ByteBuffer) (n : Nat) : Bits × ByteBuffer :=
  (Order.arrange b.order (b.memRead b.cur (b.getCount n)), { b with cur := b.cur + b.getCount n })

/-- Byte `k` of the buffer (rule R23: `STORE⟨8k..8k+8⟩`); `none` beyond the end. -/
def ByteBuffer.byteAt (b : ByteBuffer) (k : Nat) : Option Byte :=
  if k < b.blen then some ((b.memRead k 1).bits.setWidth 8) else none

/-- `MB` as the big-endian ByteBuffer it is (10_state.md rule R25). -/
def MsgBuffer.asBuffer (mb : MsgBuffer) : ByteBuffer := ⟨.big, mb.store, mb.cur⟩

/-- `blen(MB)`. -/
def MsgBuffer.blen (mb : MsgBuffer) : Nat := mb.store.len / 8

/-- `GET(MB, n)` (42_sha256_pipeline.md rule R179). -/
def MsgBuffer.get (mb : MsgBuffer) (n : Nat) : Bits × MsgBuffer :=
  ((mb.asBuffer.get n).1, ⟨mb.store, (mb.asBuffer.get n).2.cur⟩)

/-- No block is left: `MB.CUR >= blen(MB)` (rule R179). -/
def MsgBuffer.exhausted (mb : MsgBuffer) : Bool := decide (mb.blen ≤ mb.cur)

/-! ## Registers and slots (10_state.md rules R21, R23) -/

/-- `S[r]`. -/
def State.reg (s : State) (r : Reg) : Bits := s.regs[r.val]

/-- `S[r] <- v`: the whole value, length included, is replaced. -/
def State.setReg (s : State) (r : Reg) (v : Bits) : State := { s with regs := s.regs.set r.val v }

/-- `M[j]`. -/
def State.slot (s : State) (j : Slot) : ByteBuffer := s.slots[j.val]

/-- `M[j] <- b`. -/
def State.setSlot (s : State) (j : Slot) (b : ByteBuffer) : State := { s with slots := s.slots.set j.val b }

/-- Entry `k` of a register array or ROM table; every use has `k` in range. -/
def wordAt {n : Nat} (a : Vector Word32 n) (k : Nat) : Word32 := a[k]?.getD 0#32

/-! ## Ending a command -/

/-- The one way a command ends: its response is given (10_state.md rule R30) and `ESTICKY` is updated by its status (rule
R34). -/
def State.respond (s : State) (st : Status) (rval : Nat) (res : Bits) : State :=
  { s with esticky := estickyAfter s.esticky st, resp := some ⟨st, rval, res⟩ }

/-- The response `OK` with `RVAL = 0` and `RES = ""`. -/
def State.done (s : State) : State := s.respond .ok 0 Bits.empty

/-- `raise X`, the exception of this core (60_exceptions.md rules R249, R251): applied to the state as it was before the
command, it changes nothing but `ESTICKY`, which becomes 1; the response carries the status, `RVAL = 0`, `RES = ""`. Nothing
is saved, no mode changes and no handler is entered, so there is no return from it: the core is ready for the next command.
-/
def State.raise (s : State) (st : Status) : State := s.respond st 0 Bits.empty

/-- A value of `len` bits fits a register or a store (10_state.md rule R35): `len <= MAXW`. -/
def State.fits (s : State) (len : Nat) : Bool :=
  match s.maxw with
  | none => true
  | some m => decide (len ≤ m)

/-- Ends a command that writes `S[rd]`: `Capacity` and no write when the value does not fit (rule R35). -/
def State.finishReg (s : State) (rd : Reg) (v : Bits) : State :=
  if s.fits v.len then (s.setReg rd v).done else s.raise .capacity

/-- Ends a command that writes slot `md`: `Capacity` and no write when its store does not fit (rule R35). -/
def State.finishSlot (s : State) (md : Slot) (b : ByteBuffer) : State :=
  if s.fits b.store.len then (s.setSlot md b).done else s.raise .capacity

/-! ## Reset and the command port (70_reset_and_hazards.md rule R270) -/

/-- Every piece of architectural state takes its reset value (rule R270). The parameter `MAXW` is not state, and the events
the host has still to present are the host's: both are kept. -/
def State.resetCore (s : State) : State := { State.reset with maxw := s.maxw, port := s.port }

/-- The next event at the command port, and the state with the rest of the queue; `none` when the host presents nothing. -/
def State.takeEvent (s : State) : Option (PortEvent × State) :=
  match s.port with
  | [] => none
  | e :: rest => some (e, { s with port := rest })

/-- Nothing happens between two commands (60_exceptions.md rule R252). -/
def State.idle (s : State) : State := s

end Sys2Proof.Machine
end

