-- ==== Sys2Proof/Machine/BitStream.lean ====
section
/-! DEFINITION. The eighteen `BS.*` commands, 40_bitstream_alu.md. Sources are read before the destination is written
(00_scope.md rule R11); no command writes a flag. -/

namespace Sys2Proof.Machine

/-! ## Constructors and structure -/

/-- `BS.LDI rd, #n, #zfill` (rule R100). -/
def execBsLdi (rd : Reg) (n zfill : Nat) (s : State) : Result := .next (s.finishReg rd (Bits.fromInt n zfill))

/-- `BS.EMPTY rd` (rule R101). -/
def execBsEmpty (rd : Reg) (s : State) : Result := .next (s.finishReg rd Bits.empty)

/-- `BS.JOIN rd, ra, rb` (rule R102): `S[ra]`'s bits first. -/
def execBsJoin (rd ra rb : Reg) (s : State) : Result := .next (s.finishReg rd ((s.reg ra).append (s.reg rb)))

/-- `BS.BIT rd, ra, #i` (rule R103): `IndexShape` when the index is out of range. -/
def execBsBit (rd ra : Reg) (i : Int) (s : State) : Result :=
  match normIndex (s.reg ra).len i with
  | none => .next (s.raise .indexShape)
  | some j => .next (s.finishReg rd ((s.reg ra).slice j (j + 1)))

/-- `BS.SLICE rd, ra, #start, #stop` (rule R104): bounds are clamped. -/
def execBsSlice (rd ra : Reg) (start stop : Option Int) (s : State) : Result :=
  let p := normSlice (s.reg ra).len start stop
  .next (s.finishReg rd ((s.reg ra).slice p.1 p.2))

/-- `BS.LEN ra` (rule R105). -/
def execBsLen (ra : Reg) (s : State) : Result := .next (s.respond .ok (s.reg ra).len Bits.empty)

/-- `BS.EQ ra, rb` (rule R106): value and width. -/
def execBsEq (ra rb : Reg) (s : State) : Result :=
  .next (s.respond .ok (if s.reg ra = s.reg rb then 1 else 0) Bits.empty)

/-- `BS.RD ra` (rule R107). -/
def execBsRd (ra : Reg) (s : State) : Result := .next (s.respond .ok 0 (s.reg ra))

/-! ## Arithmetic -/

/-- `BS.ADD rd, ra, rb` (rule R108): never truncates. -/
def execBsAdd (rd ra rb : Reg) (s : State) : Result := .next (s.finishReg rd ((s.reg ra).add (s.reg rb)))

/-- `BS.ADDI rd, ra, #n` (rule R109). -/
def execBsAddi (rd ra : Reg) (n : Nat) (s : State) : Result := .next (s.finishReg rd ((s.reg ra).addi n))

/-- `BS.MOD rd, ra, #d` (rule R117): `OperandDomain` when `d = 0`. -/
def execBsMod (rd ra : Reg) (d : Nat) (s : State) : Result :=
  if d = 0 then .next (s.raise .operandDomain) else .next (s.finishReg rd ((s.reg ra).mod d))

/-! ## Logic -/

/-- `BS.AND rd, ra, rb` (rule R110). -/
def execBsAnd (rd ra rb : Reg) (s : State) : Result := .next (s.finishReg rd ((s.reg ra).and (s.reg rb)))

/-- `BS.OR rd, ra, rb` (rule R111). -/
def execBsOr (rd ra rb : Reg) (s : State) : Result := .next (s.finishReg rd ((s.reg ra).or (s.reg rb)))

/-- `BS.XOR rd, ra, rb` (rule R112). -/
def execBsXor (rd ra rb : Reg) (s : State) : Result := .next (s.finishReg rd ((s.reg ra).xor (s.reg rb)))

/-- `BS.NOT rd, ra` (rule R113). -/
def execBsNot (rd ra : Reg) (s : State) : Result := .next (s.finishReg rd (s.reg ra).not)

/-! ## Shift and rotations -/

/-- `BS.SHR rd, ra, #n` (rule R114): `OperandDomain` when `n = 0`. -/
def execBsShr (rd ra : Reg) (n : Nat) (s : State) : Result :=
  if n = 0 then .next (s.raise .operandDomain) else .next (s.finishReg rd ((s.reg ra).shr n))

/-- `BS.ROTL rd, ra, #n` (rule R115). -/
def execBsRotl (rd ra : Reg) (n : Nat) (s : State) : Result := .next (s.finishReg rd ((s.reg ra).rotl n))

/-- `BS.ROTR rd, ra, #n` (rule R116). -/
def execBsRotr (rd ra : Reg) (n : Nat) (s : State) : Result := .next (s.finishReg rd ((s.reg ra).rotr n))

end Sys2Proof.Machine
end

