-- ==== Sys2Proof/Machine/ByteBuffer.lean ====
section
/-! DEFINITION. The fifteen `BB.*` commands, 41_bytebuffer.md: stores are appends, loads read at the cursor, indexing
copies. -/

namespace Sys2Proof.Machine

/-! ## Shared forms -/

/-- The store `PUTW(M[md], S[ra], n)` of rule R156: `WidthMismatch` unless the operand is exactly `8n` bits wide. -/
def State.putWord (s : State) (md : Slot) (ra : Reg) (n : Nat) : State :=
  if (s.reg ra).len = 8 * n then
    s.finishSlot md ((s.slot md).memWrite (Order.arrange (s.slot md).order (s.reg ra)))
  else s.raise .widthMismatch

/-- The status of a relative read (rule R157): `EXHAUSTED` if and only if the result is `""`. -/
def getStatus (r : Bits) : Status := if r.len = 0 then .exhausted else .ok

/-- The load `S[rd] <- GET(M[ma], n)` of rule R157. At exhaustion `S[rd]` receives `""` and the cursor stays. -/
def State.getWord (s : State) (rd : Reg) (ma : Slot) (n : Nat) : State :=
  let g := (s.slot ma).get n
  if s.fits g.1.len then ((s.setSlot ma g.2).setReg rd g.1).respond (getStatus g.1) 0 Bits.empty
  else s.raise .capacity

/-- A new buffer of the same order that holds `n` bytes of `b` from offset `off`, cursor 0 (rules R151, R152). -/
def ByteBuffer.copyOut (b : ByteBuffer) (off n : Nat) : ByteBuffer := ⟨b.order, b.memRead off n, 0⟩

/-! ## Construction -/

/-- `BB.NEW md, ORDER` (rule R140). -/
def execBbNew (md : Slot) (order : Order) (s : State) : Result := .next (s.finishSlot md (ByteBuffer.fresh order))

/-! ## Stores -/

/-- `BB.PUTB md, #v` (rule R141): `WidthMismatch` when `v > 255`; `ORDER` is not read. -/
def execBbPutb (md : Slot) (v : Nat) (s : State) : Result :=
  if v > 255 then .next (s.raise .widthMismatch)
  else .next (s.finishSlot md ((s.slot md).memWrite (Bits.fromInt v 8)))

/-- `BB.PUTW16 md, ra` (rule R142). -/
def execBbPutw16 (md : Slot) (ra : Reg) (s : State) : Result := .next (s.putWord md ra 2)

/-- `BB.PUTW32 md, ra` (rule R143). -/
def execBbPutw32 (md : Slot) (ra : Reg) (s : State) : Result := .next (s.putWord md ra 4)

/-- `BB.PUTW64 md, ra` (rule R144). -/
def execBbPutw64 (md : Slot) (ra : Reg) (s : State) : Result := .next (s.putWord md ra 8)

/-- `BB.PUTW128 md, ra` (rule R145). -/
def execBbPutw128 (md : Slot) (ra : Reg) (s : State) : Result := .next (s.putWord md ra 16)

/-! ## Loads at the cursor -/

/-- `BB.GETB rd, ma` (rule R146). -/
def execBbGetb (rd : Reg) (ma : Slot) (s : State) : Result := .next (s.getWord rd ma 1)

/-- `BB.GETW16 rd, ma` (rule R147). -/
def execBbGetw16 (rd : Reg) (ma : Slot) (s : State) : Result := .next (s.getWord rd ma 2)

/-- `BB.GETW32 rd, ma` (rule R148). -/
def execBbGetw32 (rd : Reg) (ma : Slot) (s : State) : Result := .next (s.getWord rd ma 4)

/-- `BB.GETW64 rd, ma` (rule R149). -/
def execBbGetw64 (rd : Reg) (ma : Slot) (s : State) : Result := .next (s.getWord rd ma 8)

/-- `BB.GETW128 rd, ma` (rule R150). -/
def execBbGetw128 (rd : Reg) (ma : Slot) (s : State) : Result := .next (s.getWord rd ma 16)

/-! ## Absolute access -/

/-- `BB.IDX md, ma, #i` (rule R151): `IndexShape` when the byte index is out of range. -/
def execBbIdx (md ma : Slot) (i : Int) (s : State) : Result :=
  match normIndex (s.slot ma).blen i with
  | none => .next (s.raise .indexShape)
  | some j => .next (s.finishSlot md ((s.slot ma).copyOut j 1))

/-- `BB.SLICE md, ma, #start, #stop` (rule R152): bounds are clamped. -/
def execBbSlice (md ma : Slot) (start stop : Option Int) (s : State) : Result :=
  let p := normSlice (s.slot ma).blen start stop
  .next (s.finishSlot md ((s.slot ma).copyOut p.1 (p.2 - p.1)))

/-! ## Whole-buffer reads -/

/-- `BB.LEN ma` (rule R153). -/
def execBbLen (ma : Slot) (s : State) : Result := .next (s.respond .ok (s.slot ma).blen Bits.empty)

/-- `BB.STR rd, ma` (rule R154): the whole store, whatever the cursor and the order. -/
def execBbStr (rd : Reg) (ma : Slot) (s : State) : Result := .next (s.finishReg rd (s.slot ma).store)

end Sys2Proof.Machine
end

