-- ==== Sys2Proof/Machine/ShaFunctions.lean ====
section
/-! DEFINITION. The value-level functions of the SHA-256 pipeline, 42_sha256_pipeline.md: the six mixing functions, the
padding, one schedule word, one round. They are written in the normative form, over BitStream values: additions are
untruncated and one `mod(32)` stands where a register is assigned (rules R118, R182, R191). -/

namespace Sys2Proof.Machine

/-! ## The mixing functions (rules R170 to R175) -/

/-- `σ0` (rule R170). -/
def smallSigma0 (x : Bits) : Bits := ((x.rotr 7).xor (x.rotr 18)).xor (x.shr 3)

/-- `σ1` (rule R171). -/
def smallSigma1 (x : Bits) : Bits := ((x.rotr 17).xor (x.rotr 19)).xor (x.shr 10)

/-- `Σ0` (rule R172). -/
def bigSigma0 (x : Bits) : Bits := ((x.rotr 2).xor (x.rotr 13)).xor (x.rotr 22)

/-- `Σ1` (rule R173). -/
def bigSigma1 (x : Bits) : Bits := ((x.rotr 6).xor (x.rotr 11)).xor (x.rotr 25)

/-- `choice` (rule R174). -/
def choice (x y z : Bits) : Bits := (x.and y).xor (x.not.and z)

/-- `majority` (rule R175). -/
def majority (x y z : Bits) : Bits := ((x.and y).xor (x.and z)).xor (y.and z)

/-! ## Padding (rule R176) -/

/-- The number of zero bytes after the `0x80` byte, `(55 - n) mod 64` for a message of `n` bytes (rule R176's closed form
of the loop "while blen(P) mod 64 != 56"). -/
def padZeros (n : Nat) : Nat := (119 - n % 64) % 64

/-- The length word `from_int(8n, 64)`: the message's length in bits. -/
def lengthWord (n : Nat) : Bits := Bits.fromInt (8 * n) 64

/-- `PADDING(b)` for the byte array held in `msg` (rule R176): the message, `0x80`, zero bytes to 56 mod 64, the length
word. The bytes are appended one by one to a `BIG` buffer, which leaves them as they stand in `msg`. -/
def padding (msg : Bits) : Bits :=
  ((msg.append (Bits.fromInt 0x80 8)).append (Bits.zeros (8 * padZeros (msg.len / 8)))).append (lengthWord (msg.len / 8))

/-! ## The schedule expander (rule R180) -/

/-- `W[i]` from the words before it: `(W[i-16] + σ0(W[i-15]) + W[i-7] + σ1(W[i-2])).mod(32)`, for `i ≥ 16`. -/
def scheduleWord (w : Vector Word32 64) (i : Nat) : Word32 :=
  let w16 := Bits.ofWord32 (wordAt w (i - 16))
  let w15 := Bits.ofWord32 (wordAt w (i - 15))
  let w7 := Bits.ofWord32 (wordAt w (i - 7))
  let w2 := Bits.ofWord32 (wordAt w (i - 2))
  ((((w16.add (smallSigma0 w15)).add w7).add (smallSigma1 w2)).mod 32).toWord32

/-- `count` schedule words from index `i` upward, one after another: later words read earlier ones. -/
def expandFrom : (count i : Nat) → Vector Word32 64 → Vector Word32 64
  | 0, _, w => w
  | k + 1, i, w => expandFrom k (i + 1) (w.setIfInBounds i (scheduleWord w i))

/-! ## One compression round (rule R182) -/

/-- `t1 = h + Σ1(e) + choice(e, f, g) + K[i] + W[i]`: four additions, left to right, not truncated. -/
def roundT1 (v : Vector Word32 8) (k w : Word32) : Bits :=
  let e := Bits.ofWord32 (wordAt v 4)
  let f := Bits.ofWord32 (wordAt v 5)
  let g := Bits.ofWord32 (wordAt v 6)
  let h := Bits.ofWord32 (wordAt v 7)
  (((h.add (bigSigma1 e)).add (choice e f g)).add (Bits.ofWord32 k)).add (Bits.ofWord32 w)

/-- `t2 = Σ0(a) + majority(a, b, c)`: one addition, not truncated. -/
def roundT2 (v : Vector Word32 8) : Bits :=
  let a := Bits.ofWord32 (wordAt v 0)
  let b := Bits.ofWord32 (wordAt v 1)
  let c := Bits.ofWord32 (wordAt v 2)
  (bigSigma0 a).add (majority a b c)

/-- The working variables after the round: all eight assignments read the values before it. -/
def roundVars (v : Vector Word32 8) (k w : Word32) : Vector Word32 8 :=
  let t1 := roundT1 v k w
  let t2 := roundT2 v
  #v[((t1.add t2).mod 32).toWord32, wordAt v 0, wordAt v 1, wordAt v 2,
     (((Bits.ofWord32 (wordAt v 3)).add t1).mod 32).toWord32, wordAt v 4, wordAt v 5, wordAt v 6]

/-! ## Update and digest (rules R183, R184) -/

/-- `(x + y).mod(32)` of two 32-bit registers (rule R183). -/
def addMod32 (x y : Word32) : Word32 := (((Bits.ofWord32 x).add (Bits.ofWord32 y)).mod 32).toWord32

/-- The eight hash registers concatenated in order, `H[0]` the most significant (rule R184). -/
def digestOf (h : Vector Word32 8) : Bits :=
  h.toList.foldl (fun acc x => acc.append (Bits.ofWord32 x)) Bits.empty

end Sys2Proof.Machine
end

