-- ==== Sys2Proof/Machine/Sha.lean ====
section
/-! DEFINITION. The twelve `SHA.*` commands, 42_sha256_pipeline.md. A stage of the pipeline is a function on states that
gives no response; a micro-command runs one stage, a macro-command the fixed sequence of stages as one atomic step. -/

namespace Sys2Proof.Machine

/-! ## The stages -/

/-- `H[k] <- IV[k]` (rule R177). -/
def stageInit (s : State) : State := { s with h := romIV }

/-- `MB.STORE <- PADDING(b)`, `MB.CUR <- 0` for the bytes `b` of slot `ma`, all of them, whatever its cursor and order
(rule R178). -/
def stagePad (ma : Slot) (s : State) : State := { s with mb := ⟨padding (s.slot ma).store, 0⟩ }

/-- `count` words `W[i] <- GET(MB, 4)` from index `i` upward (rule R179). -/
def loadWords : (count i : Nat) → MsgBuffer × Vector Word32 64 → MsgBuffer × Vector Word32 64
  | 0, _, p => p
  | k + 1, i, p => loadWords k (i + 1) ((p.1.get 4).2, p.2.setIfInBounds i (p.1.get 4).1.toWord32)

/-- The sixteen words of the next block (rule R179). -/
def stageLoad (s : State) : State :=
  let p := loadWords 16 0 (s.mb, s.w)
  { s with mb := p.1, w := p.2 }

/-- Schedule words 16 to 63 (rule R180). -/
def stageExpand (s : State) : State := { s with w := expandFrom 48 16 s.w }

/-- `V[k] <- H[k]`, `T <- 0` (rule R181). -/
def stageBegin (s : State) : State := { s with v := s.h, t := 0 }

/-- Round number `T` (rule R182), for `T < 64`. -/
def stageRound (s : State) : State :=
  { s with v := roundVars s.v (wordAt romK s.t) (wordAt s.w s.t), t := s.t + 1 }

/-- `n` rounds. -/
def stageRounds : Nat → State → State
  | 0, s => s
  | n + 1, s => stageRounds n (stageRound s)

/-- `H[k] <- (H[k] + V[k]).mod(32)` (rule R183). -/
def stageUpdate (s : State) : State := { s with h := Vector.zipWith addMod32 s.h s.v }

/-- LDBLK, EXPAND, BEGIN, 64 ROUNDs, UPDATE (rule R185), for a block that is there. -/
def stageBlock (s : State) : State :=
  stageUpdate (stageRounds 64 (stageBegin (stageExpand (stageLoad s))))

/-- Blocks until none is left (rule R186), at most `fuel` of them. -/
def stageBlocks : Nat → State → State
  | 0, s => s
  | n + 1, s => if s.mb.exhausted then s else stageBlocks n (stageBlock s)

/-! ## Checks of the padding (rules R176, R178, R250) -/

/-- The length word of a message of `n` bytes is no 64-bit word: the word store of rule R176 refuses it. -/
def lengthMismatch (n : Nat) : Bool := decide ((lengthWord n).len ≠ 64)

/-! ## The micro-commands -/

/-- `SHA.INIT` (rule R177). -/
def execShaInit (s : State) : Result := .next (stageInit s).done

/-- `SHA.PAD ma` (rule R178): `WidthMismatch` for a message of `2^61` bytes or more, then `Capacity`. -/
def execShaPad (ma : Slot) (s : State) : Result :=
  if lengthMismatch (s.slot ma).blen then .next (s.raise .widthMismatch)
  else if s.fits (padding (s.slot ma).store).len then .next (stagePad ma s).done
  else .next (s.raise .capacity)

/-- `SHA.LDBLK` (rule R179): `EXHAUSTED` and no change when no block is left. -/
def execShaLdblk (s : State) : Result :=
  if s.mb.exhausted then .next (s.respond .exhausted 0 Bits.empty) else .next (stageLoad s).done

/-- `SHA.EXPAND` (rule R180). -/
def execShaExpand (s : State) : Result := .next (stageExpand s).done

/-- `SHA.BEGIN` (rule R181). -/
def execShaBegin (s : State) : Result := .next (stageBegin s).done

/-- `SHA.ROUND` (rule R182): `Sequence` when no round is pending. -/
def execShaRound (s : State) : Result :=
  if 64 ≤ s.t then .next (s.raise .sequence) else .next (stageRound s).done

/-- `SHA.UPDATE` (rule R183). -/
def execShaUpdate (s : State) : Result := .next (stageUpdate s).done

/-- `SHA.DIGEST rd` (rule R184). -/
def execShaDigest (rd : Reg) (s : State) : Result := .next (s.finishReg rd (digestOf s.h))

/-! ## The macro-commands -/

/-- `SHA.BLOCK` (rule R185). -/
def execShaBlock (s : State) : Result :=
  if s.mb.exhausted then .next (s.respond .exhausted 0 Bits.empty) else .next (stageBlock s).done

/-- PAD, INIT, BLOCK until exhausted (rule R186), without the checks. A message buffer of `k` bytes has at most `k / 64 + 1`
blocks. -/
def stageHash (ma : Slot) (s : State) : State :=
  let p := stageInit (stagePad ma s)
  stageBlocks (p.mb.blen / 64 + 1) p

/-- `SHA.HASH rd, ma` (rule R186): both faults are detected before anything is written. -/
def execShaHash (rd : Reg) (ma : Slot) (s : State) : Result :=
  if lengthMismatch (s.slot ma).blen then .next (s.raise .widthMismatch)
  else if s.fits (padding (s.slot ma).store).len && s.fits 256 then
    .next ((stageHash ma s).setReg rd (digestOf (stageHash ma s).h)).done
  else .next (s.raise .capacity)

/-! ## The SHA register space (10_state.md rule R28) -/

/-- The 32-bit value at an index of rule R28: `H`, `V`, `W`, `K`, `IV`; `none` from 152 on. -/
def State.shaReg (s : State) (idx : Nat) : Option Word32 :=
  if idx < 8 then some (wordAt s.h idx)
  else if idx < 16 then some (wordAt s.v (idx - 8))
  else if idx < 80 then some (wordAt s.w (idx - 16))
  else if idx < 144 then some (wordAt romK (idx - 80))
  else if idx < 152 then some (wordAt romIV (idx - 144))
  else none

/-- Writes the register at a writable index of rule R28 (`idx < 80`): `H[idx]`, `V[idx-8]` or `W[idx-16]`. -/
def State.setShaReg (s : State) (idx : Nat) (x : Word32) : State :=
  if idx < 8 then { s with h := s.h.setIfInBounds idx x }
  else if idx < 16 then { s with v := s.v.setIfInBounds (idx - 8) x }
  else { s with w := s.w.setIfInBounds (idx - 16) x }

/-- `SHA.RDR rd, #idx` (rule R187): `OperandDomain` from 152 on. -/
def execShaRdr (rd : Reg) (idx : Nat) (s : State) : Result :=
  match s.shaReg idx with
  | none => .next (s.raise .operandDomain)
  | some x => .next (s.finishReg rd (Bits.ofWord32 x))

/-- `SHA.WRR #idx, ra` (rule R188): `OperandDomain` first, then `WidthMismatch` (60_exceptions.md rule R250). -/
def execShaWrr (idx : Nat) (ra : Reg) (s : State) : Result :=
  if 80 ≤ idx then .next (s.raise .operandDomain)
  else if (s.reg ra).len = 32 then .next (s.setShaReg idx (s.reg ra).toWord32).done
  else .next (s.raise .widthMismatch)

end Sys2Proof.Machine
end

