-- ==== Sys2Proof/Machine/System.lean ====
section
/-! DEFINITION. The two `SYS.*` commands, 43_system_and_host.md, and the register space they read (10_state.md rule R29).
There is no other system command: no control transfer, no trap return, no wait, no CSR write (rules R228, R229). -/

namespace Sys2Proof.Machine

/-- `ORDER` as a CSR value: 0 for `BIG`, 1 for `LITTLE` (rule R29). -/
def orderCode : Order → Nat
  | .big => 0
  | .little => 1

/-- The CSRs of rule R29 by number; `none` for a number that is not listed. -/
def State.csr (s : State) (n : Nat) : Option Nat :=
  match n with
  | 0x00 => some (if s.esticky then 1 else 0)
  | 0x01 => some s.t
  | 0x02 => some s.mb.blen
  | 0x03 => some s.mb.cur
  | 0x10 => some (s.slot 0).cur
  | 0x11 => some (s.slot 1).cur
  | 0x12 => some (s.slot 2).cur
  | 0x13 => some (s.slot 3).cur
  | 0x18 => some (orderCode (s.slot 0).order)
  | 0x19 => some (orderCode (s.slot 1).order)
  | 0x1A => some (orderCode (s.slot 2).order)
  | 0x1B => some (orderCode (s.slot 3).order)
  | _ => none

/-- `SYS.RESET` (rule R210): the reset state, `ESTICKY = 0` included, and the response `OK`. -/
def execSysReset (s : State) : Result := .next s.resetCore.done

/-- `SYS.RDCSR #csr` (rule R211): `OperandDomain` for an unlisted number; no state changes. -/
def execSysRdcsr (csr : Nat) (s : State) : Result :=
  match s.csr csr with
  | none => .next (s.raise .operandDomain)
  | some n => .next (s.respond .ok n Bits.empty)

end Sys2Proof.Machine
end

