-- ==== Sys2Proof/Machine/Dispatch.lean ====
section
/-! DEFINITION. The dispatch of the 47 commands to their meanings. -/

namespace Sys2Proof.Machine

def exec (i : Instr) (s : State) : Host.Outcome State Fault Refusal :=
  match i with
  | .sysReset => Sys2Proof.Machine.execSysReset s
  | .sysRdcsr csr => Sys2Proof.Machine.execSysRdcsr csr s
  | .bsLdi rd n zfill => Sys2Proof.Machine.execBsLdi rd n zfill s
  | .bsEmpty rd => Sys2Proof.Machine.execBsEmpty rd s
  | .bsJoin rd ra rb => Sys2Proof.Machine.execBsJoin rd ra rb s
  | .bsBit rd ra index => Sys2Proof.Machine.execBsBit rd ra index s
  | .bsSlice rd ra start stop => Sys2Proof.Machine.execBsSlice rd ra start stop s
  | .bsLen ra => Sys2Proof.Machine.execBsLen ra s
  | .bsEq ra rb => Sys2Proof.Machine.execBsEq ra rb s
  | .bsRd ra => Sys2Proof.Machine.execBsRd ra s
  | .bsAdd rd ra rb => Sys2Proof.Machine.execBsAdd rd ra rb s
  | .bsAddi rd ra n => Sys2Proof.Machine.execBsAddi rd ra n s
  | .bsAnd rd ra rb => Sys2Proof.Machine.execBsAnd rd ra rb s
  | .bsOr rd ra rb => Sys2Proof.Machine.execBsOr rd ra rb s
  | .bsXor rd ra rb => Sys2Proof.Machine.execBsXor rd ra rb s
  | .bsNot rd ra => Sys2Proof.Machine.execBsNot rd ra s
  | .bsShr rd ra n => Sys2Proof.Machine.execBsShr rd ra n s
  | .bsRotl rd ra n => Sys2Proof.Machine.execBsRotl rd ra n s
  | .bsRotr rd ra n => Sys2Proof.Machine.execBsRotr rd ra n s
  | .bsMod rd ra d => Sys2Proof.Machine.execBsMod rd ra d s
  | .bbNew md order => Sys2Proof.Machine.execBbNew md order s
  | .bbPutb md v => Sys2Proof.Machine.execBbPutb md v s
  | .bbPutw16 md ra => Sys2Proof.Machine.execBbPutw16 md ra s
  | .bbPutw32 md ra => Sys2Proof.Machine.execBbPutw32 md ra s
  | .bbPutw64 md ra => Sys2Proof.Machine.execBbPutw64 md ra s
  | .bbPutw128 md ra => Sys2Proof.Machine.execBbPutw128 md ra s
  | .bbGetb rd ma => Sys2Proof.Machine.execBbGetb rd ma s
  | .bbGetw16 rd ma => Sys2Proof.Machine.execBbGetw16 rd ma s
  | .bbGetw32 rd ma => Sys2Proof.Machine.execBbGetw32 rd ma s
  | .bbGetw64 rd ma => Sys2Proof.Machine.execBbGetw64 rd ma s
  | .bbGetw128 rd ma => Sys2Proof.Machine.execBbGetw128 rd ma s
  | .bbIdx md ma index => Sys2Proof.Machine.execBbIdx md ma index s
  | .bbSlice md ma start stop => Sys2Proof.Machine.execBbSlice md ma start stop s
  | .bbLen ma => Sys2Proof.Machine.execBbLen ma s
  | .bbStr rd ma => Sys2Proof.Machine.execBbStr rd ma s
  | .shaInit => Sys2Proof.Machine.execShaInit s
  | .shaPad ma => Sys2Proof.Machine.execShaPad ma s
  | .shaLdblk => Sys2Proof.Machine.execShaLdblk s
  | .shaExpand => Sys2Proof.Machine.execShaExpand s
  | .shaBegin => Sys2Proof.Machine.execShaBegin s
  | .shaRound => Sys2Proof.Machine.execShaRound s
  | .shaUpdate => Sys2Proof.Machine.execShaUpdate s
  | .shaDigest rd => Sys2Proof.Machine.execShaDigest rd s
  | .shaBlock => Sys2Proof.Machine.execShaBlock s
  | .shaHash rd ma => Sys2Proof.Machine.execShaHash rd ma s
  | .shaRdr rd idx => Sys2Proof.Machine.execShaRdr rd idx s
  | .shaWrr idx ra => Sys2Proof.Machine.execShaWrr idx ra s

end Sys2Proof.Machine
end

