-- ==== Sys2Proof/Machine/Step.lean ====
section
/-! DEFINITION. One step of the machine (00_scope.md rule R12): the next event at the command port, from start to
completion. -/

namespace Sys2Proof.Machine

/-- One step. The host's next event is taken from the port: a command is decoded and executed (30_encoding.md rule R70), an
illegal command word raises `IllegalCommand` (rule R74), the reset input resets the core (70_reset_and_hazards.md rule
R270). With no event presented nothing happens (60_exceptions.md rule R252, log entry 2). -/
def step (s : State) : Host.Outcome State Fault Refusal :=
  match s.takeEvent with
  | none => .next s.idle
  | some (.resetInput, s') => .next s'.resetCore
  | some (.command c, s') =>
    match decode c with
    | .ok i => exec i s'
    | .error _ => .next (s'.raise .illegalCommand)

/-- `s` with the command whose bits are `w` presented next at the port (log entry 2: a program comes from outside the core,
command by command). -/
def State.withFetchWord (s : State) (nbits w : Nat) : State :=
  { s with port := .command (Command.ofBits nbits w) :: s.port }

end Sys2Proof.Machine
end

