-- ==== Sys2Proof/Machine/Conversions.lean ====
section
/-! DEFINITION. The host-side conversions of 43_system_and_host.md rules R212 to R226: pure functions on text, byte arrays
and integers that the source defines and that run at the host side of the command port (rule R227). A failing one reports an
error class of 60_exceptions.md rule R240 to its caller and issues no command. Text is a list of characters. -/

namespace Sys2Proof.Machine

/-- Text at the host side. -/
abbrev Text := List Char

/-- The result of a host-side function: a value, or an error class reported to the caller. -/
abbrev HostResult (α : Type) := Except Status α

/-! ## BitStream constructors -/

/-- The big-endian integer a byte array denotes (rule R212). -/
def bytesVal (b : List Byte) : Nat := b.foldl (fun acc x => acc * 256 + x.toNat) 0

/-- `from_bytes(b)` (rule R212): minimal width, leading zeros collapse. -/
def fromBytes (b : List Byte) : Bits := Bits.fromInt (bytesVal b) 0

/-- The UTF-8 bytes of a code point as numbers (rule R213's table); `none` for a surrogate and above `0x10FFFF`. -/
def utf8 (u : Nat) : Option (List Nat) :=
  if u < 0x80 then some [u]
  else if u < 0x800 then some [0xC0 + u / 64, 0x80 + u % 64]
  else if 0xD800 ≤ u ∧ u ≤ 0xDFFF then none
  else if u < 0x10000 then some [0xE0 + u / 4096, 0x80 + u / 64 % 64, 0x80 + u % 64]
  else if u < 0x110000 then some [0xF0 + u / 262144, 0x80 + u / 4096 % 64, 0x80 + u / 64 % 64, 0x80 + u % 64]
  else none

/-- `x_1 ‖ x_2 ‖ … ‖ x_k`, the empty stream for `k = 0` (rule R217). -/
def concatAll (xs : List Bits) : Bits := xs.foldl Bits.append Bits.empty

/-- `from_char(c)` (rule R213) of a text given by its code points: `MalformedValue` unless it is exactly one character that
has a UTF-8 encoding. -/
def fromChar (codePoints : List Nat) : HostResult Bits :=
  match codePoints with
  | [u] =>
    match utf8 u with
    | some bs => .ok (concatAll (bs.map fun b => Bits.fromInt b 8))
    | none => .error .malformedValue
  | _ => .error .malformedValue

/-- The value of a hexadecimal digit, either case (rule R214). -/
def hexDigit (c : Char) : Option Nat :=
  let n := c.toNat
  if 48 ≤ n ∧ n ≤ 57 then some (n - 48)
  else if 97 ≤ n ∧ n ≤ 102 then some (n - 87)
  else if 65 ≤ n ∧ n ≤ 70 then some (n - 55)
  else none

/-- The values of all digits of a text, `none` if some character is no hexadecimal digit. -/
def hexDigits (h : Text) : Option (List Nat) := h.mapM hexDigit

/-- `BitStream.from_hex(h)` (rule R214): 4 bits per digit, an odd number of digits accepted. -/
def fromHex (h : Text) : HostResult Bits :=
  match hexDigits h with
  | some ds => .ok (concatAll (ds.map fun d => Bits.fromInt d 4))
  | none => .error .malformedValue

/-- What a host may be handed as the width `zfill` (rule R215): an integer, or anything else. -/
inductive WidthOperand where
  | int (i : Int)
  | other
  deriving DecidableEq, Repr

/-- A width within the contract of rule R215; `MalformedValue` for a negative or non-integer one. -/
def WidthOperand.accept : WidthOperand → HostResult Nat
  | .int i => if i < 0 then .error .malformedValue else .ok i.toNat
  | .other => .error .malformedValue

/-- `from_int(n, zfill)` and `from_unsigned_int(n, zfill)` at the host (rule R215), the width 0 when it is not given:
`MalformedValue` for a negative integer and for a width outside the contract. -/
def hostFromInt (n : Int) (zfill : WidthOperand := .int 0) : HostResult Bits :=
  zfill.accept.bind fun w => if n < 0 then .error .malformedValue else .ok (Bits.fromInt n.toNat w)

/-- A binary digit (rule R216). -/
def binDigit (c : Char) : Option Bool :=
  if c = '0' then some false else if c = '1' then some true else none

/-- The BitStream value with these digits, leftmost first. -/
def ofDigits (ds : List Bool) : Bits := concatAll (ds.map fun d => ⟨1, BitVec.ofBool d⟩)

/-- `parse_str(t)` (rule R216). -/
def parseStr (t : Text) : HostResult Bits :=
  match t.mapM binDigit with
  | some ds => .ok (ofDigits ds)
  | none => .error .malformedValue

/-- An operand of `join` or `+` at the host: a BitStream or a digit string (rules R217, R226). -/
inductive StreamOperand where
  | stream (x : Bits)
  | text (t : Text)
  deriving DecidableEq, Repr

/-- A digit string is read by rule R216. -/
def StreamOperand.coerce : StreamOperand → HostResult Bits
  | .stream x => .ok x
  | .text t => parseStr t

/-- `join(x_1, …, x_k)` (rule R217). -/
def hostJoin (xs : List StreamOperand) : HostResult Bits := (xs.mapM StreamOperand.coerce).map concatAll

/-! ## BitStream conversions out -/

/-- The lowercase hexadecimal digit of a value 0 to 15. -/
def hexChar (d : Nat) : Char := if d < 10 then Char.ofNat (48 + d) else Char.ofNat (87 + d)

/-- `hex(x)` (rule R218): `WidthMismatch` for a length that is not a multiple of 4. -/
def hexOut (x : Bits) : HostResult Text :=
  if x.len % 4 = 0 then .ok ((List.range (x.len / 4)).map fun j => hexChar (x.slice (4 * j) (4 * j + 4)).val)
  else .error .widthMismatch

/-- `bytes(x)` (rule R219): `WidthMismatch` for a length that is not a multiple of 8. -/
def bytesOut (x : Bits) : HostResult (List Byte) :=
  if x.len % 8 = 0 then
    .ok ((List.range (x.len / 8)).map fun j => BitVec.ofNat 8 (x.slice (8 * j) (8 * j + 8)).val)
  else .error .widthMismatch

/-- `str(x)` (rule R220). -/
def strOut (x : Bits) : Text := x.digits.map fun d => if d then '1' else '0'

/-! ## ByteBuffer conversions -/

/-- The bytes of an even list of digits, the high nibble first (rule R221); `none` for an odd count. -/
def pairBytes : List Nat → Option (List Byte)
  | [] => some []
  | [_] => none
  | hi :: lo :: rest => (pairBytes rest).map fun bs => BitVec.ofNat 8 (16 * hi + lo) :: bs

/-- The decoded bytes of a hexadecimal text (rule R221): `MalformedValue` for a non-hex character or an odd digit count. -/
def decodeHexBytes (h : Text) : HostResult (List Byte) :=
  match (hexDigits h).bind pairBytes with
  | some bs => .ok bs
  | none => .error .malformedValue

/-- A buffer with one more byte, as `put_byte` appends it (41_bytebuffer.md rule R141). -/
def ByteBuffer.putByte (b : ByteBuffer) (x : Byte) : ByteBuffer := b.memWrite (Bits.fromInt x.toNat 8)

/-- `ByteBuffer.from_hex(h, order)` (rule R221): a new buffer of the order, `BIG` when none is given, each decoded byte
appended by `put_byte`. -/
def bufferFromHex (h : Text) (order : Order := .big) : HostResult ByteBuffer :=
  (decodeHexBytes h).map fun bs => bs.foldl ByteBuffer.putByte (ByteBuffer.fresh order)

/-- Buffer `hex` (rule R222). -/
def ByteBuffer.hex (b : ByteBuffer) : HostResult Text := hexOut b.store

/-- Buffer `bytes` (rule R223). -/
def ByteBuffer.bytes (b : ByteBuffer) : HostResult (List Byte) := bytesOut b.store

/-- Buffer `str` (rule R224). -/
def ByteBuffer.str (b : ByteBuffer) : Text := strOut b.store

/-! ## Reflected addition and index shapes -/

/-- The left operand of a reflected addition (rule R226). -/
inductive AddOperand where
  | int (n : Int)
  | operand (x : StreamOperand)
  deriving DecidableEq, Repr

/-- `n + x` and `"0101" + x` (rule R226): BS.ADDI and BS.ADD with the sides exchanged; a negative integer is refused
(60_exceptions.md rule R241). -/
def reflectedAdd (left : AddOperand) (x : Bits) : HostResult Bits :=
  match left with
  | .int n => if n < 0 then .error .malformedValue else .ok (x.addi n.toNat)
  | .operand o => o.coerce.map fun y => x.add y

/-- What a host may be handed as an index (60_exceptions.md rule R243): an integer, a slice with an optional step, or
anything else. -/
inductive IndexShape where
  | int (i : Int)
  | slice (start stop step : Option Int)
  | other
  deriving DecidableEq, Repr

/-- The command that carries a BitStream index; a shape no command can carry is refused with `IndexShape` and issues
nothing (rule R243). -/
def bsIndexCommand (rd ra : Reg) : IndexShape → HostResult Instr
  | .int i => .ok (.bsBit rd ra i)
  | .slice start stop none => .ok (.bsSlice rd ra start stop)
  | .slice _ _ (some _) => .error .indexShape
  | .other => .error .indexShape

/-- The command that carries a ByteBuffer index (rules R152, R243). -/
def bbIndexCommand (md ma : Slot) : IndexShape → HostResult Instr
  | .int i => .ok (.bbIdx md ma i)
  | .slice start stop none => .ok (.bbSlice md ma start stop)
  | .slice _ _ (some _) => .error .indexShape
  | .other => .error .indexShape

end Sys2Proof.Machine
end

