-- ==== Sys2Proof/Machine/Pseudo.lean ====
section
/-! DEFINITION. The pseudo-instructions of 30_encoding.md rule R77: the operations on text and byte arrays, expanded at the
host side into commands of the core. `s15` is the expansions' scratch register (70_reset_and_hazards.md rule R277). -/

namespace Sys2Proof.Machine

/-- The pseudo-instructions (rule R77). -/
inductive Pseudo where
  | bsFromInt (rd : Reg) (n : Int) (zfill : WidthOperand := .int 0)
  | bsFromUint (rd : Reg) (n : Int) (zfill : WidthOperand := .int 0)
  | bsMov (rd ra : Reg)
  | bsParse (rd : Reg) (t : Text)
  | bsFromHex (rd : Reg) (h : Text)
  | bsFromBytes (rd : Reg) (b : List Byte)
  | bsFromChar (rd : Reg) (codePoints : List Nat)
  | bsJoinN (rd : Reg) (rs : List Reg)
  | bsHex (ra : Reg)
  | bsBytes (ra : Reg)
  | bsStr (ra : Reg)
  | bbFromHex (md : Slot) (h : Text) (order : Order := .big)
  | bbPutBytes (md : Slot) (b : List Byte)
  | bbHex (ma : Slot)
  | bbBytes (ma : Slot)
  | bbDump (ma : Slot)
  | sha256 (rd : Reg) (b : List Byte)
  deriving DecidableEq, Repr

/-- The assembler's scratch register. -/
def scratch : Reg := 15

/-- The chunks of up to 64 digits of a value, left to right. -/
def chunks64 (x : Bits) : List Bits :=
  (List.range ((x.len + 63) / 64)).map fun j => x.slice (64 * j) (min (64 * j + 64) x.len)

/-- The commands for one chunk `c`: `BS.LDI s15, #val(c), #len(c)` and `BS.JOIN rd, rd, s15`. -/
def chunkCommands (rd : Reg) (c : Bits) : List Instr := [.bsLdi scratch c.val c.len, .bsJoin rd rd scratch]

/-- The expansion of `BS.PARSE` once the host has the bit string: `BS.EMPTY rd`, then chunk by chunk. -/
def parseCommands (rd : Reg) (x : Bits) : List Instr := .bsEmpty rd :: (chunks64 x).flatMap (chunkCommands rd)

/-- The expansion of `BS.FROMINT` (rules R77, R215): one BS.LDI when the integers fit the operand words, else the digit
string, for a width too (log entry 19). -/
def fromIntCommands (rd : Reg) (n : Int) (zfill : WidthOperand) : HostResult (List Instr) :=
  (hostFromInt n zfill).bind fun x => zfill.accept.map fun w =>
    if n < 2 ^ 64 ∧ w < 2 ^ 64 then [.bsLdi rd n.toNat w] else parseCommands rd x

/-- `BS.MOV rd, ra`. -/
def movCommand (rd ra : Reg) : Instr := .bsSlice rd ra none none

/-- `BS.JOIN rd, rd, ri` for each further operand. -/
def joinCommands (rd : Reg) (rs : List Reg) : List Instr := rs.map fun r => .bsJoin rd rd r

/-- The expansion of `BS.JOINN` (rule R77): an operand after the first that is `rd` itself is read from a copy in `s15`. -/
def joinNCommands (rd : Reg) : List Reg → List Instr
  | [] => [.bsEmpty rd]
  | r1 :: rest =>
    if rd ∈ rest then
      movCommand scratch rd :: movCommand rd r1 :: joinCommands rd (rest.map fun r => if r = rd then scratch else r)
    else movCommand rd r1 :: joinCommands rd rest

/-- `BB.PUTB md, #b` for each byte in order. -/
def putCommands (md : Slot) (b : List Byte) : List Instr := b.map fun x => .bbPutb md x.toNat

/-- `BB.STR s15, ma` and `BS.RD s15`. -/
def readBufferCommands (ma : Slot) : List Instr := [.bbStr scratch ma, .bsRd scratch]

/-- The commands a pseudo-instruction stands for (rule R77), or the error class the host reports without issuing any, when
the operands it is given fail their conversion. `BS.HEX` and `BS.BYTES` of a bad width are not such a case: the width is
known only from `RES`, so `BS.RD` is issued and `Pseudo.render` refuses (DESIGN CHOICE, log entry 22). -/
def Pseudo.expand : Pseudo → HostResult (List Instr)
  | .bsFromInt rd n z => fromIntCommands rd n z
  | .bsFromUint rd n z => fromIntCommands rd n z
  | .bsMov rd ra => .ok [movCommand rd ra]
  | .bsParse rd t => (parseStr t).map (parseCommands rd)
  | .bsFromHex rd h => (fromHex h).map (parseCommands rd)
  | .bsFromBytes rd b => .ok (parseCommands rd (fromBytes b))
  | .bsFromChar rd c => (fromChar c).map (parseCommands rd)
  | .bsJoinN rd rs => .ok (joinNCommands rd rs)
  | .bsHex ra => .ok [.bsRd ra]
  | .bsBytes ra => .ok [.bsRd ra]
  | .bsStr ra => .ok [.bsRd ra]
  | .bbFromHex md h order => (decodeHexBytes h).map fun bs => .bbNew md order :: putCommands md bs
  | .bbPutBytes md b => .ok (putCommands md b)
  | .bbHex ma => .ok (readBufferCommands ma)
  | .bbBytes ma => .ok (readBufferCommands ma)
  | .bbDump ma => .ok (readBufferCommands ma)
  | .sha256 rd b => .ok (.bbNew 0 .big :: putCommands 0 b ++ [.shaHash rd 0])

/-- What the host makes of the last command's `RES`: text, a byte array, or nothing. -/
inductive HostValue where
  | nothing
  | text (t : Text)
  | bytes (b : List Byte)
  deriving DecidableEq, Repr

/-- The conversion the host applies to `RES` after the expansion (rules R77, R218 to R224): `WidthMismatch` for a bad width,
when `BS.RD` has been issued already (DESIGN CHOICE, log entry 22). -/
def Pseudo.render (p : Pseudo) (res : Bits) : HostResult HostValue :=
  match p with
  | .bsHex _ => (hexOut res).map .text
  | .bbHex _ => (hexOut res).map .text
  | .bsBytes _ => (bytesOut res).map .bytes
  | .bbBytes _ => (bytesOut res).map .bytes
  | .bsStr _ => .ok (.text (strOut res))
  | .bbDump _ => .ok (.text (strOut res))
  | .bsFromInt _ _ _ => .ok .nothing
  | .bsFromUint _ _ _ => .ok .nothing
  | .bsMov _ _ => .ok .nothing
  | .bsParse _ _ => .ok .nothing
  | .bsFromHex _ _ => .ok .nothing
  | .bsFromBytes _ _ => .ok .nothing
  | .bsFromChar _ _ => .ok .nothing
  | .bsJoinN _ _ => .ok .nothing
  | .bbFromHex _ _ _ => .ok .nothing
  | .bbPutBytes _ _ => .ok .nothing
  | .sha256 _ _ => .ok .nothing

/-- Commands executed one after another (20_memory.md rule R60). -/
def execAll : List Instr → State → Result
  | [], s => .next s
  | i :: rest, s =>
    match exec i s with
    | .next s' => execAll rest s'
    | .fault f => .fault f
    | .refused r => .refused r

/-- A pseudo-instruction carried out: a failure of the host-side conversion of its operands issues no command and changes no
core state (43_system_and_host.md). When one of its commands faults, the rest of the expansion is issued all the same: DESIGN CHOICE, log entry 20, since what the host does
after a fault is the host's business (60_exceptions.md rule R251). `hostRun` is the host that stops. -/
def Pseudo.exec (p : Pseudo) (s : State) : HostResult Result := p.expand.map fun is => execAll is s

/-- A program of commands as the host runs it: a fault ends it, and its status is reported (43_system_and_host.md rule
R228: "a fault ends the program"), the commands of an expansion among them (log entry 20). The last case is
never met: `exec` always answers a next state. -/
def hostRun : List Instr → State → HostResult State
  | [], s => .ok s
  | i :: rest, s =>
    match exec i s with
    | .next s' =>
      match s'.resp with
      | some r => if r.status.isError then .error r.status else hostRun rest s'
      | none => hostRun rest s'
    | _ => .error .illegalCommand

/-- `Sha256.hash(message)` (rule R225) on a core of the given `MAXW`: the expansion from the reset state, then
`bytes(S[rd])`. -/
def hashMessage (maxw : Option Nat) (message : List Byte) : HostResult (List Byte) :=
  (Pseudo.sha256 0 message).expand.bind fun is =>
    (hostRun is { State.reset with maxw := maxw }).bind fun s => bytesOut (s.reg 0)

end Sys2Proof.Machine
end

