-- ==== Sys2Proof/Safety.lean ====
section
/-! DEFINITION. The terms the claims use: the invariant of every reachable state, what a safe run is, which parts of the
state a command names, and a reference form of the SHA-256 arithmetic on 32-bit words. -/

namespace Sys2Proof.Machine

/-! ## The invariant -/

/-- A ByteBuffer keeps rule R24's invariants: whole bytes, and the cursor within them. -/
def ByteBuffer.wf (b : ByteBuffer) : Bool := decide (b.store.len % 8 = 0) && decide (b.cur ≤ b.blen)

/-- The message buffer keeps rule R25's: whole 64-byte blocks (42_sha256_pipeline.md rules R176, R179), the cursor at a
block's start, within them. -/
def MsgBuffer.wf (mb : MsgBuffer) : Bool :=
  decide (mb.store.len % 512 = 0) && decide (mb.cur % 64 = 0) && decide (mb.cur ≤ mb.blen)

/-- The byte-addressed memory of the core, the four slots and `MB` (20_memory.md rule R50), is in its form. -/
def Memory.wf (s : State) : Bool := s.slots.toList.all ByteBuffer.wf && s.mb.wf

/-- What holds in every reachable state (rules R21, R23, R24, R25): memory in its form, every register and store within
`MAXW`, the round counter at most 64. -/
structure State.Inv (s : State) : Prop where
  memory : Memory.wf s = true
  regs   : ∀ r : Reg, s.fits (s.reg r).len = true
  stores : ∀ j : Slot, s.fits (s.slot j).store.len = true
  msg    : s.fits s.mb.store.len = true
  rounds : s.t ≤ 64

/-- A run is safe while no command has reported an error (rule R34: "no error was reported" as a single premise). -/
def State.noErrorYet (s : State) : Prop := s.esticky = false

/-! ## The outcomes of a command, as records -/

/-- `len <= MAXW` (rule R35). -/
def Room (s : State) (len : Nat) : Prop := ∀ m, s.maxw = some m → len ≤ m

/-- `S[rd] <- z`, response `OK`, everything else as before. -/
def State.wrote (s : State) (rd : Reg) (z : Bits) : State :=
  { s with regs := s.regs.set rd.val z, resp := some ⟨.ok, 0, Bits.empty⟩ }

/-- `M[md] <- b`, response `OK`, everything else as before. -/
def State.stored (s : State) (md : Slot) (b : ByteBuffer) : State :=
  { s with slots := s.slots.set md.val b, resp := some ⟨.ok, 0, Bits.empty⟩ }

/-- A response that is no error, everything else as before. -/
def State.answered (s : State) (st : Status) (rval : Nat) (res : Bits) : State :=
  { s with resp := some ⟨st, rval, res⟩ }

/-- A fault (60_exceptions.md rule R249): `ESTICKY` becomes 1, the response carries the status, everything else as
before. -/
def State.faulted (s : State) (st : Status) : State :=
  { s with esticky := true, resp := some ⟨st, 0, Bits.empty⟩ }

/-- The command writes `z` to `S[rd]` and nothing else, or raises `Capacity` when `z` is longer than `MAXW` (rule R35). -/
def WritesReg (i : Instr) (s : State) (rd : Reg) (z : Bits) : Prop :=
  (Room s z.len → exec i s = .next (s.wrote rd z)) ∧ (¬ Room s z.len → exec i s = .next (s.faulted .capacity))

/-- The command puts `b` into slot `md` and changes nothing else, or raises `Capacity` when its store is longer than `MAXW`
(rule R35). -/
def WritesSlot (i : Instr) (s : State) (md : Slot) (b : ByteBuffer) : Prop :=
  (Room s b.store.len → exec i s = .next (s.stored md b)) ∧
  (¬ Room s b.store.len → exec i s = .next (s.faulted .capacity))

/-- The command faults with this status and changes nothing but `ESTICKY`. -/
def Faults (i : Instr) (s : State) (st : Status) : Prop := exec i s = .next (s.faulted st)

/-- Two states agree in the whole architectural state of 10_state.md rule R20. -/
structure State.SameArch (s t : State) : Prop where
  regs    : t.regs = s.regs
  slots   : t.slots = s.slots
  mb      : t.mb = s.mb
  h       : t.h = s.h
  v       : t.v = s.v
  w       : t.w = s.w
  counter : t.t = s.t
  esticky : t.esticky = s.esticky

/-! ## Digit strings and bytes -/

/-- The length of the binary numeral of `n` (00_scope.md rule R8), `floor(log2 n) + 1`; one digit for 0. -/
def numeralLen (n : Nat) : Nat := if n = 0 then 1 else n.log2 + 1

/-- The eight digits of byte `k` of a store (10_state.md rule R23). -/
def byteDigits (x : Bits) (k : Nat) : List Bool := (x.digits.drop (8 * k)).take 8

/-- The digits of `n` bytes of `x` from byte `off`, in the byte order given: as they stand for `BIG`, the bytes in reverse
order for `LITTLE` (20_memory.md rule R52). -/
def orderedDigits (o : Order) (x : Bits) (off n : Nat) : List Bool :=
  match o with
  | .big => (List.range n).flatMap fun j => byteDigits x (off + j)
  | .little => (List.range n).reverse.flatMap fun j => byteDigits x (off + j)

/-- A digit string zero-extended on the left to at least `w` digits. -/
def padLeft (w : Nat) (ds : List Bool) : List Bool := List.replicate (w - ds.length) false ++ ds

/-- The value of an index or a bound counted from the end when it is negative (00_scope.md rule R9). -/
def fromEnd (len : Nat) (i : Int) : Int := if i < 0 then i + len else i

/-- The positions of a sequence of `len` elements that a slice selects (rule R9), in order: those not before `start` and
before `stop`, an absent bound being the sequence's own end. -/
def selected (len : Nat) (start stop : Option Int) : List Nat :=
  (List.range len).filter fun p =>
    decide ((start.elim (0 : Int) (fromEnd len)) ≤ (p : Int)) && decide ((p : Int) < stop.elim (len : Int) (fromEnd len))

/-- Byte `j` from the left of a word of `n` bytes, byte 0 its most significant byte (20_memory.md rule R52). -/
def wordByte (w : Bits) (n j : Nat) : Byte := BitVec.ofNat 8 (w.val / 256 ^ (n - 1 - j))

/-- Where byte `j` of a word of `n` bytes lies from the word's start: its most significant byte at the lowest index for
`BIG`, at the highest for `LITTLE` (rule R52). -/
def bytePlace (o : Order) (n j : Nat) : Nat :=
  match o with
  | .big => j
  | .little => n - 1 - j

/-! ## The word stores and loads, for each width (41_bytebuffer.md rules R156, R157) -/

/-- The command appends the `n`-byte word `S[ra]` to slot `md` in the slot's order, and does nothing else; a word of another
width is refused. -/
def StoresWord (i : Instr) (n : Nat) (s : State) (md : Slot) (ra : Reg) : Prop :=
  ((s.reg ra).len ≠ 8 * n → Faults i s .widthMismatch) ∧
  ((s.reg ra).len = 8 * n → ∃ v : Bits, v.digits = orderedDigits (s.slot md).order (s.reg ra) 0 n ∧
    WritesSlot i s md ⟨(s.slot md).order, (s.slot md).store.append v, (s.slot md).cur⟩)

/-- The command reads the `k = min(n, rem)` bytes at the cursor of slot `ma` into `S[rd]`, in the slot's order, moves the
cursor past them and does nothing else; the status says whether there was a byte. -/
def LoadsWord (i : Instr) (n : Nat) (s : State) (rd : Reg) (ma : Slot) : Prop :=
  let b := s.slot ma
  let k := min n (b.blen - b.cur)
  ∃ r : Bits, r.len = 8 * k ∧ r.digits = orderedDigits b.order b.store b.cur k ∧
    (Room s r.len → exec i s = .next { s with
      regs := s.regs.set rd.val r
      slots := s.slots.set ma.val ⟨b.order, b.store, b.cur + k⟩
      resp := some ⟨if k = 0 then .exhausted else .ok, 0, Bits.empty⟩ }) ∧
    (¬ Room s r.len → Faults i s .capacity)

/-! ## Sums (40_bitstream_alu.md rule R118) -/

/-- A sum of BitStream values, associated in any way. -/
inductive AddTree where
  | leaf (x : Bits)
  | add (l r : AddTree)

/-- The sum by untruncated additions. -/
def AddTree.eval : AddTree → Bits
  | .leaf x => x
  | .add l r => l.eval.add r.eval

/-- The sum of the operands' values. -/
def AddTree.total : AddTree → Nat
  | .leaf x => x.val
  | .add l r => l.total + r.total

/-- Every operand is exactly `n` bits wide. -/
def AddTree.Wide (n : Nat) : AddTree → Prop
  | .leaf x => x.len = n
  | .add l r => l.Wide n ∧ r.Wide n

end Sys2Proof.Machine

/-! ## What a command names -/

namespace Sys2Proof

open Machine

/-- The opcode field of the command word that carries an instruction (30_encoding.md rule R71). -/
def Instr.opcode (i : Instr) : BitVec 8 := (encode i).cmd.extractLsb' 24 8

/-- The BitStream register a command names as `rd` (30_encoding.md rule R73). -/
def Instr.dest : Instr → Option Reg
  | .sysReset => none
  | .sysRdcsr _ => none
  | .bsLdi rd _ _ => some rd
  | .bsEmpty rd => some rd
  | .bsJoin rd _ _ => some rd
  | .bsBit rd _ _ => some rd
  | .bsSlice rd _ _ _ => some rd
  | .bsLen _ => none
  | .bsEq _ _ => none
  | .bsRd _ => none
  | .bsAdd rd _ _ => some rd
  | .bsAddi rd _ _ => some rd
  | .bsAnd rd _ _ => some rd
  | .bsOr rd _ _ => some rd
  | .bsXor rd _ _ => some rd
  | .bsNot rd _ => some rd
  | .bsShr rd _ _ => some rd
  | .bsRotl rd _ _ => some rd
  | .bsRotr rd _ _ => some rd
  | .bsMod rd _ _ => some rd
  | .bbNew _ _ => none
  | .bbPutb _ _ => none
  | .bbPutw16 _ _ => none
  | .bbPutw32 _ _ => none
  | .bbPutw64 _ _ => none
  | .bbPutw128 _ _ => none
  | .bbGetb rd _ => some rd
  | .bbGetw16 rd _ => some rd
  | .bbGetw32 rd _ => some rd
  | .bbGetw64 rd _ => some rd
  | .bbGetw128 rd _ => some rd
  | .bbIdx _ _ _ => none
  | .bbSlice _ _ _ _ => none
  | .bbLen _ => none
  | .bbStr rd _ => some rd
  | .shaInit => none
  | .shaPad _ => none
  | .shaLdblk => none
  | .shaExpand => none
  | .shaBegin => none
  | .shaRound => none
  | .shaUpdate => none
  | .shaDigest rd => some rd
  | .shaBlock => none
  | .shaHash rd _ => some rd
  | .shaRdr rd _ => some rd
  | .shaWrr _ _ => none

/-- What a command does to a slot (10_state.md rule R24): makes a new buffer in it, appends this many bytes to it, or reads
at its cursor. -/
inductive SlotUse where
  | construct
  | append (bytes : Nat)
  | read
  deriving DecidableEq, Repr

/-- The slot a command may change, and how (rule R24). -/
def Instr.slotUse : Instr → Option (Slot × SlotUse)
  | .sysReset => none
  | .sysRdcsr _ => none
  | .bsLdi _ _ _ => none
  | .bsEmpty _ => none
  | .bsJoin _ _ _ => none
  | .bsBit _ _ _ => none
  | .bsSlice _ _ _ _ => none
  | .bsLen _ => none
  | .bsEq _ _ => none
  | .bsRd _ => none
  | .bsAdd _ _ _ => none
  | .bsAddi _ _ _ => none
  | .bsAnd _ _ _ => none
  | .bsOr _ _ _ => none
  | .bsXor _ _ _ => none
  | .bsNot _ _ => none
  | .bsShr _ _ _ => none
  | .bsRotl _ _ _ => none
  | .bsRotr _ _ _ => none
  | .bsMod _ _ _ => none
  | .bbNew md _ => some (md, .construct)
  | .bbPutb md _ => some (md, .append 1)
  | .bbPutw16 md _ => some (md, .append 2)
  | .bbPutw32 md _ => some (md, .append 4)
  | .bbPutw64 md _ => some (md, .append 8)
  | .bbPutw128 md _ => some (md, .append 16)
  | .bbGetb _ ma => some (ma, .read)
  | .bbGetw16 _ ma => some (ma, .read)
  | .bbGetw32 _ ma => some (ma, .read)
  | .bbGetw64 _ ma => some (ma, .read)
  | .bbGetw128 _ ma => some (ma, .read)
  | .bbIdx md _ _ => some (md, .construct)
  | .bbSlice md _ _ _ => some (md, .construct)
  | .bbLen _ => none
  | .bbStr _ _ => none
  | .shaInit => none
  | .shaPad _ => none
  | .shaLdblk => none
  | .shaExpand => none
  | .shaBegin => none
  | .shaRound => none
  | .shaUpdate => none
  | .shaDigest _ => none
  | .shaBlock => none
  | .shaHash _ _ => none
  | .shaRdr _ _ => none
  | .shaWrr _ _ => none

/-- The parts of the SHA unit's state (10_state.md rule R25). -/
inductive ShaPart where
  | mb
  | h
  | v
  | w
  | t
  deriving DecidableEq, Repr

/-- The parts of the SHA unit that a command may change (rules R25, R29 and the "not changed" lines of
42_sha256_pipeline.md). -/
def Instr.shaParts : Instr → List ShaPart
  | .sysReset => [.mb, .h, .v, .w, .t]
  | .sysRdcsr _ => []
  | .bsLdi _ _ _ => []
  | .bsEmpty _ => []
  | .bsJoin _ _ _ => []
  | .bsBit _ _ _ => []
  | .bsSlice _ _ _ _ => []
  | .bsLen _ => []
  | .bsEq _ _ => []
  | .bsRd _ => []
  | .bsAdd _ _ _ => []
  | .bsAddi _ _ _ => []
  | .bsAnd _ _ _ => []
  | .bsOr _ _ _ => []
  | .bsXor _ _ _ => []
  | .bsNot _ _ => []
  | .bsShr _ _ _ => []
  | .bsRotl _ _ _ => []
  | .bsRotr _ _ _ => []
  | .bsMod _ _ _ => []
  | .bbNew _ _ => []
  | .bbPutb _ _ => []
  | .bbPutw16 _ _ => []
  | .bbPutw32 _ _ => []
  | .bbPutw64 _ _ => []
  | .bbPutw128 _ _ => []
  | .bbGetb _ _ => []
  | .bbGetw16 _ _ => []
  | .bbGetw32 _ _ => []
  | .bbGetw64 _ _ => []
  | .bbGetw128 _ _ => []
  | .bbIdx _ _ _ => []
  | .bbSlice _ _ _ _ => []
  | .bbLen _ => []
  | .bbStr _ _ => []
  | .shaInit => [.h]
  | .shaPad _ => [.mb]
  | .shaLdblk => [.mb, .w]
  | .shaExpand => [.w]
  | .shaBegin => [.v, .t]
  | .shaRound => [.v, .t]
  | .shaUpdate => [.h]
  | .shaDigest _ => []
  | .shaBlock => [.mb, .h, .v, .w, .t]
  | .shaHash _ _ => [.mb, .h, .v, .w, .t]
  | .shaRdr _ _ => []
  | .shaWrr idx _ => if idx < 8 then [.h] else if idx < 16 then [.v] else [.w]

/-- Two states agree in a part of the SHA unit. -/
def ShaPart.Same (p : ShaPart) (s t : State) : Prop :=
  match p with
  | .mb => t.mb = s.mb
  | .h => t.h = s.h
  | .v => t.v = s.v
  | .w => t.w = s.w
  | .t => t.t = s.t

/-- The statuses a command can end with besides `OK`, `IllegalCommand` aside: 60_exceptions.md rule R258's table. -/
def Instr.otherStatuses : Instr → List Status
  | .sysReset => []
  | .sysRdcsr _ => [.operandDomain]
  | .bsLdi _ _ _ => [.capacity]
  | .bsEmpty _ => []
  | .bsJoin _ _ _ => [.capacity]
  | .bsBit _ _ _ => [.indexShape]
  | .bsSlice _ _ _ _ => []
  | .bsLen _ => []
  | .bsEq _ _ => []
  | .bsRd _ => []
  | .bsAdd _ _ _ => [.capacity]
  | .bsAddi _ _ _ => [.capacity]
  | .bsAnd _ _ _ => []
  | .bsOr _ _ _ => []
  | .bsXor _ _ _ => []
  | .bsNot _ _ => []
  | .bsShr _ _ _ => [.operandDomain]
  | .bsRotl _ _ _ => []
  | .bsRotr _ _ _ => []
  | .bsMod _ _ _ => [.operandDomain]
  | .bbNew _ _ => []
  | .bbPutb _ _ => [.widthMismatch, .capacity]
  | .bbPutw16 _ _ => [.widthMismatch, .capacity]
  | .bbPutw32 _ _ => [.widthMismatch, .capacity]
  | .bbPutw64 _ _ => [.widthMismatch, .capacity]
  | .bbPutw128 _ _ => [.widthMismatch, .capacity]
  | .bbGetb _ _ => [.exhausted, .capacity]
  | .bbGetw16 _ _ => [.exhausted, .capacity]
  | .bbGetw32 _ _ => [.exhausted, .capacity]
  | .bbGetw64 _ _ => [.exhausted, .capacity]
  | .bbGetw128 _ _ => [.exhausted, .capacity]
  | .bbIdx _ _ _ => [.indexShape]
  | .bbSlice _ _ _ _ => []
  | .bbLen _ => []
  | .bbStr _ _ => []
  | .shaInit => []
  | .shaPad _ => [.widthMismatch, .capacity]
  | .shaLdblk => [.exhausted]
  | .shaExpand => []
  | .shaBegin => []
  | .shaRound => [.sequence]
  | .shaUpdate => []
  | .shaDigest _ => [.capacity]
  | .shaBlock => [.exhausted]
  | .shaHash _ _ => [.widthMismatch, .capacity]
  | .shaRdr _ _ => [.operandDomain, .capacity]
  | .shaWrr _ _ => [.operandDomain, .widthMismatch]

/-- The `MAXW` below which alone a command with a result of fixed size can end with `Capacity` (rule R258); `none` for the
other commands. -/
def Instr.fixedSize : Instr → Option Nat
  | .sysReset => none
  | .sysRdcsr _ => none
  | .bsLdi _ _ _ => none
  | .bsEmpty _ => none
  | .bsJoin _ _ _ => none
  | .bsBit _ _ _ => none
  | .bsSlice _ _ _ _ => none
  | .bsLen _ => none
  | .bsEq _ _ => none
  | .bsRd _ => none
  | .bsAdd _ _ _ => none
  | .bsAddi _ _ _ => none
  | .bsAnd _ _ _ => none
  | .bsOr _ _ _ => none
  | .bsXor _ _ _ => none
  | .bsNot _ _ => none
  | .bsShr _ _ _ => none
  | .bsRotl _ _ _ => none
  | .bsRotr _ _ _ => none
  | .bsMod _ _ _ => none
  | .bbNew _ _ => none
  | .bbPutb _ _ => none
  | .bbPutw16 _ _ => none
  | .bbPutw32 _ _ => none
  | .bbPutw64 _ _ => none
  | .bbPutw128 _ _ => none
  | .bbGetb _ _ => some 8
  | .bbGetw16 _ _ => some 16
  | .bbGetw32 _ _ => some 32
  | .bbGetw64 _ _ => some 64
  | .bbGetw128 _ _ => some 128
  | .bbIdx _ _ _ => none
  | .bbSlice _ _ _ _ => none
  | .bbLen _ => none
  | .bbStr _ _ => none
  | .shaInit => none
  | .shaPad _ => none
  | .shaLdblk => none
  | .shaExpand => none
  | .shaBegin => none
  | .shaRound => none
  | .shaUpdate => none
  | .shaDigest _ => some 256
  | .shaBlock => none
  | .shaHash _ _ => none
  | .shaRdr _ _ => some 32
  | .shaWrr _ _ => none

end Sys2Proof

namespace Sys2Proof.Machine

/-! ## SHA-256 on 32-bit words (42_sha256_pipeline.md rule R191)

A reference form, written without BitStream values: `+` is addition modulo `2^32`. -/

namespace Ref

/-- `σ0` on words. -/
def smallSigma0 (x : Word32) : Word32 := x.rotateRight 7 ^^^ x.rotateRight 18 ^^^ (x >>> 3)
/-- `σ1` on words. -/
def smallSigma1 (x : Word32) : Word32 := x.rotateRight 17 ^^^ x.rotateRight 19 ^^^ (x >>> 10)
/-- `Σ0` on words. -/
def bigSigma0 (x : Word32) : Word32 := x.rotateRight 2 ^^^ x.rotateRight 13 ^^^ x.rotateRight 22
/-- `Σ1` on words. -/
def bigSigma1 (x : Word32) : Word32 := x.rotateRight 6 ^^^ x.rotateRight 11 ^^^ x.rotateRight 25
/-- `choice` on words: `y` where `x` is 1, `z` where it is 0. -/
def choice (x y z : Word32) : Word32 := (x &&& y) ||| (~~~x &&& z)
/-- `majority` on words: the value that at least two of the three have. -/
def majority (x y z : Word32) : Word32 := (x &&& y) ||| (x &&& z) ||| (y &&& z)

/-- The eight working variables or hash registers. -/
structure Vars where
  a : Word32
  b : Word32
  c : Word32
  d : Word32
  e : Word32
  f : Word32
  g : Word32
  h : Word32
  deriving DecidableEq, Repr

/-- The eight entries of a register array. -/
def Vars.ofVector (x : Vector Word32 8) : Vars := ⟨x[0], x[1], x[2], x[3], x[4], x[5], x[6], x[7]⟩

/-- Register by register addition (rule R183). -/
def Vars.add (x y : Vars) : Vars :=
  ⟨x.a + y.a, x.b + y.b, x.c + y.c, x.d + y.d, x.e + y.e, x.f + y.f, x.g + y.g, x.h + y.h⟩

/-- One round (rule R182). -/
def round (v : Vars) (k w : Word32) : Vars :=
  let t1 := v.h + bigSigma1 v.e + choice v.e v.f v.g + k + w
  let t2 := bigSigma0 v.a + majority v.a v.b v.c
  ⟨t1 + t2, v.a, v.b, v.c, v.d + t1, v.e, v.f, v.g⟩

/-- The next word of a schedule that has at least sixteen (rule R180). -/
def nextWord (ws : List Word32) : Word32 :=
  ws.getD (ws.length - 16) 0 + smallSigma0 (ws.getD (ws.length - 15) 0) + ws.getD (ws.length - 7) 0
    + smallSigma1 (ws.getD (ws.length - 2) 0)

/-- `n` more words of a schedule. -/
def extend : Nat → List Word32 → List Word32
  | 0, ws => ws
  | n + 1, ws => extend n (ws ++ [nextWord ws])

/-- The big-endian word number `k` of a byte array (rule R179). -/
def word (b : List Byte) (k : Nat) : Word32 :=
  BitVec.ofNat 32 ((b.getD (4 * k) 0).toNat * 2 ^ 24 + (b.getD (4 * k + 1) 0).toNat * 2 ^ 16
    + (b.getD (4 * k + 2) 0).toNat * 2 ^ 8 + (b.getD (4 * k + 3) 0).toNat)

/-- The sixty-four schedule words of a block of 64 bytes. -/
def schedule (block : List Byte) : List Word32 := extend 48 ((List.range 16).map (word block))

/-- The compression of one block (rules R181 to R183). -/
def block (hs : Vars) (b : List Byte) : Vars :=
  hs.add ((List.zip romK.toList (schedule b)).foldl (fun v p => round v p.1 p.2) hs)

/-- `n` blocks of 64 bytes, one after another. -/
def blocks : Nat → Vars → List Byte → Vars
  | 0, hs, _ => hs
  | n + 1, hs, b => blocks n (block hs (b.take 64)) (b.drop 64)

/-- The padded message (rule R176). -/
def pad (msg : List Byte) : List Byte :=
  msg ++ [0x80#8] ++ List.replicate ((119 - msg.length % 64) % 64) 0#8
    ++ (List.range 8).map fun j => BitVec.ofNat 8 (8 * msg.length / 256 ^ (7 - j))

/-- The eight words of the digest of a message of fewer than `2^61` bytes. -/
def sha256 (msg : List Byte) : Vars :=
  blocks ((msg.length + 8) / 64 + 1) (Vars.ofVector romIV) (pad msg)

/-- The digest as the 256 bits it is, `a` first (rule R184). -/
def Vars.digits (x : Vars) : List Bool :=
  [x.a, x.b, x.c, x.d, x.e, x.f, x.g, x.h].flatMap fun w => (Bits.ofWord32 w).digits

end Ref

/-- The lowercase hexadecimal digits (43_system_and_host.md rule R214). -/
def lowerHexDigits : List Char := ['0', '1', '2', '3', '4', '5', '6', '7', '8', '9', 'a', 'b', 'c', 'd', 'e', 'f']

/-- The primes up to 311, the first 64, in order: the numbers from 2 with no divisor from 2 below them. -/
def primes : List Nat := (List.range' 2 310).filter fun n => (List.range' 2 (n - 2)).all fun d => n % d ≠ 0

/-- The bytes of a store, byte 0 first (10_state.md rule R23). -/
def storeBytes (x : Bits) : List Byte :=
  (List.range (x.len / 8)).map fun k => BitVec.ofNat 8 (x.slice (8 * k) (8 * k + 8)).val

end Sys2Proof.Machine
end

