-- ==== Sys2Proof/Certificates/Slice0/Obligations.lean ====
section
/-! DEFINITION. The statements about the model, from the numbered rules of the spec: decoding and the step, the state after
reset and the invariant, the frames that hold of every command, and what each command does. `x.opcode` is the opcode field
of the word that carries a command; `WritesReg`, `WritesSlot` and `Faults` say that `exec` answers a next state that is the
old one but for what they name. -/

open Sys2Proof Sys2Proof.Machine

/-! ## Decoding (30_encoding.md) -/

/-- Rules R71 to R73: every well-formed command, sent as its three words, is decoded as itself. -/
def Obligations.DecodeEncodeRoundTrip : Prop :=
  ∀ i : Instr, i.WellFormed → decode (encode i) = .ok i

/-- Rules R71 to R73: what is decoded is a well-formed command, and its command word is the one that was presented: no two
command words stand for the same command and no bit of a legal word is ignored. -/
def Obligations.DecodedWordIsTheEncodedWord : Prop :=
  ∀ (c : Command) (i : Instr), decode c = .ok i → i.WellFormed ∧ (encode i).cmd = c.cmd

/-- Rule R73: there are 47 rows; no word selects two of them; a word that selects a row is decoded as the row's command; a
word that selects none is rejected. -/
def Obligations.DecoderFollowsOpcodeTable : Prop :=
  opcodeTable.length = 47 ∧
  opcodeTable.Pairwise (fun r q => ∀ w : BitVec 32, ¬ (r.selects w = true ∧ q.selects w = true)) ∧
  (∀ c : Command, ∀ r ∈ opcodeTable, r.selects c.cmd = true → ∃ i, decode c = .ok i ∧ i.mnemonic = r.mnemonic) ∧
  (∀ c : Command, (∀ r ∈ opcodeTable, r.selects c.cmd = false) → ∃ e, decode c = .error e)

/-- Rules R72, R245: a command word is legal or illegal by its 32 bits alone; an operand word that the command does not use
does not change what is decoded, whether no operand is read from it (the second and third clause list the opcodes that read
one) or its slice bound is absent (`no_start = CMD[8]`, `no_stop = CMD[9]`); a signed operand is the two's-complement reading
of its word and an unsigned one its value, shown on BS.BIT, both bounds of BS.SLICE, and BS.LDI. -/
def Obligations.OperandWords : Prop :=
  (∀ (w : BitVec 32) (a a' b b' : BitVec 64) (e : Illegal), decode ⟨w, a, b⟩ = .error e → decode ⟨w, a', b'⟩ = .error e) ∧
  (∀ (w : BitVec 32) (a b b' : BitVec 64), w.extractLsb' 24 8 ∉ [0x10#8, 0x14#8, 0x3C#8] →
    decode ⟨w, a, b⟩ = decode ⟨w, a, b'⟩) ∧
  (∀ (w : BitVec 32) (a a' b : BitVec 64), w.extractLsb' 24 8 ∉ [0x02#8, 0x10#8, 0x13#8, 0x14#8, 0x21#8, 0x26#8, 0x27#8,
      0x28#8, 0x29#8, 0x31#8, 0x3B#8, 0x3C#8, 0x4A#8, 0x4B#8] → decode ⟨w, a, b⟩ = decode ⟨w, a', b⟩) ∧
  (∀ (w : BitVec 32) (a a' b b' : BitVec 64), w.extractLsb' 24 8 ∈ [0x14#8, 0x3C#8] →
    (w.getLsbD 8 = true → decode ⟨w, a, b⟩ = decode ⟨w, a', b⟩) ∧
    (w.getLsbD 9 = true → decode ⟨w, a, b⟩ = decode ⟨w, a, b'⟩)) ∧
  (∀ a b : BitVec 64,
    decode ⟨0x13100000#32, a, b⟩ = .ok (.bsBit 1 0 a.toInt) ∧
    decode ⟨0x14100000#32, a, b⟩ = .ok (.bsSlice 1 0 (some a.toInt) (some b.toInt)) ∧
    decode ⟨0x10100000#32, a, b⟩ = .ok (.bsLdi 1 a.toNat b.toNat))

/-- The worked encodings of rule R73 and words of 95_test_vectors.md, one of every family. -/
def Obligations.SpecWordsDecode : Prop :=
  decode ⟨0x24312000#32, 0#64, 0#64⟩ = .ok (.bsXor 3 1 2) ∧
  decode ⟨0x30200100#32, 0#64, 0#64⟩ = .ok (.bbNew 2 .little) ∧
  decode ⟨0x14100200#32, 2#64, 0#64⟩ = .ok (.bsSlice 1 0 (some 2) none) ∧
  decode ⟨0x13100000#32, 0xFFFFFFFFFFFFFFFF#64, 0#64⟩ = .ok (.bsBit 1 0 (-1)) ∧
  decode ⟨0x01000000#32, 0#64, 0#64⟩ = .ok .sysReset ∧
  decode ⟨0x49100000#32, 0#64, 0#64⟩ = .ok (.shaHash 1 0)

/-! ## The step -/

/-- 00_scope.md rule R12 and rule R70: when the next event at the port is a command that decodes, the step takes it from the
port and is `exec` of it. -/
def Obligations.StepRunsDecodedCommand : Prop :=
  ∀ (s : State) (c : Command) (rest : List PortEvent) (i : Instr),
    s.port = .command c :: rest → decode c = .ok i → step s = exec i { s with port := rest }

/-- Rules R74, R245: a command whose word selects no row ends with `IllegalCommand`, a fault, and changes nothing but
`ESTICKY`; the words rule R74 lists are such words, whatever their other bits: an unassigned opcode, a non-zero `rsv`, a flag
bit, field or slot number that the opcode's mask requires to be 0 (`CMD[11:10]` always), the all-zero and the all-ones
word. -/
def Obligations.IllegalCommandIsRaised : Prop :=
  (∀ (s : State) (c : Command) (rest : List PortEvent), s.port = .command c :: rest →
    (∀ r ∈ opcodeTable, r.selects c.cmd = false) →
    step s = .next (State.faulted { s with port := rest } .illegalCommand)) ∧
  (∀ w : BitVec 32, w.extractLsb' 24 8 = 0x00#8 ∨ (0x03#8 ≤ w.extractLsb' 24 8 ∧ w.extractLsb' 24 8 ≤ 0x0F#8) ∨
      (0x18#8 ≤ w.extractLsb' 24 8 ∧ w.extractLsb' 24 8 ≤ 0x1F#8) ∨
      (0x2A#8 ≤ w.extractLsb' 24 8 ∧ w.extractLsb' 24 8 ≤ 0x2F#8) ∨ w.extractLsb' 24 8 = 0x3F#8 ∨
      0x4C#8 ≤ w.extractLsb' 24 8 ∨ w.extractLsb' 0 8 ≠ 0#8 ∨ w.extractLsb' 10 2 ≠ 0#2 ∨ w = 0x00000000#32 ∨
      w = 0xFFFFFFFF#32 ∨ (∃ r ∈ opcodeTable, w.extractLsb' 24 8 = r.pat.extractLsb' 24 8 ∧ w &&& r.mask ≠ r.pat) →
    ∀ r ∈ opcodeTable, r.selects w = false)

/-- The model's port (log entry 2): with no event the step changes nothing; `withFetchWord` presents the one command whose
bits are `w` and changes nothing else. -/
def Obligations.PortOfTheModel : Prop :=
  (∀ s : State, s.port = [] → step s = .next s) ∧
  (∀ (s : State) (nbits w : Nat) (i : Instr), decodeTableWord nbits w = some i →
    step (s.withFetchWord nbits w) = exec i s)

/-- 70_reset_and_hazards.md rule R270, 43_system_and_host.md rule R210: the reset input and SYS.RESET both answer the reset
state, `ESTICKY` cleared, whatever the state was. -/
def Obligations.BothResetsGiveTheResetState : Prop :=
  (∀ (s : State) (rest : List PortEvent), s.port = .resetInput :: rest →
    ∃ t, step s = .next t ∧ State.SameArch State.reset t ∧ t.port = rest) ∧
  (Instr.sysReset.opcode = 0x01#8 ∧ ∀ s : State, ∃ t, exec .sysReset s = .next t ∧ State.SameArch State.reset t ∧
    t.resp = some ⟨.ok, 0, Bits.empty⟩)

/-- 10_state.md rule R36: the reset value of every piece of state. -/
def Obligations.ResetValues : Prop :=
  (∀ r : Reg, State.reset.reg r = Bits.empty) ∧
  (∀ j : Slot, (State.reset.slot j).order = .big ∧ (State.reset.slot j).store = Bits.empty ∧ (State.reset.slot j).cur = 0) ∧
  State.reset.mb.store = Bits.empty ∧ State.reset.mb.cur = 0 ∧
  (∀ k (hk : k < 8), State.reset.h[k] = 0#32 ∧ State.reset.v[k] = 0#32) ∧ (∀ k (hk : k < 64), State.reset.w[k] = 0#32) ∧
  State.reset.t = 64 ∧ State.reset.esticky = false

/-- The invariant holds after reset. -/
def Obligations.ResetMeetsInvariant : Prop := State.Inv State.reset

/-- 10_state.md rules R21, R24, R25: every step keeps the invariant: whole bytes and cursors in bounds in every buffer, whole
blocks in the message buffer, every value within `MAXW`, `T` at most 64. -/
def Obligations.StepKeepsInvariant : Prop :=
  ∀ s t : State, s.Inv → step s = .next t → t.Inv

/-! ## What holds of every command -/

/-- Rules R30, R251, R279: every command, in every state, ends with a next state and one response. The last two clauses are
the model's choice and rest on no rule: no command changes the fields `maxw` (log entry 1) and `port` (log entry 2). -/
def Obligations.EveryCommandEndsWithOneResponse : Prop :=
  ∀ (i : Instr) (s : State), ∃ t r, exec i s = .next t ∧ t.resp = some r ∧ t.maxw = s.maxw ∧ t.port = s.port

/-- 60_exceptions.md rule R249: when a command faults, no register, buffer, cursor, SHA register, `T` or `MB` changes, `ESTICKY`
becomes 1, and the response carries the status, 0 and the empty value. Of every command, and of a step, whose command word
may be illegal. -/
def Obligations.FaultsArePrecise : Prop :=
  (∀ (i : Instr) (s t : State) (r : Response), exec i s = .next t → t.resp = some r → r.status.isError = true →
    t = s.faulted r.status) ∧
  (∀ (s t : State) (c : Command) (rest : List PortEvent) (r : Response), s.port = .command c :: rest → step s = .next t →
    t.resp = some r → r.status.isError = true → t = State.faulted { s with port := rest } r.status)

/-- 10_state.md rule R34: `ESTICKY` is set by every command whose status is an error, cleared by SYS.RESET and by no other
command, and 0 after reset. -/
def Obligations.StickyErrorBit : Prop :=
  (∀ (s t : State) (c : Command) (rest : List PortEvent) (r : Response), s.port = .command c :: rest → step s = .next t →
    t.resp = some r → decode c ≠ .ok .sysReset → t.esticky = (s.esticky || r.status.isError)) ∧
  (∀ s t : State, exec .sysReset s = .next t → t.esticky = false) ∧ State.reset.esticky = false

/-- 10_state.md rule R30: `RVAL` is 0 but for BS.LEN, BS.EQ, BB.LEN and SYS.RDCSR, `RES` is empty but for BS.RD, and both are so
on every error. -/
def Obligations.ResponseFields : Prop :=
  ∀ (i : Instr) (s t : State) (r : Response), exec i s = .next t → t.resp = some r →
    (r.rval ≠ 0 → i.mnemonic ∈ ["BS.LEN", "BS.EQ", "BB.LEN", "SYS.RDCSR"]) ∧
    (r.res ≠ Bits.empty → i.mnemonic = "BS.RD") ∧
    (r.status.isError = true → r.rval = 0 ∧ r.res = Bits.empty)

/-- 60_exceptions.md rule R258: the statuses each command can end with, in every state that meets the invariant; and the
`MAXW` below which alone a command with a result of fixed size ends with `Capacity`. -/
def Obligations.StatusesOfEachCommand : Prop :=
  ∀ (i : Instr) (s t : State) (r : Response), s.Inv → exec i s = .next t → t.resp = some r →
    r.status ∈ Status.ok :: i.otherStatuses ∧
    (∀ n, i.fixedSize = some n → r.status = .capacity → ∃ m, s.maxw = some m ∧ m < n)

/-- 10_state.md rule R35: no command leaves a register, a store or the message buffer longer than `MAXW` where it was not, and
a status `Capacity` comes only with a finite `MAXW`. -/
def Obligations.CapacityBoundsEveryWrite : Prop :=
  ∀ (i : Instr) (s t : State), exec i s = .next t →
    (∀ r : Reg, t.reg r = s.reg r ∨ Room s (t.reg r).len) ∧
    (∀ j : Slot, (t.slot j).store = (s.slot j).store ∨ Room s (t.slot j).store.len) ∧
    (t.mb.store = s.mb.store ∨ Room s t.mb.store.len) ∧
    (s.maxw = none → ∀ r, t.resp = some r → r.status ≠ .capacity)

/-- 10_state.md rule R21, the frame of the register file: a BitStream register changes only in a command that names it as
`rd`, and in SYS.RESET. -/
def Obligations.RegistersChangeOnlyAsDestination : Prop :=
  ∀ (i : Instr) (s t : State) (r : Reg), i ≠ .sysReset → exec i s = .next t → i.dest ≠ some r → t.reg r = s.reg r

/-- 10_state.md rule R24, the frame of the buffers: a slot's store changes only by appending (BB.PUT*), its cursor only by a
relative read (BB.GET*) and only upward, its order not at all, unless a constructor makes a new buffer in it; a buffer in its
form stays in its form. -/
def Obligations.BuffersKeepTheirInvariants : Prop :=
  ∀ (i : Instr) (s t : State) (j : Slot), i ≠ .sysReset → exec i s = .next t →
    ((s.slot j).wf = true → (t.slot j).wf = true) ∧
    (i.slotUse = some (j, .construct) → t.slot j = s.slot j ∨ (t.slot j).cur = 0) ∧
    (i.slotUse ≠ some (j, .construct) →
      (t.slot j).order = (s.slot j).order ∧ (s.slot j).cur ≤ (t.slot j).cur ∧
      (∃ v, (t.slot j).store = (s.slot j).store.append v) ∧
      ((∀ n, i.slotUse ≠ some (j, .append n)) → (t.slot j).store = (s.slot j).store) ∧
      (i.slotUse ≠ some (j, .read) → (t.slot j).cur = (s.slot j).cur))

/-- 20_memory.md rules R51, R52, R58, the frame of memory byte by byte, for the commands that store: the store goes to byte
offset `blen`, the end of the buffer; byte `j` of the word, most significant first, lies there in the slot's order; every byte
before it reads as before, and none lies after it. For BB.PUTB the word is its byte and the order makes no difference. -/
def Obligations.StoredBytes : Prop :=
  ∀ (i : Instr) (s t : State) (md : Slot) (n : Nat) (word : Bits), exec i s = .next t →
    (s.slot md).wf = true → t.resp = some ⟨.ok, 0, Bits.empty⟩ →
    ((∃ v, i = .bbPutb md v ∧ n = 1 ∧ word = Bits.fromInt v 8) ∨ (∃ ra, i = .bbPutw16 md ra ∧ n = 2 ∧ word = s.reg ra) ∨
      (∃ ra, i = .bbPutw32 md ra ∧ n = 4 ∧ word = s.reg ra) ∨ (∃ ra, i = .bbPutw64 md ra ∧ n = 8 ∧ word = s.reg ra) ∨
      (∃ ra, i = .bbPutw128 md ra ∧ n = 16 ∧ word = s.reg ra)) →
    (∀ k, k < (s.slot md).blen → (t.slot md).byteAt k = (s.slot md).byteAt k) ∧
    (∀ j, j < n → (t.slot md).byteAt ((s.slot md).blen + bytePlace (s.slot md).order n j) = some (wordByte word n j)) ∧
    (∀ k, (s.slot md).blen + n ≤ k → (t.slot md).byteAt k = none)

/-- 10_state.md rule R29 and the "not changed" lines of 42_sha256_pipeline.md, the frame of the SHA unit: `MB`, `H`, `V`, `W`
and `T` change only in the commands that are named for them. -/
def Obligations.ShaUnitFrame : Prop :=
  ∀ (i : Instr) (s t : State) (p : ShaPart), exec i s = .next t → p ∉ i.shaParts → p.Same s t

/-! ## The BitStream commands (40_bitstream_alu.md) -/

/-- Rule R100, BS.LDI: the numeral of `n`, padded on the left to at least `zfill` bits, never truncated. That the numeral of
0 is one bit long, which shows for `zfill = 0` alone, is the parameter `ZERO_FORM` at its default: log entry 4. -/
def Obligations.LoadInteger : Prop :=
  ∀ (rd : Reg) (n zfill : Nat) (s : State), (Instr.bsLdi rd n zfill).opcode = 0x10#8 ∧
    ∃ z : Bits, z.val = n ∧ z.len = max zfill (numeralLen n) ∧ WritesReg (.bsLdi rd n zfill) s rd z

/-- Rules R101, R102, BS.EMPTY and BS.JOIN. -/
def Obligations.EmptyAndConcatenation : Prop :=
  ∀ (rd ra rb : Reg) (s : State),
    ((Instr.bsEmpty rd).opcode = 0x11#8 ∧ exec (.bsEmpty rd) s = .next (s.wrote rd Bits.empty)) ∧
    ((Instr.bsJoin rd ra rb).opcode = 0x12#8 ∧
      ∃ z : Bits, z.digits = (s.reg ra).digits ++ (s.reg rb).digits ∧ z.len = (s.reg ra).len + (s.reg rb).len ∧
        z.val = (s.reg ra).val * 2 ^ (s.reg rb).len + (s.reg rb).val ∧ WritesReg (.bsJoin rd ra rb) s rd z)

/-- Rule R103, BS.BIT: the one digit at the index, counted from the end when it is negative; `IndexShape` out of range. -/
def Obligations.SingleBitIndex : Prop :=
  ∀ (rd ra : Reg) (i : Int) (s : State), (Instr.bsBit rd ra i).opcode = 0x13#8 ∧
    (¬ (0 ≤ fromEnd (s.reg ra).len i ∧ fromEnd (s.reg ra).len i < (s.reg ra).len) →
      Faults (.bsBit rd ra i) s .indexShape) ∧
    (∀ j : Nat, (j : Int) = fromEnd (s.reg ra).len i → j < (s.reg ra).len →
      ∃ z : Bits, z.digits = [(s.reg ra).digit j] ∧ WritesReg (.bsBit rd ra i) s rd z)

/-- Rule R104, BS.SLICE: the digits at the selected positions, in order; never an index error. -/
def Obligations.BitSlice : Prop :=
  ∀ (rd ra : Reg) (start stop : Option Int) (s : State), (Instr.bsSlice rd ra start stop).opcode = 0x14#8 ∧
    ∃ z : Bits, z.digits = (selected (s.reg ra).len start stop).map (s.reg ra).digit ∧
      WritesReg (.bsSlice rd ra start stop) s rd z

/-- Rules R105 to R107, BS.LEN, BS.EQ, BS.RD: the answer is in the response and no state changes. -/
def Obligations.LengthEqualityRead : Prop :=
  ∀ (ra rb : Reg) (s : State),
    ((Instr.bsLen ra).opcode = 0x15#8 ∧ exec (.bsLen ra) s = .next (s.answered .ok (s.reg ra).len Bits.empty)) ∧
    ((Instr.bsEq ra rb).opcode = 0x16#8 ∧
      exec (.bsEq ra rb) s =
        .next (s.answered .ok (if (s.reg ra).digits = (s.reg rb).digits then 1 else 0) Bits.empty)) ∧
    ((Instr.bsRd ra).opcode = 0x17#8 ∧ exec (.bsRd ra) s = .next (s.answered .ok 0 (s.reg ra)))

/-- Rules R108, R109, BS.ADD and BS.ADDI: the exact sum, padded to the wider operand (the stream operand), never truncated; a
sum of two streams is at most one bit longer, and commutes. That a sum of 0 at width 0 is one bit long is the parameter
`ZERO_FORM` at its default (log entry 4); that BS.ADDI pads to the stream operand is the spec's own reading (rule R109,
decision D7). -/
def Obligations.AdditionNeverTruncates : Prop :=
  ∀ (rd ra rb : Reg) (n : Nat) (s : State),
    ((Instr.bsAdd rd ra rb).opcode = 0x20#8 ∧
      ∃ z : Bits, z.val = (s.reg ra).val + (s.reg rb).val ∧
        z.len = max (max (s.reg ra).len (s.reg rb).len) (numeralLen ((s.reg ra).val + (s.reg rb).val)) ∧
        (z.len = max (s.reg ra).len (s.reg rb).len ∨ z.len = max (s.reg ra).len (s.reg rb).len + 1) ∧
        WritesReg (.bsAdd rd ra rb) s rd z ∧ WritesReg (.bsAdd rd rb ra) s rd z) ∧
    ((Instr.bsAddi rd ra n).opcode = 0x21#8 ∧
      ∃ z : Bits, z.val = (s.reg ra).val + n ∧ z.len = max (s.reg ra).len (numeralLen ((s.reg ra).val + n)) ∧
        WritesReg (.bsAddi rd ra n) s rd z)

/-- Rule R117, BS.MOD: the last `d` digits, the value unchanged when it has no more; `OperandDomain` for `d = 0`. -/
def Obligations.BitTruncation : Prop :=
  ∀ (rd ra : Reg) (d : Nat) (s : State), (Instr.bsMod rd ra d).opcode = 0x29#8 ∧
    (d = 0 → Faults (.bsMod rd ra d) s .operandDomain) ∧
    (1 ≤ d → ∃ z : Bits, z.digits = (s.reg ra).digits.drop ((s.reg ra).len - d) ∧ z.len = min (s.reg ra).len d ∧
      z.val = (s.reg ra).val % 2 ^ d ∧ WritesReg (.bsMod rd ra d) s rd z)

/-- Rules R110 to R113, BS.AND, BS.OR, BS.XOR: position by position on the operands zero-extended on the left to the wider;
BS.NOT: every digit complemented, the width kept. -/
def Obligations.BitwiseLogic : Prop :=
  ∀ (rd ra rb : Reg) (s : State),
    let x := padLeft (max (s.reg ra).len (s.reg rb).len) (s.reg ra).digits
    let y := padLeft (max (s.reg ra).len (s.reg rb).len) (s.reg rb).digits
    ((Instr.bsAnd rd ra rb).opcode = 0x22#8 ∧
      ∃ z : Bits, z.digits = List.zipWith (· && ·) x y ∧ WritesReg (.bsAnd rd ra rb) s rd z) ∧
    ((Instr.bsOr rd ra rb).opcode = 0x23#8 ∧
      ∃ z : Bits, z.digits = List.zipWith (· || ·) x y ∧ WritesReg (.bsOr rd ra rb) s rd z) ∧
    ((Instr.bsXor rd ra rb).opcode = 0x24#8 ∧
      ∃ z : Bits, z.digits = List.zipWith Bool.xor x y ∧ WritesReg (.bsXor rd ra rb) s rd z) ∧
    ((Instr.bsNot rd ra).opcode = 0x25#8 ∧
      ∃ z : Bits, z.digits = (s.reg ra).digits.map Bool.not ∧ z.len = (s.reg ra).len ∧
        z.val = 2 ^ (s.reg ra).len - 1 - (s.reg ra).val ∧ WritesReg (.bsNot rd ra) s rd z)

/-- Rule R114, BS.SHR: width kept, zeros in from the left; `OperandDomain` for `n = 0`. -/
def Obligations.ShiftRight : Prop :=
  ∀ (rd ra : Reg) (n : Nat) (s : State), (Instr.bsShr rd ra n).opcode = 0x26#8 ∧
    (n = 0 → Faults (.bsShr rd ra n) s .operandDomain) ∧
    (1 ≤ n → ∃ z : Bits, z.digits =
        List.replicate (min n (s.reg ra).len) false ++ (s.reg ra).digits.take ((s.reg ra).len - n) ∧
      z.len = (s.reg ra).len ∧ z.val = (s.reg ra).val / 2 ^ n ∧ WritesReg (.bsShr rd ra n) s rd z)

/-- Rules R115, R116, BS.ROTL and BS.ROTR: the digit string rotated by `n` places to the left, and the one that gives the
operand back when it is rotated by `n` places to the left. -/
def Obligations.Rotations : Prop :=
  ∀ (rd ra : Reg) (n : Nat) (s : State),
    ((Instr.bsRotl rd ra n).opcode = 0x27#8 ∧
      ∃ z : Bits, z.digits = (s.reg ra).digits.rotate n ∧ WritesReg (.bsRotl rd ra n) s rd z) ∧
    ((Instr.bsRotr rd ra n).opcode = 0x28#8 ∧
      ∃ z : Bits, z.digits.rotate n = (s.reg ra).digits ∧ WritesReg (.bsRotr rd ra n) s rd z)

/-- Rule R120: the algebraic properties the source states, for every value and every `n`. -/
def Obligations.AlgebraicProperties : Prop :=
  ∀ (x : Bits) (n : Nat), (x.rotl n).rotr n = x ∧ x.xor x = Bits.zeros x.len ∧ x.and x.not = Bits.zeros x.len ∧
    (x.or x.not).digits = List.replicate x.len true

/-- Rule R118: untruncated additions of operands that are all `n ≥ 1` bits wide, associated in any way, then one `MOD`, are
addition modulo `2^n`; and the case where it fails, for operands shorter than `n`. -/
def Obligations.TwoStepModularAddition : Prop :=
  (∀ (n : Nat) (e : AddTree), 1 ≤ n → e.Wide n →
    (e.eval.mod n).len = n ∧ (e.eval.mod n).val = e.total % 2 ^ n) ∧
  ((Bits.add ⟨1, 1#1⟩ ⟨1, 1#1⟩).mod 32).digits = [true, false]

/-! ## The ByteBuffer commands (41_bytebuffer.md) -/

/-- Rules R140, R141, BB.NEW: a new, empty buffer of the order given; BB.PUTB: the byte's eight digits are appended, whatever
the order; `WidthMismatch` above 255. -/
def Obligations.NewBufferAndPutByte : Prop :=
  ∀ (md : Slot) (o : Order) (v : Nat) (s : State),
    ((Instr.bbNew md o).opcode = 0x30#8 ∧ exec (.bbNew md o) s = .next (s.stored md ⟨o, Bits.empty, 0⟩)) ∧
    ((Instr.bbPutb md v).opcode = 0x31#8 ∧
      (255 < v → Faults (.bbPutb md v) s .widthMismatch) ∧
      (v ≤ 255 → WritesSlot (.bbPutb md v) s md
        ⟨(s.slot md).order, (s.slot md).store.append ⟨8, BitVec.ofNat 8 v⟩, (s.slot md).cur⟩))

/-- Rules R142 to R145 and R156, the word stores. -/
def Obligations.PutWords : Prop :=
  ∀ (md : Slot) (ra : Reg) (s : State),
    ((Instr.bbPutw16 md ra).opcode = 0x32#8 ∧ StoresWord (.bbPutw16 md ra) 2 s md ra) ∧
    ((Instr.bbPutw32 md ra).opcode = 0x33#8 ∧ StoresWord (.bbPutw32 md ra) 4 s md ra) ∧
    ((Instr.bbPutw64 md ra).opcode = 0x34#8 ∧ StoresWord (.bbPutw64 md ra) 8 s md ra) ∧
    ((Instr.bbPutw128 md ra).opcode = 0x35#8 ∧ StoresWord (.bbPutw128 md ra) 16 s md ra)

/-- Rules R146 to R150 and R157, the relative reads, a short word (`PARTIAL_READ` at its default, log entry 5) and exhaustion
(`S[rd]` receives the empty value, log entry 8) included. -/
def Obligations.GetWords : Prop :=
  ∀ (rd : Reg) (ma : Slot) (s : State),
    ((Instr.bbGetb rd ma).opcode = 0x36#8 ∧ LoadsWord (.bbGetb rd ma) 1 s rd ma) ∧
    ((Instr.bbGetw16 rd ma).opcode = 0x37#8 ∧ LoadsWord (.bbGetw16 rd ma) 2 s rd ma) ∧
    ((Instr.bbGetw32 rd ma).opcode = 0x38#8 ∧ LoadsWord (.bbGetw32 rd ma) 4 s rd ma) ∧
    ((Instr.bbGetw64 rd ma).opcode = 0x39#8 ∧ LoadsWord (.bbGetw64 rd ma) 8 s rd ma) ∧
    ((Instr.bbGetw128 rd ma).opcode = 0x3A#8 ∧ LoadsWord (.bbGetw128 rd ma) 16 s rd ma)

/-- Rule R158: a word stored in a buffer whose cursor is at its end, then read from it, is the word that was stored, in both
orders and every width. -/
def Obligations.WordRoundTrip : Prop :=
  ∀ (s : State) (m : Slot) (ra rd : Reg) (n : Nat) (put get : Instr),
    ((put = .bbPutw16 m ra ∧ get = .bbGetw16 rd m ∧ n = 2) ∨ (put = .bbPutw32 m ra ∧ get = .bbGetw32 rd m ∧ n = 4) ∨
      (put = .bbPutw64 m ra ∧ get = .bbGetw64 rd m ∧ n = 8) ∨ (put = .bbPutw128 m ra ∧ get = .bbGetw128 rd m ∧ n = 16)) →
    (s.slot m).wf = true → (s.slot m).cur = (s.slot m).blen → (s.reg ra).len = 8 * n →
    Room s ((s.slot m).store.len + 8 * n) →
    ∃ t, execAll [put, get] s = .next t ∧ t.reg rd = s.reg ra

/-- Rule R151, BB.IDX: a new buffer of the same order that holds the one byte; `IndexShape` out of range. -/
def Obligations.SingleByteIndex : Prop :=
  ∀ (md ma : Slot) (i : Int) (s : State), (Instr.bbIdx md ma i).opcode = 0x3B#8 ∧
    (¬ (0 ≤ fromEnd (s.slot ma).blen i ∧ fromEnd (s.slot ma).blen i < (s.slot ma).blen) →
      Faults (.bbIdx md ma i) s .indexShape) ∧
    (∀ j : Nat, (j : Int) = fromEnd (s.slot ma).blen i → j < (s.slot ma).blen →
      ∃ z : Bits, z.digits = byteDigits (s.slot ma).store j ∧
        WritesSlot (.bbIdx md ma i) s md ⟨(s.slot ma).order, z, 0⟩)

/-- Rule R152, BB.SLICE: a new buffer of the same order that holds the selected bytes; never an index error. -/
def Obligations.ByteSlice : Prop :=
  ∀ (md ma : Slot) (start stop : Option Int) (s : State), (Instr.bbSlice md ma start stop).opcode = 0x3C#8 ∧
    ∃ z : Bits, z.digits = (selected (s.slot ma).blen start stop).flatMap (byteDigits (s.slot ma).store) ∧
      WritesSlot (.bbSlice md ma start stop) s md ⟨(s.slot ma).order, z, 0⟩

/-- Rules R153, R154, BB.LEN and BB.STR. -/
def Obligations.WholeBufferReads : Prop :=
  ∀ (rd : Reg) (ma : Slot) (s : State),
    ((Instr.bbLen ma).opcode = 0x3D#8 ∧
      exec (.bbLen ma) s = .next (s.answered .ok ((s.slot ma).store.len / 8) Bits.empty)) ∧
    ((Instr.bbStr rd ma).opcode = 0x3E#8 ∧ WritesReg (.bbStr rd ma) s rd (s.slot ma).store)

/-! ## The SHA-256 pipeline (42_sha256_pipeline.md) -/

/-- 10_state.md rules R26, R27: `IV[k]` and `K[k]` are the first 32 bits of the fractional parts of the square roots of the
first 8 primes and of the cube roots of the first 64: with `c` the root's integer part, `c * 2^32` plus the constant is the
integer part of `2^32` times the root. -/
def Obligations.ConstantRom : Prop :=
  primes.length = 64 ∧
  (∀ k (hk : k < 8), ∃ c < 18, let p := primes.getD k 0; let x := c * 2 ^ 32 + romIV[k].toNat
    c ^ 2 ≤ p ∧ p < (c + 1) ^ 2 ∧ x ^ 2 ≤ p * 2 ^ 64 ∧ p * 2 ^ 64 < (x + 1) ^ 2) ∧
  (∀ k (hk : k < 64), ∃ c < 18, let p := primes.getD k 0; let x := c * 2 ^ 32 + romK[k].toNat
    c ^ 3 ≤ p ∧ p < (c + 1) ^ 3 ∧ x ^ 3 ≤ p * 2 ^ 96 ∧ p * 2 ^ 96 < (x + 1) ^ 3)

/-- Rules R170 to R175: on 32-bit values the six mixing functions, built from the ALU's functions, are the word functions of
the source, bit by bit for `choice` and `majority`. -/
def Obligations.MixingFunctions : Prop :=
  ∀ x y z : Word32,
    smallSigma0 (Bits.ofWord32 x) = Bits.ofWord32 (x.rotateRight 7 ^^^ x.rotateRight 18 ^^^ (x >>> 3)) ∧
    smallSigma1 (Bits.ofWord32 x) = Bits.ofWord32 (x.rotateRight 17 ^^^ x.rotateRight 19 ^^^ (x >>> 10)) ∧
    bigSigma0 (Bits.ofWord32 x) = Bits.ofWord32 (x.rotateRight 2 ^^^ x.rotateRight 13 ^^^ x.rotateRight 22) ∧
    bigSigma1 (Bits.ofWord32 x) = Bits.ofWord32 (x.rotateRight 6 ^^^ x.rotateRight 11 ^^^ x.rotateRight 25) ∧
    choice (Bits.ofWord32 x) (Bits.ofWord32 y) (Bits.ofWord32 z) = Bits.ofWord32 (Ref.choice x y z) ∧
    majority (Bits.ofWord32 x) (Bits.ofWord32 y) (Bits.ofWord32 z) = Bits.ofWord32 (Ref.majority x y z)

/-- Rules R176, R178, SHA.PAD: the message, the digit 1, zeros to 448 modulo 512 digits, the 64-digit bit length; cursor 0;
`WidthMismatch` for `2^61` bytes or more, then `Capacity`. -/
def Obligations.PadMessage : Prop :=
  ∀ (ma : Slot) (s : State), (Instr.shaPad ma).opcode = 0x41#8 ∧
    (2 ^ 61 ≤ (s.slot ma).blen → Faults (.shaPad ma) s .widthMismatch) ∧
    ((s.slot ma).blen < 2 ^ 61 → ∃ p lw : Bits, lw.len = 64 ∧ lw.val = 8 * (s.slot ma).blen ∧
      p.digits = (s.slot ma).store.digits ++ true ::
        List.replicate (7 + 8 * ((55 - ((s.slot ma).blen : Int)) % 64).toNat) false ++ lw.digits ∧
      ((s.slot ma).store.len % 8 = 0 → p.len = 512 * (((s.slot ma).blen + 8) / 64 + 1)) ∧
      (Room s p.len → exec (.shaPad ma) s = .next { s with mb := ⟨p, 0⟩, resp := some ⟨.ok, 0, Bits.empty⟩ }) ∧
      (¬ Room s p.len → Faults (.shaPad ma) s .capacity))

/-- Rules R177, R181, SHA.INIT and SHA.BEGIN. -/
def Obligations.InitialiseAndBegin : Prop :=
  ∀ s : State,
    (Instr.shaInit.opcode = 0x40#8 ∧ exec .shaInit s = .next { s with
      h := #v[0x6a09e667#32, 0xbb67ae85#32, 0x3c6ef372#32, 0xa54ff53a#32, 0x510e527f#32, 0x9b05688c#32, 0x1f83d9ab#32,
        0x5be0cd19#32]
      resp := some ⟨.ok, 0, Bits.empty⟩ }) ∧
    (Instr.shaBegin.opcode = 0x44#8 ∧
      exec .shaBegin s = .next { s with v := s.h, t := 0, resp := some ⟨.ok, 0, Bits.empty⟩ })

/-- Rule R179, SHA.LDBLK: `W[i]` is the big-endian word of block bytes `4i` to `4i + 3`, the cursor moves by 64, `W[16..63]`
stay; `EXHAUSTED` and no change when no block is left. -/
def Obligations.LoadBlock : Prop :=
  ∀ s : State, Instr.shaLdblk.opcode = 0x42#8 ∧
    (s.mb.blen ≤ s.mb.cur → exec .shaLdblk s = .next (s.answered .exhausted 0 Bits.empty)) ∧
    (s.mb.wf = true → s.mb.cur < s.mb.blen → ∃ w : Vector Word32 64,
      exec .shaLdblk s = .next { s with
        mb := ⟨s.mb.store, s.mb.cur + 64⟩, w := w, resp := some ⟨.ok, 0, Bits.empty⟩ } ∧
      (∀ i k (hi : i < 16), k < 4 →
        s.mb.asBuffer.byteAt (s.mb.cur + 4 * i + k) = some (w[i].extractLsb' (24 - 8 * k) 8)) ∧
      (∀ i (hi : i < 64), 16 ≤ i → w[i] = s.w[i]))

/-- Rules R180, R191, SHA.EXPAND: words 16 to 63 by the recurrence, each from words this command may itself have computed;
words 0 to 15 stay. -/
def Obligations.ExpandSchedule : Prop :=
  ∀ s : State, Instr.shaExpand.opcode = 0x43#8 ∧ ∃ w : Vector Word32 64,
    exec .shaExpand s = .next { s with w := w, resp := some ⟨.ok, 0, Bits.empty⟩ } ∧
    (∀ i (hi : i < 16), w[i] = s.w[i]) ∧
    (∀ i (hi : i < 64), 16 ≤ i →
      w[i] = w[i - 16] + Ref.smallSigma0 w[i - 15] + w[i - 7] + Ref.smallSigma1 w[i - 2])

/-- Rules R182, R191, SHA.ROUND: the eight assignments from the values before the round, `T` one more; `Sequence` when no round
is pending. -/
def Obligations.CompressionRound : Prop :=
  ∀ s : State, Instr.shaRound.opcode = 0x45#8 ∧
    (64 ≤ s.t → Faults .shaRound s .sequence) ∧
    (∀ ht : s.t < 64,
      let t1 := s.v[7] + Ref.bigSigma1 s.v[4] + Ref.choice s.v[4] s.v[5] s.v[6] + romK[s.t] + s.w[s.t]
      let t2 := Ref.bigSigma0 s.v[0] + Ref.majority s.v[0] s.v[1] s.v[2]
      exec .shaRound s = .next { s with
        v := #v[t1 + t2, s.v[0], s.v[1], s.v[2], s.v[3] + t1, s.v[4], s.v[5], s.v[6]]
        t := s.t + 1, resp := some ⟨.ok, 0, Bits.empty⟩ })

/-- Rule R190: the widths of the untruncated intermediates of a round: every one is at least 32 and at most 35 bits, `t2` at
most 33, and their values are the exact sums. -/
def Obligations.RoundIntermediatesFitIn35Bits : Prop :=
  ∀ (v : Vector Word32 8) (k w : Word32),
    let t1 := roundT1 v k w
    let t2 := roundT2 v
    let e1 := (Bits.ofWord32 v[3]).add t1
    let a1 := t1.add t2
    (32 ≤ t1.len ∧ t1.len ≤ 35 ∧ t1.val ≤ 5 * (2 ^ 32 - 1)) ∧ (32 ≤ t2.len ∧ t2.len ≤ 33) ∧
    (32 ≤ e1.len ∧ e1.len ≤ 35) ∧ (32 ≤ a1.len ∧ a1.len ≤ 35) ∧
    t1.val = v[7].toNat + (Ref.bigSigma1 v[4]).toNat + (Ref.choice v[4] v[5] v[6]).toNat + k.toNat + w.toNat ∧
    t2.val = (Ref.bigSigma0 v[0]).toNat + (Ref.majority v[0] v[1] v[2]).toNat

/-- Rule R183, SHA.UPDATE: each hash register plus its working variable, modulo `2^32`. -/
def Obligations.FoldVariablesIntoHash : Prop :=
  ∀ s : State, Instr.shaUpdate.opcode = 0x46#8 ∧
    exec .shaUpdate s = .next { s with h := Vector.zipWith (· + ·) s.h s.v, resp := some ⟨.ok, 0, Bits.empty⟩ }

/-- Rule R184, SHA.DIGEST: the eight registers' digits, `H[0]` first, 256 bits. -/
def Obligations.DigestIsTheRegistersInOrder : Prop :=
  ∀ (rd : Reg) (s : State), (Instr.shaDigest rd).opcode = 0x47#8 ∧
    ∃ z : Bits, z.digits = s.h.toList.flatMap (fun x => (Bits.ofWord32 x).digits) ∧ z.len = 256 ∧
      WritesReg (.shaDigest rd) s rd z

/-- Rule R185, SHA.BLOCK: the fixed sequence of micro-commands, as one step; `EXHAUSTED` and no change when no block is left. -/
def Obligations.BlockIsTheMicroSequence : Prop :=
  ∀ s : State, Instr.shaBlock.opcode = 0x48#8 ∧
    (s.mb.blen ≤ s.mb.cur → exec .shaBlock s = .next (s.answered .exhausted 0 Bits.empty)) ∧
    (s.mb.cur < s.mb.blen → ∃ t, exec .shaBlock s = .next t ∧
      execAll ([.shaLdblk, .shaExpand, .shaBegin] ++ List.replicate 64 .shaRound ++ [.shaUpdate]) s = .next t ∧
      t.t = 64 ∧ (s.mb.wf = true → t.mb = ⟨s.mb.store, s.mb.cur + 64⟩))

/-- Rules R186, R192, SHA.HASH: PAD, INIT, `floor((n + 8) / 64) + 1` blocks, DIGEST, as one step; after those blocks none is
left. Its two faults are found before anything is written. -/
def Obligations.HashIsTheCommandSequence : Prop :=
  ∀ (rd : Reg) (ma : Slot) (s : State), (s.slot ma).wf = true → (Instr.shaHash rd ma).opcode = 0x49#8 ∧
    let n := (s.slot ma).blen
    let padded := 512 * ((n + 8) / 64 + 1)
    (2 ^ 61 ≤ n → Faults (.shaHash rd ma) s .widthMismatch) ∧
    (n < 2 ^ 61 → ¬ (Room s padded ∧ Room s 256) → Faults (.shaHash rd ma) s .capacity) ∧
    (n < 2 ^ 61 → Room s padded → Room s 256 → ∃ t, exec (.shaHash rd ma) s = .next t ∧
      execAll ([.shaPad ma, .shaInit] ++ List.replicate ((n + 8) / 64 + 1) .shaBlock ++ [.shaDigest rd]) s = .next t ∧
      t.resp = some ⟨.ok, 0, Bits.empty⟩ ∧ t.mb.blen ≤ t.mb.cur ∧ (t.reg rd).len = 256)

/-- Rule R186: the digest depends only on the bytes of the message: two states with the same bytes in the slots named, and
otherwise of any content, give the same digest. -/
def Obligations.HashDependsOnlyOnTheMessage : Prop :=
  ∀ (s s' t t' : State) (rd rd' : Reg) (ma ma' : Slot), (s.slot ma).wf = true →
    (s'.slot ma').store = (s.slot ma).store → exec (.shaHash rd ma) s = .next t → exec (.shaHash rd' ma') s' = .next t' →
    t.resp = some ⟨.ok, 0, Bits.empty⟩ → t'.resp = some ⟨.ok, 0, Bits.empty⟩ → t'.reg rd' = t.reg rd

/-- Rules R176 to R191: SHA.HASH writes SHA-256 of the slot's bytes, as the 32-bit word arithmetic computes it, in every state
whatever its other contents. -/
def Obligations.HashIsSha256OfTheBytes : Prop :=
  ∀ (rd : Reg) (ma : Slot) (s : State), (s.slot ma).wf = true → (s.slot ma).blen < 2 ^ 61 →
    Room s (512 * (((s.slot ma).blen + 8) / 64 + 1)) →
    ∃ t, exec (.shaHash rd ma) s = .next t ∧ t.slots = s.slots ∧
      (t.reg rd).digits = (Ref.sha256 (storeBytes (s.slot ma).store)).digits

/-- Rule R192: the two exchanges that keep the result. -/
def Obligations.ExchangeableStages : Prop :=
  ∀ (s : State) (ma : Slot),
    ((∃ t, exec (.shaPad ma) s = .next t ∧ t.resp = some ⟨.ok, 0, Bits.empty⟩) →
      execAll [.shaPad ma, .shaInit] s = execAll [.shaInit, .shaPad ma] s) ∧
    execAll [.shaExpand, .shaBegin] s = execAll [.shaBegin, .shaExpand] s

/-- Rules R187, R188 and 10_state.md rule R28, SHA.RDR and SHA.WRR: the index space, what is read and what is written, and the
faults in their order. -/
def Obligations.ShaRegisterSpace : Prop :=
  ∀ (r : Reg) (idx : Nat) (s : State), (Instr.shaRdr r idx).opcode = 0x4A#8 ∧ (Instr.shaWrr idx r).opcode = 0x4B#8 ∧
    (∀ h : idx < 8, WritesReg (.shaRdr r idx) s r (Bits.ofWord32 s.h[idx])) ∧
    (∀ h : 8 ≤ idx ∧ idx < 16, WritesReg (.shaRdr r idx) s r (Bits.ofWord32 s.v[idx - 8])) ∧
    (∀ h : 16 ≤ idx ∧ idx < 80, WritesReg (.shaRdr r idx) s r (Bits.ofWord32 s.w[idx - 16])) ∧
    (∀ h : 80 ≤ idx ∧ idx < 144, WritesReg (.shaRdr r idx) s r (Bits.ofWord32 romK[idx - 80])) ∧
    (∀ h : 144 ≤ idx ∧ idx < 152, WritesReg (.shaRdr r idx) s r (Bits.ofWord32 romIV[idx - 144])) ∧
    (152 ≤ idx → Faults (.shaRdr r idx) s .operandDomain) ∧
    (80 ≤ idx → Faults (.shaWrr idx r) s .operandDomain) ∧
    (idx < 80 → (s.reg r).len ≠ 32 → Faults (.shaWrr idx r) s .widthMismatch) ∧
    (∀ x : Word32, s.reg r = Bits.ofWord32 x →
      (∀ h : idx < 8, exec (.shaWrr idx r) s = .next { s with
        h := s.h.set idx x, resp := some ⟨.ok, 0, Bits.empty⟩ }) ∧
      (∀ h : 8 ≤ idx ∧ idx < 16, exec (.shaWrr idx r) s = .next { s with
        v := s.v.set (idx - 8) x, resp := some ⟨.ok, 0, Bits.empty⟩ }) ∧
      (∀ h : 16 ≤ idx ∧ idx < 80, exec (.shaWrr idx r) s = .next { s with
        w := s.w.set (idx - 16) x, resp := some ⟨.ok, 0, Bits.empty⟩ }))

/-! ## System command and host side (43_system_and_host.md) -/

/-- Rule R211 and 10_state.md rule R29, SYS.RDCSR: the value of each listed CSR, no state changes; `OperandDomain` for every
other number. -/
def Obligations.ReadControlRegister : Prop :=
  ∀ (n : Nat) (s : State), (Instr.sysRdcsr n).opcode = 0x02#8 ∧
    exec (.sysRdcsr 0x00) s = .next (s.answered .ok (if s.esticky = true then 1 else 0) Bits.empty) ∧
    exec (.sysRdcsr 0x01) s = .next (s.answered .ok s.t Bits.empty) ∧
    exec (.sysRdcsr 0x02) s = .next (s.answered .ok s.mb.blen Bits.empty) ∧
    exec (.sysRdcsr 0x03) s = .next (s.answered .ok s.mb.cur Bits.empty) ∧
    (∀ j : Slot, exec (.sysRdcsr (0x10 + j.val)) s = .next (s.answered .ok (s.slot j).cur Bits.empty)) ∧
    (∀ j : Slot, exec (.sysRdcsr (0x18 + j.val)) s =
      .next (s.answered .ok (if (s.slot j).order = .little then 1 else 0) Bits.empty)) ∧
    (¬ (n < 0x04 ∨ (0x10 ≤ n ∧ n < 0x14) ∨ (0x18 ≤ n ∧ n < 0x1C)) → Faults (.sysRdcsr n) s .operandDomain)

/-- 30_encoding.md rule R77: the expansion of BS.PARSE loads a bit string of any length into `rd`, which is not the scratch
register, by 64-digit chunks, and changes no other register than the scratch register. -/
def Obligations.ParseLoadsAnyValue : Prop :=
  ∀ (rd : Reg) (x : Bits) (s : State), rd ≠ scratch → Room s x.len →
    ∃ t, execAll (parseCommands rd x) s = .next t ∧ t.reg rd = x ∧
      (∀ r : Reg, r ≠ rd → r ≠ scratch → t.reg r = s.reg r) ∧ State.SameArch { s with regs := t.regs } t

/-- Rules R214, R216, R218, R220: the text forms are inverse to each other, and a text with another character is refused. -/
def Obligations.TextRoundTrips : Prop :=
  (∀ x : Bits, parseStr (strOut x) = .ok x) ∧
  (∀ t : Text, (∃ c ∈ t, c ≠ '0' ∧ c ≠ '1') → parseStr t = .error .malformedValue) ∧
  (∀ t : Text, (∀ c ∈ t, c ∈ lowerHexDigits) → ∃ x, fromHex t = .ok x ∧ x.len = 4 * t.length ∧ hexOut x = .ok t) ∧
  (∀ t : Text, (∃ c ∈ t, c ∉ lowerHexDigits ++ ['A', 'B', 'C', 'D', 'E', 'F']) → fromHex t = .error .malformedValue)
end

