-- ==== Sys2Proof/Laws/Bits.lean ====
section
/-! SUPPORT. What each value-level function of the ALU does, once: its length, its value and its digits. -/

namespace Sys2Proof.Bits

/-! ## Equality -/

/-- Two values are equal exactly when length and unsigned value agree. -/
theorem ext_val {x y : Bits} (hl : x.len = y.len) (hv : x.val = y.val) : x = y := by
  obtain ⟨n, b⟩ := x
  obtain ⟨m, c⟩ := y
  obtain rfl : n = m := hl
  simp only [val] at hv
  rw [BitVec.eq_of_toNat_eq hv]

theorem val_lt (x : Bits) : x.val < 2 ^ x.len := x.bits.isLt

@[simp] theorem length_digits (x : Bits) : x.digits.length = x.len := by simp [digits]

@[simp] theorem getElem_digits (x : Bits) (i : Nat) (h : i < x.digits.length) : x.digits[i] = x.digit i := by
  simp [digits]

/-- A digit read off the value. -/
theorem digit_eq_testBit (x : Bits) (i : Nat) : x.digit i = (decide (i < x.len) && x.val.testBit (x.len - 1 - i)) := by
  simp only [digit, val, BitVec.getMsbD, BitVec.getLsbD]

/-- A bit of the value as a digit. -/
theorem testBit_val (x : Bits) {i : Nat} (h : i < x.len) : x.val.testBit i = x.digit (x.len - 1 - i) := by
  rw [digit_eq_testBit]
  have h1 : x.len - 1 - i < x.len := by omega
  have h2 : x.len - 1 - (x.len - 1 - i) = i := by omega
  simp [h1, h2]

theorem testBit_val_of_le (x : Bits) {i : Nat} (h : x.len ≤ i) : x.val.testBit i = false := by
  exact Nat.testBit_lt_two_pow (lt_of_lt_of_le x.val_lt (Nat.pow_le_pow_right (by omega) h))

/-- Two values are equal exactly when their lengths and all their digits agree. -/
theorem ext_digit {x y : Bits} (hl : x.len = y.len) (hd : ∀ i, i < x.len → x.digit i = y.digit i) : x = y := by
  refine ext_val hl (Nat.eq_of_testBit_eq fun i => ?_)
  by_cases h : i < x.len
  · rw [testBit_val x h, testBit_val y (hl ▸ h), ← hl]
    exact hd _ (by omega)
  · rw [testBit_val_of_le x (by omega), testBit_val_of_le y (by omega)]

/-- Two values are equal exactly when their digit strings are. -/
theorem ext_digits {x y : Bits} (h : x.digits = y.digits) : x = y := by
  have hl : x.len = y.len := by simpa using congrArg List.length h
  refine ext_digit hl fun i hi => ?_
  have := congrArg (fun l => l[i]?) h
  simpa [digits, hi, hl ▸ hi] using this

theorem digits_inj {x y : Bits} : x.digits = y.digits ↔ x = y := ⟨ext_digits, fun h => h ▸ rfl⟩

/-- A digit string is determined by its length and its digits. -/
theorem digits_eq_of {x : Bits} {l : List Bool} (hl : x.len = l.length)
    (hd : ∀ i (h : i < l.length), x.digit i = l[i]) : x.digits = l := by
  refine List.ext_getElem (by simpa using hl) fun i h1 h2 => ?_
  rw [getElem_digits]
  exact hd i h2

/-! ## Empty, zeros, words -/

@[simp] theorem len_empty : empty.len = 0 := rfl
@[simp] theorem val_empty : empty.val = 0 := rfl
@[simp] theorem digits_empty : empty.digits = [] := rfl
@[simp] theorem len_zeros (k : Nat) : (zeros k).len = k := rfl
@[simp] theorem val_zeros (k : Nat) : (zeros k).val = 0 := by simp [zeros, val]
@[simp] theorem digit_zeros (k i : Nat) : (zeros k).digit i = false := by simp [zeros, digit]
@[simp] theorem digits_zeros (k : Nat) : (zeros k).digits = List.replicate k false :=
  digits_eq_of (by simp) (by simp)
@[simp] theorem len_ofWord32 (w : Word32) : (ofWord32 w).len = 32 := rfl
@[simp] theorem bits_ofWord32 (w : Word32) : (ofWord32 w).bits = w := rfl
@[simp] theorem val_ofWord32 (w : Word32) : (ofWord32 w).val = w.toNat := rfl
@[simp] theorem toWord32_ofWord32 (w : Word32) : (ofWord32 w).toWord32 = w := by
  simp [ofWord32, toWord32]

theorem eq_empty_of_len {x : Bits} (h : x.len = 0) : x = empty :=
  ext_digit (by simpa using h) (by omega)

/-- A value of 32 bits is the word it converts to. -/
theorem ofWord32_toWord32 {x : Bits} (h : x.len = 32) : ofWord32 x.toWord32 = x := by
  obtain ⟨n, b⟩ := x
  obtain rfl : n = 32 := h
  simp [toWord32, ofWord32]

theorem toNat_toWord32 (x : Bits) : x.toWord32.toNat = x.val % 2 ^ 32 := by
  simp [toWord32, val]

/-! ## Concatenation and slices -/

@[simp] theorem len_append (x y : Bits) : (x.append y).len = x.len + y.len := rfl

theorem digit_append (x y : Bits) (i : Nat) :
    (x.append y).digit i = if i < x.len then x.digit i else y.digit (i - x.len) := by
  simp only [append, digit, BitVec.getMsbD_append]
  split <;> rename_i h <;> simp_all

@[simp] theorem digits_append (x y : Bits) : (x.append y).digits = x.digits ++ y.digits := by
  refine digits_eq_of (by simp) fun i h => ?_
  rw [digit_append, List.getElem_append]
  simp

theorem val_append (x y : Bits) : (x.append y).val = x.val * 2 ^ y.len + y.val := by
  simp only [append, val, BitVec.toNat_append]
  rw [← Nat.shiftLeft_add_eq_or_of_lt y.bits.isLt, Nat.shiftLeft_eq]

@[simp] theorem append_empty (x : Bits) : x.append empty = x := ext_digits (by simp)
@[simp] theorem empty_append (x : Bits) : empty.append x = x := ext_digits (by simp)
theorem append_assoc (x y z : Bits) : (x.append y).append z = x.append (y.append z) := ext_digits (by simp)

@[simp] theorem len_slice (x : Bits) (lo hi : Nat) : (x.slice lo hi).len = hi - lo := rfl

theorem digit_slice (x : Bits) {lo hi : Nat} (h : hi ≤ x.len) {i : Nat} (hi' : i < hi - lo) :
    (x.slice lo hi).digit i = x.digit (lo + i) := by
  simp only [slice, digit, BitVec.getMsbD, BitVec.getLsbD_extractLsb']
  have h1 : hi - lo - 1 - i < hi - lo := by omega
  have h2 : lo + i < x.len := by omega
  have h3 : x.len - hi + (hi - lo - 1 - i) = x.len - 1 - (lo + i) := by omega
  simp [hi', h1, h2, h3]

theorem digits_slice (x : Bits) {lo hi : Nat} (h : hi ≤ x.len) :
    (x.slice lo hi).digits = (x.digits.drop lo).take (hi - lo) := by
  refine digits_eq_of (by simp; omega) fun i hi' => ?_
  have : i < hi - lo := by simp at hi'; omega
  rw [digit_slice x h this]
  simp

theorem val_slice (x : Bits) (lo hi : Nat) : (x.slice lo hi).val = x.val / 2 ^ (x.len - hi) % 2 ^ (hi - lo) := by
  simp [slice, val, BitVec.extractLsb'_toNat, Nat.shiftRight_eq_div_pow]

@[simp] theorem slice_full (x : Bits) : x.slice 0 x.len = x :=
  ext_digits (by rw [digits_slice x le_rfl]; simp [List.take_of_length_le])

/-! ## Numerals (rule R8) -/

theorem len_bin (n : Nat) : (bin n).len = if n = 0 then 1 else n.log2 + 1 := by
  unfold bin; split <;> rfl

theorem val_bin (n : Nat) : (bin n).val = n := by
  unfold bin
  split
  · rename_i h; subst h; rfl
  · simp only [val, BitVec.toNat_ofNat]
    exact Nat.mod_eq_of_lt Nat.lt_log2_self

/-- The numeral of `n` has at most `w` digits exactly when `n` fits, for `w ≥ 1`. -/
theorem len_bin_le_iff {n w : Nat} (hw : 0 < w) : (bin n).len ≤ w ↔ n < 2 ^ w := by
  rw [len_bin]
  split
  · rename_i h; subst h; simp; omega
  · rename_i h
    rw [← Nat.log2_lt h]; omega

theorem len_zfill (x : Bits) (w : Nat) : (x.zfill w).len = max w x.len := by
  unfold zfill; split <;> simp <;> omega

theorem val_zfill (x : Bits) (w : Nat) : (x.zfill w).val = x.val := by
  unfold zfill; split <;> simp [val_append]

theorem digits_zfill (x : Bits) (w : Nat) : (x.zfill w).digits = Machine.padLeft w x.digits := by
  unfold zfill Machine.padLeft
  split
  · rename_i h
    have : w - x.len = 0 := by omega
    simp [this]
  · simp

theorem len_fromInt (n z : Nat) : (fromInt n z).len = max z (if n = 0 then 1 else n.log2 + 1) := by
  rw [fromInt, len_zfill, len_bin]

@[simp] theorem val_fromInt (n z : Nat) : (fromInt n z).val = n := by
  rw [fromInt, val_zfill, val_bin]

/-- A number that fits in `z ≥ 1` bits is rendered in exactly `z`. -/
theorem len_fromInt_of_lt {n z : Nat} (hz : 0 < z) (h : n < 2 ^ z) : (fromInt n z).len = z := by
  rw [fromInt, len_zfill]
  have := (len_bin_le_iff hz).2 h
  omega

/-- `BS.LDI` of a value's own integer and length gives the value back (rule R77's last remark). -/
theorem fromInt_val_len {x : Bits} (h : 0 < x.len) : fromInt x.val x.len = x :=
  ext_val (len_fromInt_of_lt h x.val_lt) (by simp)

/-! ## Arithmetic (rules R108, R109, R117) -/

@[simp] theorem val_add (x y : Bits) : (x.add y).val = x.val + y.val := by simp [add]

@[simp] theorem val_addi (x : Bits) (n : Nat) : (x.addi n).val = x.val + n := by simp [addi]

theorem le_len_add_left (x y : Bits) : x.len ≤ (x.add y).len := by
  rw [add, fromInt, len_zfill]; omega

theorem le_len_add_right (x y : Bits) : y.len ≤ (x.add y).len := by
  rw [add, fromInt, len_zfill]; omega

theorem len_add_le (x y : Bits) (w : Nat) (hx : x.len ≤ w) (hy : y.len ≤ w) (hw : 0 < w)
    (hv : x.val + y.val < 2 ^ w) : (x.add y).len ≤ w := by
  rw [add, fromInt, len_zfill]
  have := (len_bin_le_iff hw).2 hv
  omega

theorem len_mod (x : Bits) (d : Nat) : (x.mod d).len = min x.len d := by
  unfold mod; split <;> simp <;> omega

theorem digits_mod (x : Bits) (d : Nat) : (x.mod d).digits = x.digits.drop (x.len - d) := by
  unfold mod
  split
  · rename_i h
    have : x.len - d = 0 := by omega
    simp [this]
  · rw [digits_slice x le_rfl]
    apply List.take_of_length_le
    simp

theorem val_mod (x : Bits) (d : Nat) : (x.mod d).val = x.val % 2 ^ d := by
  unfold mod
  split
  · rename_i h
    exact (Nat.mod_eq_of_lt (lt_of_lt_of_le x.val_lt (Nat.pow_le_pow_right (by omega) h))).symm
  · rename_i h
    rw [val_slice]
    have h1 : x.len - x.len = 0 := by omega
    have h2 : x.len - (x.len - d) = d := by omega
    simp [h2]

/-! ## Logic (rules R110 to R113) -/

@[simp] theorem len_and (x y : Bits) : (x.and y).len = max x.len y.len := rfl
@[simp] theorem len_or (x y : Bits) : (x.or y).len = max x.len y.len := rfl
@[simp] theorem len_xor (x y : Bits) : (x.xor y).len = max x.len y.len := rfl
@[simp] theorem len_not (x : Bits) : x.not.len = x.len := rfl

theorem toNat_setWidth_of_le (x : Bits) {w : Nat} (h : x.len ≤ w) : (x.bits.setWidth w).toNat = x.val := by
  rw [BitVec.toNat_setWidth]
  exact Nat.mod_eq_of_lt (lt_of_lt_of_le x.val_lt (Nat.pow_le_pow_right (by omega) h))

theorem val_and (x y : Bits) : (x.and y).val = x.val &&& y.val := by
  simp only [and, val, BitVec.toNat_and]
  rw [toNat_setWidth_of_le x (le_max_left _ _), toNat_setWidth_of_le y (le_max_right _ _)]; rfl

theorem val_or (x y : Bits) : (x.or y).val = x.val ||| y.val := by
  simp only [or, val, BitVec.toNat_or]
  rw [toNat_setWidth_of_le x (le_max_left _ _), toNat_setWidth_of_le y (le_max_right _ _)]; rfl

theorem val_xor (x y : Bits) : (x.xor y).val = x.val ^^^ y.val := by
  simp only [xor, val, BitVec.toNat_xor]
  rw [toNat_setWidth_of_le x (le_max_left _ _), toNat_setWidth_of_le y (le_max_right _ _)]; rfl

theorem val_not (x : Bits) : x.not.val = 2 ^ x.len - 1 - x.val := by
  simp only [not, val, BitVec.toNat_not]

theorem digits_not (x : Bits) : x.not.digits = x.digits.map Bool.not := by
  refine digits_eq_of (by simp) fun i h => ?_
  have : i < x.len := by simpa using h
  simp [digit, not, this]

/-- A digit of the zero-extended operand. -/
theorem getElem_padLeft (x : Bits) {w i : Nat} (hx : x.len ≤ w) (h : i < (Machine.padLeft w x.digits).length) :
    (Machine.padLeft w x.digits)[i] = (decide (i < w) && x.val.testBit (w - 1 - i)) := by
  have hw : (Machine.padLeft w x.digits).length = w := by simp [Machine.padLeft]; omega
  have hi : i < w := by omega
  simp only [Machine.padLeft, List.getElem_append, List.length_replicate, length_digits, hi, decide_true, Bool.true_and]
  split
  · rename_i hlt
    rw [List.getElem_replicate, testBit_val_of_le]
    omega
  · rename_i hge
    rw [getElem_digits, testBit_val x (by omega)]
    congr 1; omega

theorem length_padLeft (x : Bits) {w : Nat} (hx : x.len ≤ w) : (Machine.padLeft w x.digits).length = w := by
  simp [Machine.padLeft]; omega

theorem digits_zipped (f : Bool → Bool → Bool) (x y z : Bits) (hl : z.len = max x.len y.len)
    (hv : ∀ i, z.val.testBit i = f (x.val.testBit i) (y.val.testBit i)) :
    z.digits = List.zipWith f (Machine.padLeft (max x.len y.len) x.digits) (Machine.padLeft (max x.len y.len) y.digits) := by
  have hx := length_padLeft x (le_max_left x.len y.len)
  have hy := length_padLeft y (le_max_right x.len y.len)
  refine digits_eq_of (by simp [hx, hy, hl]) fun i h => ?_
  have hi : i < max x.len y.len := by simpa [hx, hy] using h
  rw [List.getElem_zipWith, getElem_padLeft x (le_max_left _ _), getElem_padLeft y (le_max_right _ _), digit_eq_testBit, hl, hv]
  simp [hi]

theorem digits_and (x y : Bits) : (x.and y).digits =
    List.zipWith (· && ·) (Machine.padLeft (max x.len y.len) x.digits) (Machine.padLeft (max x.len y.len) y.digits) :=
  digits_zipped _ x y _ rfl fun i => by rw [val_and, Nat.testBit_and]

theorem digits_or (x y : Bits) : (x.or y).digits =
    List.zipWith (· || ·) (Machine.padLeft (max x.len y.len) x.digits) (Machine.padLeft (max x.len y.len) y.digits) :=
  digits_zipped _ x y _ rfl fun i => by rw [val_or, Nat.testBit_or]

theorem digits_xor (x y : Bits) : (x.xor y).digits =
    List.zipWith Bool.xor (Machine.padLeft (max x.len y.len) x.digits) (Machine.padLeft (max x.len y.len) y.digits) :=
  digits_zipped _ x y _ rfl fun i => by rw [val_xor, Nat.testBit_xor]

/-! ## Shift and rotations (rules R114 to R116) -/

theorem digits_shr (x : Bits) (n : Nat) :
    (x.shr n).digits = List.replicate (min n x.len) false ++ x.digits.take (x.len - n) := by
  unfold shr
  split
  · rename_i h
    have h1 : min n x.len = x.len := by omega
    have h2 : x.len - n = 0 := by omega
    simp [h1, h2]
  · rename_i h
    have h1 : min n x.len = n := by omega
    rw [digits_append, digits_slice x (by omega)]
    simp [h1]

@[simp] theorem len_shr (x : Bits) (n : Nat) : (x.shr n).len = x.len := by
  unfold shr; split
  · simp
  · simp; omega

theorem val_shr (x : Bits) (n : Nat) : (x.shr n).val = x.val / 2 ^ n := by
  unfold shr
  split
  · rename_i h
    rw [val_zeros, Nat.div_eq_of_lt (lt_of_lt_of_le x.val_lt (Nat.pow_le_pow_right (by omega) h))]
  · rename_i h
    rw [val_append, val_slice]
    have h1 : x.len - (x.len - n) = n := by omega
    simp only [val_zeros, zero_mul, zero_add, h1, Nat.sub_zero]
    apply Nat.mod_eq_of_lt
    rw [Nat.div_lt_iff_lt_mul (by positivity), ← pow_add]
    have : x.len - n + n = x.len := by omega
    rw [this]; exact x.val_lt

theorem rotAmount_le {len n : Nat} (h : 0 < len) : rotAmount len n ≤ len := by
  unfold rotAmount
  split
  · exact le_of_lt (Nat.mod_lt _ h)
  · omega

theorem rotAmount_mod (len n : Nat) : rotAmount len n % len = n % len := by
  unfold rotAmount; split <;> simp

theorem digits_rotl (x : Bits) (n : Nat) : (x.rotl n).digits = x.digits.rotate n := by
  unfold rotl
  split
  · rename_i h
    have : x = empty := eq_empty_of_len h
    subst this; simp
  · rename_i h
    have hle := rotAmount_le (n := n) (Nat.pos_of_ne_zero h)
    rw [digits_append, digits_slice x le_rfl, digits_slice x hle, ← List.rotate_mod, length_digits, ← rotAmount_mod,
      ← length_digits, List.rotate_mod, List.rotate_eq_drop_append_take (by simpa using hle)]
    congr 1
    apply List.take_of_length_le; simp

theorem digits_rotr (x : Bits) (n : Nat) : (x.rotr n).digits = x.digits.rotate (x.len - n % x.len) := by
  unfold rotr
  split
  · rename_i h
    have : x = empty := eq_empty_of_len h
    subst this; simp
  · rename_i h
    have hpos : 0 < x.len := Nat.pos_of_ne_zero h
    have hle := rotAmount_le (n := n) hpos
    rw [digits_append, digits_slice x le_rfl, digits_slice x (by omega)]
    have hm := rotAmount_mod x.len n
    have key : (x.len - rotAmount x.len n) % x.len = (x.len - n % x.len) % x.len := by
      rcases Nat.lt_or_ge (rotAmount x.len n) x.len with hlt | hge
      · rw [← hm, Nat.mod_eq_of_lt hlt]
      · have h1 : rotAmount x.len n = x.len := by omega
        rw [← hm, h1]; simp
    rw [← List.rotate_mod, length_digits, ← key, ← length_digits, List.rotate_mod, length_digits,
      List.rotate_eq_drop_append_take (by simp)]
    congr 1
    apply List.take_of_length_le; simp

@[simp] theorem len_rotl (x : Bits) (n : Nat) : (x.rotl n).len = x.len := by
  rw [← length_digits, digits_rotl]; simp

@[simp] theorem len_rotr (x : Bits) (n : Nat) : (x.rotr n).len = x.len := by
  rw [← length_digits, digits_rotr]; simp

/-! ## Byte reversal (rule R10) -/

theorem len_byterevFirst (x : Bits) (k : Nat) : (x.byterevFirst k).len = 8 * k := by
  induction k with
  | zero => rfl
  | succ k ih => rw [byterevFirst, len_append, len_slice, ih]; omega

theorem len_byterev {x : Bits} (h : x.len % 8 = 0) : x.byterev.len = x.len := by
  rw [byterev, len_byterevFirst]; omega

end Sys2Proof.Bits
end

