-- ==== Sys2Proof/Laws/State.lean ====
section
/-! SUPPORT. One lemma per field per update of State, true by definition, so that no later proof unfolds a record update. -/

namespace Sys2Proof.Machine

/-! ## setReg -/

@[simp] theorem State.setReg_regs (s : State) (r : Reg) (x : Bits) :
    (s.setReg r x).regs = s.regs.set r.val x := rfl
@[simp] theorem State.setReg_slots (s : State) (r : Reg) (x : Bits) :
    (s.setReg r x).slots = s.slots := rfl
@[simp] theorem State.setReg_mb (s : State) (r : Reg) (x : Bits) :
    (s.setReg r x).mb = s.mb := rfl
@[simp] theorem State.setReg_h (s : State) (r : Reg) (x : Bits) :
    (s.setReg r x).h = s.h := rfl
@[simp] theorem State.setReg_v (s : State) (r : Reg) (x : Bits) :
    (s.setReg r x).v = s.v := rfl
@[simp] theorem State.setReg_w (s : State) (r : Reg) (x : Bits) :
    (s.setReg r x).w = s.w := rfl
@[simp] theorem State.setReg_t (s : State) (r : Reg) (x : Bits) :
    (s.setReg r x).t = s.t := rfl
@[simp] theorem State.setReg_esticky (s : State) (r : Reg) (x : Bits) :
    (s.setReg r x).esticky = s.esticky := rfl
@[simp] theorem State.setReg_maxw (s : State) (r : Reg) (x : Bits) :
    (s.setReg r x).maxw = s.maxw := rfl
@[simp] theorem State.setReg_port (s : State) (r : Reg) (x : Bits) :
    (s.setReg r x).port = s.port := rfl
@[simp] theorem State.setReg_resp (s : State) (r : Reg) (x : Bits) :
    (s.setReg r x).resp = s.resp := rfl

/-! ## setSlot -/

@[simp] theorem State.setSlot_regs (s : State) (j : Slot) (b : ByteBuffer) :
    (s.setSlot j b).regs = s.regs := rfl
@[simp] theorem State.setSlot_slots (s : State) (j : Slot) (b : ByteBuffer) :
    (s.setSlot j b).slots = s.slots.set j.val b := rfl
@[simp] theorem State.setSlot_mb (s : State) (j : Slot) (b : ByteBuffer) :
    (s.setSlot j b).mb = s.mb := rfl
@[simp] theorem State.setSlot_h (s : State) (j : Slot) (b : ByteBuffer) :
    (s.setSlot j b).h = s.h := rfl
@[simp] theorem State.setSlot_v (s : State) (j : Slot) (b : ByteBuffer) :
    (s.setSlot j b).v = s.v := rfl
@[simp] theorem State.setSlot_w (s : State) (j : Slot) (b : ByteBuffer) :
    (s.setSlot j b).w = s.w := rfl
@[simp] theorem State.setSlot_t (s : State) (j : Slot) (b : ByteBuffer) :
    (s.setSlot j b).t = s.t := rfl
@[simp] theorem State.setSlot_esticky (s : State) (j : Slot) (b : ByteBuffer) :
    (s.setSlot j b).esticky = s.esticky := rfl
@[simp] theorem State.setSlot_maxw (s : State) (j : Slot) (b : ByteBuffer) :
    (s.setSlot j b).maxw = s.maxw := rfl
@[simp] theorem State.setSlot_port (s : State) (j : Slot) (b : ByteBuffer) :
    (s.setSlot j b).port = s.port := rfl
@[simp] theorem State.setSlot_resp (s : State) (j : Slot) (b : ByteBuffer) :
    (s.setSlot j b).resp = s.resp := rfl

/-! ## respond -/

@[simp] theorem State.respond_regs (s : State) (st : Status) (n : Nat) (x : Bits) :
    (s.respond st n x).regs = s.regs := rfl
@[simp] theorem State.respond_slots (s : State) (st : Status) (n : Nat) (x : Bits) :
    (s.respond st n x).slots = s.slots := rfl
@[simp] theorem State.respond_mb (s : State) (st : Status) (n : Nat) (x : Bits) :
    (s.respond st n x).mb = s.mb := rfl
@[simp] theorem State.respond_h (s : State) (st : Status) (n : Nat) (x : Bits) :
    (s.respond st n x).h = s.h := rfl
@[simp] theorem State.respond_v (s : State) (st : Status) (n : Nat) (x : Bits) :
    (s.respond st n x).v = s.v := rfl
@[simp] theorem State.respond_w (s : State) (st : Status) (n : Nat) (x : Bits) :
    (s.respond st n x).w = s.w := rfl
@[simp] theorem State.respond_t (s : State) (st : Status) (n : Nat) (x : Bits) :
    (s.respond st n x).t = s.t := rfl
@[simp] theorem State.respond_esticky (s : State) (st : Status) (n : Nat) (x : Bits) :
    (s.respond st n x).esticky = estickyAfter s.esticky st := rfl
@[simp] theorem State.respond_maxw (s : State) (st : Status) (n : Nat) (x : Bits) :
    (s.respond st n x).maxw = s.maxw := rfl
@[simp] theorem State.respond_port (s : State) (st : Status) (n : Nat) (x : Bits) :
    (s.respond st n x).port = s.port := rfl
@[simp] theorem State.respond_resp (s : State) (st : Status) (n : Nat) (x : Bits) :
    (s.respond st n x).resp = some ⟨st, n, x⟩ := rfl

/-! ## done -/

@[simp] theorem State.done_regs (s : State) :
    (s.done).regs = s.regs := rfl
@[simp] theorem State.done_slots (s : State) :
    (s.done).slots = s.slots := rfl
@[simp] theorem State.done_mb (s : State) :
    (s.done).mb = s.mb := rfl
@[simp] theorem State.done_h (s : State) :
    (s.done).h = s.h := rfl
@[simp] theorem State.done_v (s : State) :
    (s.done).v = s.v := rfl
@[simp] theorem State.done_w (s : State) :
    (s.done).w = s.w := rfl
@[simp] theorem State.done_t (s : State) :
    (s.done).t = s.t := rfl
@[simp] theorem State.done_esticky (s : State) : (s.done).esticky = s.esticky := by
  simp [State.done, State.respond, estickyAfter, Status.isError]
@[simp] theorem State.done_maxw (s : State) :
    (s.done).maxw = s.maxw := rfl
@[simp] theorem State.done_port (s : State) :
    (s.done).port = s.port := rfl
@[simp] theorem State.done_resp (s : State) :
    (s.done).resp = some ⟨.ok, 0, Bits.empty⟩ := rfl

/-! ## raise -/

@[simp] theorem State.raise_regs (s : State) (st : Status) :
    (s.raise st).regs = s.regs := rfl
@[simp] theorem State.raise_slots (s : State) (st : Status) :
    (s.raise st).slots = s.slots := rfl
@[simp] theorem State.raise_mb (s : State) (st : Status) :
    (s.raise st).mb = s.mb := rfl
@[simp] theorem State.raise_h (s : State) (st : Status) :
    (s.raise st).h = s.h := rfl
@[simp] theorem State.raise_v (s : State) (st : Status) :
    (s.raise st).v = s.v := rfl
@[simp] theorem State.raise_w (s : State) (st : Status) :
    (s.raise st).w = s.w := rfl
@[simp] theorem State.raise_t (s : State) (st : Status) :
    (s.raise st).t = s.t := rfl
@[simp] theorem State.raise_esticky (s : State) (st : Status) :
    (s.raise st).esticky = estickyAfter s.esticky st := rfl
@[simp] theorem State.raise_maxw (s : State) (st : Status) :
    (s.raise st).maxw = s.maxw := rfl
@[simp] theorem State.raise_port (s : State) (st : Status) :
    (s.raise st).port = s.port := rfl
@[simp] theorem State.raise_resp (s : State) (st : Status) :
    (s.raise st).resp = some ⟨st, 0, Bits.empty⟩ := rfl

/-! ## wrote -/

@[simp] theorem State.wrote_regs (s : State) (r : Reg) (x : Bits) :
    (s.wrote r x).regs = s.regs.set r.val x := rfl
@[simp] theorem State.wrote_slots (s : State) (r : Reg) (x : Bits) :
    (s.wrote r x).slots = s.slots := rfl
@[simp] theorem State.wrote_mb (s : State) (r : Reg) (x : Bits) :
    (s.wrote r x).mb = s.mb := rfl
@[simp] theorem State.wrote_h (s : State) (r : Reg) (x : Bits) :
    (s.wrote r x).h = s.h := rfl
@[simp] theorem State.wrote_v (s : State) (r : Reg) (x : Bits) :
    (s.wrote r x).v = s.v := rfl
@[simp] theorem State.wrote_w (s : State) (r : Reg) (x : Bits) :
    (s.wrote r x).w = s.w := rfl
@[simp] theorem State.wrote_t (s : State) (r : Reg) (x : Bits) :
    (s.wrote r x).t = s.t := rfl
@[simp] theorem State.wrote_esticky (s : State) (r : Reg) (x : Bits) :
    (s.wrote r x).esticky = s.esticky := rfl
@[simp] theorem State.wrote_maxw (s : State) (r : Reg) (x : Bits) :
    (s.wrote r x).maxw = s.maxw := rfl
@[simp] theorem State.wrote_port (s : State) (r : Reg) (x : Bits) :
    (s.wrote r x).port = s.port := rfl
@[simp] theorem State.wrote_resp (s : State) (r : Reg) (x : Bits) :
    (s.wrote r x).resp = some ⟨.ok, 0, Bits.empty⟩ := rfl

/-! ## stored -/

@[simp] theorem State.stored_regs (s : State) (j : Slot) (b : ByteBuffer) :
    (s.stored j b).regs = s.regs := rfl
@[simp] theorem State.stored_slots (s : State) (j : Slot) (b : ByteBuffer) :
    (s.stored j b).slots = s.slots.set j.val b := rfl
@[simp] theorem State.stored_mb (s : State) (j : Slot) (b : ByteBuffer) :
    (s.stored j b).mb = s.mb := rfl
@[simp] theorem State.stored_h (s : State) (j : Slot) (b : ByteBuffer) :
    (s.stored j b).h = s.h := rfl
@[simp] theorem State.stored_v (s : State) (j : Slot) (b : ByteBuffer) :
    (s.stored j b).v = s.v := rfl
@[simp] theorem State.stored_w (s : State) (j : Slot) (b : ByteBuffer) :
    (s.stored j b).w = s.w := rfl
@[simp] theorem State.stored_t (s : State) (j : Slot) (b : ByteBuffer) :
    (s.stored j b).t = s.t := rfl
@[simp] theorem State.stored_esticky (s : State) (j : Slot) (b : ByteBuffer) :
    (s.stored j b).esticky = s.esticky := rfl
@[simp] theorem State.stored_maxw (s : State) (j : Slot) (b : ByteBuffer) :
    (s.stored j b).maxw = s.maxw := rfl
@[simp] theorem State.stored_port (s : State) (j : Slot) (b : ByteBuffer) :
    (s.stored j b).port = s.port := rfl
@[simp] theorem State.stored_resp (s : State) (j : Slot) (b : ByteBuffer) :
    (s.stored j b).resp = some ⟨.ok, 0, Bits.empty⟩ := rfl

/-! ## answered -/

@[simp] theorem State.answered_regs (s : State) (st : Status) (n : Nat) (x : Bits) :
    (s.answered st n x).regs = s.regs := rfl
@[simp] theorem State.answered_slots (s : State) (st : Status) (n : Nat) (x : Bits) :
    (s.answered st n x).slots = s.slots := rfl
@[simp] theorem State.answered_mb (s : State) (st : Status) (n : Nat) (x : Bits) :
    (s.answered st n x).mb = s.mb := rfl
@[simp] theorem State.answered_h (s : State) (st : Status) (n : Nat) (x : Bits) :
    (s.answered st n x).h = s.h := rfl
@[simp] theorem State.answered_v (s : State) (st : Status) (n : Nat) (x : Bits) :
    (s.answered st n x).v = s.v := rfl
@[simp] theorem State.answered_w (s : State) (st : Status) (n : Nat) (x : Bits) :
    (s.answered st n x).w = s.w := rfl
@[simp] theorem State.answered_t (s : State) (st : Status) (n : Nat) (x : Bits) :
    (s.answered st n x).t = s.t := rfl
@[simp] theorem State.answered_esticky (s : State) (st : Status) (n : Nat) (x : Bits) :
    (s.answered st n x).esticky = s.esticky := rfl
@[simp] theorem State.answered_maxw (s : State) (st : Status) (n : Nat) (x : Bits) :
    (s.answered st n x).maxw = s.maxw := rfl
@[simp] theorem State.answered_port (s : State) (st : Status) (n : Nat) (x : Bits) :
    (s.answered st n x).port = s.port := rfl
@[simp] theorem State.answered_resp (s : State) (st : Status) (n : Nat) (x : Bits) :
    (s.answered st n x).resp = some ⟨st, n, x⟩ := rfl

/-! ## faulted -/

@[simp] theorem State.faulted_regs (s : State) (st : Status) :
    (s.faulted st).regs = s.regs := rfl
@[simp] theorem State.faulted_slots (s : State) (st : Status) :
    (s.faulted st).slots = s.slots := rfl
@[simp] theorem State.faulted_mb (s : State) (st : Status) :
    (s.faulted st).mb = s.mb := rfl
@[simp] theorem State.faulted_h (s : State) (st : Status) :
    (s.faulted st).h = s.h := rfl
@[simp] theorem State.faulted_v (s : State) (st : Status) :
    (s.faulted st).v = s.v := rfl
@[simp] theorem State.faulted_w (s : State) (st : Status) :
    (s.faulted st).w = s.w := rfl
@[simp] theorem State.faulted_t (s : State) (st : Status) :
    (s.faulted st).t = s.t := rfl
@[simp] theorem State.faulted_esticky (s : State) (st : Status) :
    (s.faulted st).esticky = true := rfl
@[simp] theorem State.faulted_maxw (s : State) (st : Status) :
    (s.faulted st).maxw = s.maxw := rfl
@[simp] theorem State.faulted_port (s : State) (st : Status) :
    (s.faulted st).port = s.port := rfl
@[simp] theorem State.faulted_resp (s : State) (st : Status) :
    (s.faulted st).resp = some ⟨st, 0, Bits.empty⟩ := rfl

/-! ## stageInit -/

@[simp] theorem stageInit_regs (s : State) :
    (stageInit s).regs = s.regs := by
  unfold stageInit; rfl
@[simp] theorem stageInit_slots (s : State) :
    (stageInit s).slots = s.slots := by
  unfold stageInit; rfl
@[simp] theorem stageInit_mb (s : State) :
    (stageInit s).mb = s.mb := by
  unfold stageInit; rfl
@[simp] theorem stageInit_h (s : State) :
    (stageInit s).h = romIV := by
  unfold stageInit; rfl
@[simp] theorem stageInit_v (s : State) :
    (stageInit s).v = s.v := by
  unfold stageInit; rfl
@[simp] theorem stageInit_w (s : State) :
    (stageInit s).w = s.w := by
  unfold stageInit; rfl
@[simp] theorem stageInit_t (s : State) :
    (stageInit s).t = s.t := by
  unfold stageInit; rfl
@[simp] theorem stageInit_esticky (s : State) :
    (stageInit s).esticky = s.esticky := by
  unfold stageInit; rfl
@[simp] theorem stageInit_maxw (s : State) :
    (stageInit s).maxw = s.maxw := by
  unfold stageInit; rfl
@[simp] theorem stageInit_port (s : State) :
    (stageInit s).port = s.port := by
  unfold stageInit; rfl
@[simp] theorem stageInit_resp (s : State) :
    (stageInit s).resp = s.resp := by
  unfold stageInit; rfl

/-! ## stagePad -/

@[simp] theorem stagePad_regs (ma : Slot) (s : State) :
    (stagePad ma s).regs = s.regs := by
  unfold stagePad; rfl
@[simp] theorem stagePad_slots (ma : Slot) (s : State) :
    (stagePad ma s).slots = s.slots := by
  unfold stagePad; rfl
@[simp] theorem stagePad_mb (ma : Slot) (s : State) :
    (stagePad ma s).mb = ⟨padding (s.slot ma).store, 0⟩ := by
  unfold stagePad; rfl
@[simp] theorem stagePad_h (ma : Slot) (s : State) :
    (stagePad ma s).h = s.h := by
  unfold stagePad; rfl
@[simp] theorem stagePad_v (ma : Slot) (s : State) :
    (stagePad ma s).v = s.v := by
  unfold stagePad; rfl
@[simp] theorem stagePad_w (ma : Slot) (s : State) :
    (stagePad ma s).w = s.w := by
  unfold stagePad; rfl
@[simp] theorem stagePad_t (ma : Slot) (s : State) :
    (stagePad ma s).t = s.t := by
  unfold stagePad; rfl
@[simp] theorem stagePad_esticky (ma : Slot) (s : State) :
    (stagePad ma s).esticky = s.esticky := by
  unfold stagePad; rfl
@[simp] theorem stagePad_maxw (ma : Slot) (s : State) :
    (stagePad ma s).maxw = s.maxw := by
  unfold stagePad; rfl
@[simp] theorem stagePad_port (ma : Slot) (s : State) :
    (stagePad ma s).port = s.port := by
  unfold stagePad; rfl
@[simp] theorem stagePad_resp (ma : Slot) (s : State) :
    (stagePad ma s).resp = s.resp := by
  unfold stagePad; rfl

/-! ## stageLoad -/

@[simp] theorem stageLoad_regs (s : State) :
    (stageLoad s).regs = s.regs := by
  unfold stageLoad; rfl
@[simp] theorem stageLoad_slots (s : State) :
    (stageLoad s).slots = s.slots := by
  unfold stageLoad; rfl
@[simp] theorem stageLoad_mb (s : State) :
    (stageLoad s).mb = (loadWords 16 0 (s.mb, s.w)).1 := by
  unfold stageLoad; rfl
@[simp] theorem stageLoad_h (s : State) :
    (stageLoad s).h = s.h := by
  unfold stageLoad; rfl
@[simp] theorem stageLoad_v (s : State) :
    (stageLoad s).v = s.v := by
  unfold stageLoad; rfl
@[simp] theorem stageLoad_w (s : State) :
    (stageLoad s).w = (loadWords 16 0 (s.mb, s.w)).2 := by
  unfold stageLoad; rfl
@[simp] theorem stageLoad_t (s : State) :
    (stageLoad s).t = s.t := by
  unfold stageLoad; rfl
@[simp] theorem stageLoad_esticky (s : State) :
    (stageLoad s).esticky = s.esticky := by
  unfold stageLoad; rfl
@[simp] theorem stageLoad_maxw (s : State) :
    (stageLoad s).maxw = s.maxw := by
  unfold stageLoad; rfl
@[simp] theorem stageLoad_port (s : State) :
    (stageLoad s).port = s.port := by
  unfold stageLoad; rfl
@[simp] theorem stageLoad_resp (s : State) :
    (stageLoad s).resp = s.resp := by
  unfold stageLoad; rfl

/-! ## stageExpand -/

@[simp] theorem stageExpand_regs (s : State) :
    (stageExpand s).regs = s.regs := by
  unfold stageExpand; rfl
@[simp] theorem stageExpand_slots (s : State) :
    (stageExpand s).slots = s.slots := by
  unfold stageExpand; rfl
@[simp] theorem stageExpand_mb (s : State) :
    (stageExpand s).mb = s.mb := by
  unfold stageExpand; rfl
@[simp] theorem stageExpand_h (s : State) :
    (stageExpand s).h = s.h := by
  unfold stageExpand; rfl
@[simp] theorem stageExpand_v (s : State) :
    (stageExpand s).v = s.v := by
  unfold stageExpand; rfl
@[simp] theorem stageExpand_w (s : State) :
    (stageExpand s).w = expandFrom 48 16 s.w := by
  unfold stageExpand; rfl
@[simp] theorem stageExpand_t (s : State) :
    (stageExpand s).t = s.t := by
  unfold stageExpand; rfl
@[simp] theorem stageExpand_esticky (s : State) :
    (stageExpand s).esticky = s.esticky := by
  unfold stageExpand; rfl
@[simp] theorem stageExpand_maxw (s : State) :
    (stageExpand s).maxw = s.maxw := by
  unfold stageExpand; rfl
@[simp] theorem stageExpand_port (s : State) :
    (stageExpand s).port = s.port := by
  unfold stageExpand; rfl
@[simp] theorem stageExpand_resp (s : State) :
    (stageExpand s).resp = s.resp := by
  unfold stageExpand; rfl

/-! ## stageBegin -/

@[simp] theorem stageBegin_regs (s : State) :
    (stageBegin s).regs = s.regs := by
  unfold stageBegin; rfl
@[simp] theorem stageBegin_slots (s : State) :
    (stageBegin s).slots = s.slots := by
  unfold stageBegin; rfl
@[simp] theorem stageBegin_mb (s : State) :
    (stageBegin s).mb = s.mb := by
  unfold stageBegin; rfl
@[simp] theorem stageBegin_h (s : State) :
    (stageBegin s).h = s.h := by
  unfold stageBegin; rfl
@[simp] theorem stageBegin_v (s : State) :
    (stageBegin s).v = s.h := by
  unfold stageBegin; rfl
@[simp] theorem stageBegin_w (s : State) :
    (stageBegin s).w = s.w := by
  unfold stageBegin; rfl
@[simp] theorem stageBegin_t (s : State) :
    (stageBegin s).t = 0 := by
  unfold stageBegin; rfl
@[simp] theorem stageBegin_esticky (s : State) :
    (stageBegin s).esticky = s.esticky := by
  unfold stageBegin; rfl
@[simp] theorem stageBegin_maxw (s : State) :
    (stageBegin s).maxw = s.maxw := by
  unfold stageBegin; rfl
@[simp] theorem stageBegin_port (s : State) :
    (stageBegin s).port = s.port := by
  unfold stageBegin; rfl
@[simp] theorem stageBegin_resp (s : State) :
    (stageBegin s).resp = s.resp := by
  unfold stageBegin; rfl

/-! ## stageRound -/

@[simp] theorem stageRound_regs (s : State) :
    (stageRound s).regs = s.regs := by
  unfold stageRound; rfl
@[simp] theorem stageRound_slots (s : State) :
    (stageRound s).slots = s.slots := by
  unfold stageRound; rfl
@[simp] theorem stageRound_mb (s : State) :
    (stageRound s).mb = s.mb := by
  unfold stageRound; rfl
@[simp] theorem stageRound_h (s : State) :
    (stageRound s).h = s.h := by
  unfold stageRound; rfl
@[simp] theorem stageRound_v (s : State) :
    (stageRound s).v = roundVars s.v (wordAt romK s.t) (wordAt s.w s.t) := by
  unfold stageRound; rfl
@[simp] theorem stageRound_w (s : State) :
    (stageRound s).w = s.w := by
  unfold stageRound; rfl
@[simp] theorem stageRound_t (s : State) :
    (stageRound s).t = s.t + 1 := by
  unfold stageRound; rfl
@[simp] theorem stageRound_esticky (s : State) :
    (stageRound s).esticky = s.esticky := by
  unfold stageRound; rfl
@[simp] theorem stageRound_maxw (s : State) :
    (stageRound s).maxw = s.maxw := by
  unfold stageRound; rfl
@[simp] theorem stageRound_port (s : State) :
    (stageRound s).port = s.port := by
  unfold stageRound; rfl
@[simp] theorem stageRound_resp (s : State) :
    (stageRound s).resp = s.resp := by
  unfold stageRound; rfl

/-! ## stageUpdate -/

@[simp] theorem stageUpdate_regs (s : State) :
    (stageUpdate s).regs = s.regs := by
  unfold stageUpdate; rfl
@[simp] theorem stageUpdate_slots (s : State) :
    (stageUpdate s).slots = s.slots := by
  unfold stageUpdate; rfl
@[simp] theorem stageUpdate_mb (s : State) :
    (stageUpdate s).mb = s.mb := by
  unfold stageUpdate; rfl
@[simp] theorem stageUpdate_h (s : State) :
    (stageUpdate s).h = Vector.zipWith addMod32 s.h s.v := by
  unfold stageUpdate; rfl
@[simp] theorem stageUpdate_v (s : State) :
    (stageUpdate s).v = s.v := by
  unfold stageUpdate; rfl
@[simp] theorem stageUpdate_w (s : State) :
    (stageUpdate s).w = s.w := by
  unfold stageUpdate; rfl
@[simp] theorem stageUpdate_t (s : State) :
    (stageUpdate s).t = s.t := by
  unfold stageUpdate; rfl
@[simp] theorem stageUpdate_esticky (s : State) :
    (stageUpdate s).esticky = s.esticky := by
  unfold stageUpdate; rfl
@[simp] theorem stageUpdate_maxw (s : State) :
    (stageUpdate s).maxw = s.maxw := by
  unfold stageUpdate; rfl
@[simp] theorem stageUpdate_port (s : State) :
    (stageUpdate s).port = s.port := by
  unfold stageUpdate; rfl
@[simp] theorem stageUpdate_resp (s : State) :
    (stageUpdate s).resp = s.resp := by
  unfold stageUpdate; rfl

/-! ## resetCore -/

@[simp] theorem State.resetCore_maxw (s : State) : s.resetCore.maxw = s.maxw := rfl
@[simp] theorem State.resetCore_port (s : State) : s.resetCore.port = s.port := rfl
@[simp] theorem State.resetCore_regs (s : State) : s.resetCore.regs = State.reset.regs := rfl
@[simp] theorem State.resetCore_slots (s : State) : s.resetCore.slots = State.reset.slots := rfl
@[simp] theorem State.resetCore_mb (s : State) : s.resetCore.mb = State.reset.mb := rfl
@[simp] theorem State.resetCore_h (s : State) : s.resetCore.h = State.reset.h := rfl
@[simp] theorem State.resetCore_v (s : State) : s.resetCore.v = State.reset.v := rfl
@[simp] theorem State.resetCore_w (s : State) : s.resetCore.w = State.reset.w := rfl
@[simp] theorem State.resetCore_t (s : State) : s.resetCore.t = 64 := rfl
@[simp] theorem State.resetCore_esticky (s : State) : s.resetCore.esticky = false := rfl
@[simp] theorem State.resetCore_resp (s : State) : s.resetCore.resp = none := rfl

/-! ## Reads after writes -/

@[simp] theorem State.reg_setReg_same (s : State) (r : Reg) (x : Bits) : (s.setReg r x).reg r = x := by
  simp [State.reg, State.setReg]

theorem State.reg_setReg_other (s : State) {r q : Reg} (x : Bits) (h : q ≠ r) : (s.setReg r x).reg q = s.reg q := by
  have : r.val ≠ q.val := fun e => h (Fin.ext e.symm)
  simp [State.reg, State.setReg, this]

@[simp] theorem State.slot_setSlot_same (s : State) (j : Slot) (b : ByteBuffer) : (s.setSlot j b).slot j = b := by
  simp [State.slot, State.setSlot]

theorem State.slot_setSlot_other (s : State) {j k : Slot} (b : ByteBuffer) (h : k ≠ j) :
    (s.setSlot j b).slot k = s.slot k := by
  have : j.val ≠ k.val := fun e => h (Fin.ext e.symm)
  simp [State.slot, State.setSlot, this]

/-- A register is read through the register file alone. -/
theorem State.reg_eq_of_regs {s t : State} (h : t.regs = s.regs) (r : Reg) : t.reg r = s.reg r := by
  simp [State.reg, h]

/-- A slot is read through the slots alone. -/
theorem State.slot_eq_of_slots {s t : State} (h : t.slots = s.slots) (j : Slot) : t.slot j = s.slot j := by
  simp [State.slot, h]

/-- Whether a length fits depends on `MAXW` alone. -/
theorem State.fits_eq_of_maxw {s t : State} (h : t.maxw = s.maxw) (n : Nat) : t.fits n = s.fits n := by
  simp [State.fits, h]

/-! ## The endings of a command as the records the claims use -/

theorem State.done_setReg (s : State) (r : Reg) (x : Bits) : (s.setReg r x).done = s.wrote r x := by
  simp [State.done, State.respond, State.setReg, State.wrote, estickyAfter, Status.isError]

theorem State.done_setSlot (s : State) (j : Slot) (b : ByteBuffer) : (s.setSlot j b).done = s.stored j b := by
  simp [State.done, State.respond, State.setSlot, State.stored, estickyAfter, Status.isError]

theorem State.done_eq (s : State) : s.done = s.answered .ok 0 Bits.empty := by
  simp [State.done, State.respond, State.answered, estickyAfter, Status.isError]

theorem State.respond_eq_answered (s : State) {st : Status} (n : Nat) (x : Bits) (h : st.isError = false) :
    s.respond st n x = s.answered st n x := by
  simp [State.respond, State.answered, estickyAfter, h]

theorem State.raise_eq_faulted (s : State) {st : Status} (h : st.isError = true) : s.raise st = s.faulted st := by
  simp [State.raise, State.respond, State.faulted, estickyAfter, h]

/-- `fits` is rule R35's `len <= MAXW`. -/
theorem State.fits_iff_room (s : State) (n : Nat) : s.fits n = true ↔ Room s n := by
  unfold State.fits Room
  cases h : s.maxw <;> simp

theorem State.fits_mono {s : State} {m n : Nat} (h : s.fits n = true) (hmn : m ≤ n) : s.fits m = true := by
  rw [State.fits_iff_room] at *
  exact fun k hk => le_trans hmn (h k hk)

@[simp] theorem State.fits_zero (s : State) : s.fits 0 = true := by
  rw [State.fits_iff_room]; exact fun _ _ => Nat.zero_le _

end Sys2Proof.Machine
end

