-- ==== Sys2Proof/Laws/Ops.lean ====
section
/-! SUPPORT. Everything the shared operations can do, once: the two ways a writing command ends, the store and the load of a
word, the operand forms, and that every command answers a next state. -/

namespace Sys2Proof.Machine

/-! ## Ending a command -/

theorem State.finishReg_of_room {s : State} {v : Bits} (h : Room s v.len) (rd : Reg) :
    s.finishReg rd v = s.wrote rd v := by
  rw [State.finishReg, if_pos ((s.fits_iff_room _).2 h), State.done_setReg]

theorem State.finishReg_of_not_room {s : State} {v : Bits} (h : ¬ Room s v.len) (rd : Reg) :
    s.finishReg rd v = s.faulted .capacity := by
  rw [State.finishReg, if_neg (fun hf => h ((s.fits_iff_room _).1 hf)), State.raise_eq_faulted s rfl]

theorem State.finishSlot_of_room {s : State} {b : ByteBuffer} (h : Room s b.store.len) (md : Slot) :
    s.finishSlot md b = s.stored md b := by
  rw [State.finishSlot, if_pos ((s.fits_iff_room _).2 h), State.done_setSlot]

theorem State.finishSlot_of_not_room {s : State} {b : ByteBuffer} (h : ¬ Room s b.store.len) (md : Slot) :
    s.finishSlot md b = s.faulted .capacity := by
  rw [State.finishSlot, if_neg (fun hf => h ((s.fits_iff_room _).1 hf)), State.raise_eq_faulted s rfl]

/-- A command that ends by `finishReg` writes its register or raises `Capacity`. -/
theorem writesReg_of_finishReg {i : Instr} {s : State} {rd : Reg} {v : Bits}
    (h : exec i s = .next (s.finishReg rd v)) : WritesReg i s rd v :=
  ⟨fun hr => by rw [h, State.finishReg_of_room hr], fun hr => by rw [h, State.finishReg_of_not_room hr]⟩

/-- A command that ends by `finishSlot` writes its slot or raises `Capacity`. -/
theorem writesSlot_of_finishSlot {i : Instr} {s : State} {md : Slot} {b : ByteBuffer}
    (h : exec i s = .next (s.finishSlot md b)) : WritesSlot i s md b :=
  ⟨fun hr => by rw [h, State.finishSlot_of_room hr], fun hr => by rw [h, State.finishSlot_of_not_room hr]⟩

theorem State.finishReg_cases (s : State) (rd : Reg) (v : Bits) :
    (Room s v.len ∧ s.finishReg rd v = s.wrote rd v) ∨ (¬ Room s v.len ∧ s.finishReg rd v = s.faulted .capacity) := by
  by_cases h : Room s v.len
  · exact .inl ⟨h, State.finishReg_of_room h rd⟩
  · exact .inr ⟨h, State.finishReg_of_not_room h rd⟩

theorem State.finishSlot_cases (s : State) (md : Slot) (b : ByteBuffer) :
    (Room s b.store.len ∧ s.finishSlot md b = s.stored md b) ∨
    (¬ Room s b.store.len ∧ s.finishSlot md b = s.faulted .capacity) := by
  by_cases h : Room s b.store.len
  · exact .inl ⟨h, State.finishSlot_of_room h md⟩
  · exact .inr ⟨h, State.finishSlot_of_not_room h md⟩

/-! ## The store and the load of a word -/

theorem State.putWord_cases (s : State) (md : Slot) (ra : Reg) (n : Nat) :
    ((s.reg ra).len = 8 * n ∧
      s.putWord md ra n = s.finishSlot md ((s.slot md).memWrite (Order.arrange (s.slot md).order (s.reg ra)))) ∨
    ((s.reg ra).len ≠ 8 * n ∧ s.putWord md ra n = s.faulted .widthMismatch) := by
  unfold State.putWord
  by_cases h : (s.reg ra).len = 8 * n
  · exact .inl ⟨h, if_pos h⟩
  · exact .inr ⟨h, by rw [if_neg h, State.raise_eq_faulted s rfl]⟩

theorem getStatus_not_error (r : Bits) : (getStatus r).isError = false := by
  unfold getStatus; split <;> rfl

/-- What a relative read leaves: the destination and the slot's cursor, the response, nothing else. -/
theorem State.getWord_cases (s : State) (rd : Reg) (ma : Slot) (n : Nat) :
    (Room s ((s.slot ma).get n).1.len ∧ s.getWord rd ma n =
      ((s.setSlot ma ((s.slot ma).get n).2).setReg rd ((s.slot ma).get n).1).answered
        (getStatus ((s.slot ma).get n).1) 0 Bits.empty) ∨
    (¬ Room s ((s.slot ma).get n).1.len ∧ s.getWord rd ma n = s.faulted .capacity) := by
  unfold State.getWord
  by_cases h : Room s ((s.slot ma).get n).1.len
  · refine .inl ⟨h, ?_⟩
    simp only [(s.fits_iff_room _).2 h, if_true]
    exact State.respond_eq_answered _ _ _ (getStatus_not_error _)
  · refine .inr ⟨h, ?_⟩
    have : s.fits ((s.slot ma).get n).1.len = false := by
      simpa using fun hf => h ((s.fits_iff_room _).1 hf)
    rw [if_neg (by simp [this])]
    exact State.raise_eq_faulted s rfl

theorem Order.len_arrange (o : Order) {v : Bits} (h : v.len % 8 = 0) : (Order.arrange o v).len = v.len := by
  cases o
  · rfl
  · exact Bits.len_byterev h

@[simp] theorem ByteBuffer.len_memRead (b : ByteBuffer) (off n : Nat) : (b.memRead off n).len = 8 * n := by
  simp only [ByteBuffer.memRead, Bits.len_slice]; omega

/-- A relative read returns `8k` bits for the `k` bytes it consumes. -/
theorem ByteBuffer.len_get (b : ByteBuffer) (n : Nat) : (b.get n).1.len = 8 * b.getCount n := by
  rw [ByteBuffer.get, Order.len_arrange _ (by simp), ByteBuffer.len_memRead]

@[simp] theorem ByteBuffer.get_store (b : ByteBuffer) (n : Nat) : (b.get n).2.store = b.store := rfl
@[simp] theorem ByteBuffer.get_order (b : ByteBuffer) (n : Nat) : (b.get n).2.order = b.order := rfl
@[simp] theorem ByteBuffer.get_cur (b : ByteBuffer) (n : Nat) : (b.get n).2.cur = b.cur + b.getCount n := rfl

/-! ## Operand forms (rule R9) -/

theorem normIndex_some {len j : Nat} {i : Int} (h : normIndex len i = some j) : j < len ∧ (j : Int) = fromEnd len i := by
  unfold normIndex at h
  unfold fromEnd
  dsimp only at h
  generalize (if i < 0 then i + len else i) = k at h
  by_cases hc : 0 ≤ k ∧ k < len
  · rw [if_pos hc] at h
    obtain rfl := Option.some.inj h
    omega
  · rw [if_neg hc] at h
    cases h

theorem normIndex_none {len : Nat} {i : Int} : normIndex len i = none ↔ ¬ (0 ≤ fromEnd len i ∧ fromEnd len i < len) := by
  unfold normIndex fromEnd
  dsimp only
  split <;> simp_all

theorem normBound_le {len absent : Nat} (h : absent ≤ len) (b : Option Int) : normBound len b absent ≤ len := by
  unfold normBound
  cases b with
  | none => exact h
  | some a => dsimp only; split <;> omega

/-- The bounds of a slice lie in order within the sequence. -/
theorem normSlice_bounds (len : Nat) (start stop : Option Int) :
    (normSlice len start stop).1 ≤ (normSlice len start stop).2 ∧ (normSlice len start stop).2 ≤ len := by
  have h1 := normBound_le (Nat.zero_le len) start
  have h2 := normBound_le (le_refl len) stop
  simp only [normSlice]
  omega

/-- The selected positions are those from the lower to the upper normalised bound. -/
theorem selected_eq_range (len : Nat) (start stop : Option Int) : selected len start stop =
    (List.range ((normSlice len start stop).2 - (normSlice len start stop).1)).map ((normSlice len start stop).1 + ·) := by
  have hb := normSlice_bounds len start stop
  generalize hlo : (normSlice len start stop).1 = lo at *
  generalize hhi : (normSlice len start stop).2 = hi at *
  let keep (p : Nat) : Bool :=
    decide ((start.elim (0 : Int) (fromEnd len)) ≤ (p : Int)) && decide ((p : Int) < stop.elim (len : Int) (fromEnd len))
  have key (p : Nat) (hp : p < len) : keep p = true ↔ lo ≤ p ∧ p < hi := by
    unfold normSlice normBound at hlo hhi
    rw [Bool.and_eq_true, decide_eq_true_iff, decide_eq_true_iff]
    rcases start with _ | a <;> rcases stop with _ | b <;> dsimp only at hlo hhi <;> simp only [Option.elim, fromEnd] <;>
      (try split_ifs at hlo hhi ⊢) <;> omega
  have split : List.range len =
      List.range lo ++ (List.range (hi - lo)).map (lo + ·) ++ (List.range (len - hi)).map (hi + ·) := by
    have h1 : len = lo + (hi - lo) + (len - hi) := by omega
    have h2 : lo + (hi - lo) = hi := by omega
    conv_lhs => rw [h1, List.range_add, List.range_add, h2]
  have f1 : (List.range lo).filter keep = [] := by
    rw [List.filter_eq_nil_iff]
    intro p hp
    rw [List.mem_range] at hp
    rw [key p (by omega)]
    omega
  have f2 : ((List.range (hi - lo)).map (lo + ·)).filter keep = (List.range (hi - lo)).map (lo + ·) := by
    rw [List.filter_eq_self]
    intro p hp
    obtain ⟨q, hq, rfl⟩ := List.mem_map.1 hp
    rw [List.mem_range] at hq
    rw [key _ (by omega)]
    omega
  have f3 : ((List.range (len - hi)).map (hi + ·)).filter keep = [] := by
    rw [List.filter_eq_nil_iff]
    intro p hp
    obtain ⟨q, hq, rfl⟩ := List.mem_map.1 hp
    rw [List.mem_range] at hq
    rw [key _ (by omega)]
    omega
  change (List.range len).filter keep = _
  rw [split, List.filter_append, List.filter_append, f1, f2, f3]
  simp

/-! ## Every command answers a next state -/

/-- No command faults or is refused in the sense of the interface. -/
theorem exec_next (i : Instr) (s : State) :
    ∃ t, exec i s = .next t := by
  cases i <;> simp only [exec] <;>
    first
    | exact ⟨_, rfl⟩
    | (simp only [execSysRdcsr]; split <;> exact ⟨_, rfl⟩)
    | (simp only [execBsBit]; split <;> exact ⟨_, rfl⟩)
    | (simp only [execBsShr]; split <;> exact ⟨_, rfl⟩)
    | (simp only [execBsMod]; split <;> exact ⟨_, rfl⟩)
    | (simp only [execBbPutb]; split <;> exact ⟨_, rfl⟩)
    | (simp only [execBbIdx]; split <;> exact ⟨_, rfl⟩)
    | (simp only [execShaPad]; split <;> [exact ⟨_, rfl⟩; (split <;> exact ⟨_, rfl⟩)])
    | (simp only [execShaLdblk]; split <;> exact ⟨_, rfl⟩)
    | (simp only [execShaRound]; split <;> exact ⟨_, rfl⟩)
    | (simp only [execShaBlock]; split <;> exact ⟨_, rfl⟩)
    | (simp only [execShaHash]; split <;> [exact ⟨_, rfl⟩; (split <;> exact ⟨_, rfl⟩)])
    | (simp only [execShaRdr]; split <;> exact ⟨_, rfl⟩)
    | (simp only [execShaWrr]; split <;> [exact ⟨_, rfl⟩; (split <;> exact ⟨_, rfl⟩)])

end Sys2Proof.Machine
end

