-- ==== Sys2Proof/Laws/Memory.lean ====
section
/-! SUPPORT. Every operation on a buffer keeps the memory in its form (10_state.md rules R24, R25), and what the block load
and the padding leave in the message buffer. -/

namespace Sys2Proof.Machine

/-! ## One ByteBuffer (rule R24) -/

theorem ByteBuffer.wf_iff (b : ByteBuffer) : b.wf = true ↔ b.store.len % 8 = 0 ∧ b.cur ≤ b.blen := by
  simp [ByteBuffer.wf]

/-- The new, empty buffer. -/
theorem ByteBuffer.wf_fresh (o : Order) : (ByteBuffer.fresh o).wf = true := by
  rw [ByteBuffer.wf_iff]; exact ⟨rfl, Nat.zero_le _⟩

/-- An append of whole bytes. -/
theorem ByteBuffer.wf_memWrite {b : ByteBuffer} {v : Bits} (h : b.wf = true) (hv : v.len % 8 = 0) :
    (b.memWrite v).wf = true := by
  rw [ByteBuffer.wf_iff] at *
  simp only [ByteBuffer.memWrite, ByteBuffer.blen, Bits.len_append] at *
  omega

/-- A relative read. -/
theorem ByteBuffer.wf_get {b : ByteBuffer} (h : b.wf = true) (n : Nat) : (b.get n).2.wf = true := by
  rw [ByteBuffer.wf_iff] at *
  simp only [ByteBuffer.get_store, ByteBuffer.get_cur, ByteBuffer.blen, ByteBuffer.getCount] at *
  omega

/-- A copy of bytes of a buffer. -/
theorem ByteBuffer.wf_copyOut (b : ByteBuffer) (off n : Nat) : (b.copyOut off n).wf = true := by
  rw [ByteBuffer.wf_iff]
  simp [ByteBuffer.copyOut]

/-- A copy is no longer than what it was taken from. -/
theorem ByteBuffer.len_copyOut (b : ByteBuffer) (off n : Nat) : (b.copyOut off n).store.len = 8 * n := by
  simp [ByteBuffer.copyOut]

/-- A relative read returns no more than the store holds. -/
theorem ByteBuffer.len_get_le (b : ByteBuffer) (n : Nat) : (b.get n).1.len ≤ b.store.len := by
  rw [ByteBuffer.len_get]
  have := Nat.div_mul_le_self b.store.len 8
  simp only [ByteBuffer.getCount, ByteBuffer.blen]
  omega

/-! ## Padding (42_sha256_pipeline.md rule R176) -/

theorem lengthMismatch_iff (n : Nat) : lengthMismatch n = true ↔ 2 ^ 64 ≤ 8 * n := by
  have h := Bits.len_bin_le_iff (n := 8 * n) (w := 64) (by omega)
  simp only [lengthMismatch, lengthWord, Bits.fromInt, Bits.len_zfill, decide_eq_true_eq]
  omega

theorem len_padding {msg : Bits} (h8 : msg.len % 8 = 0) (h : lengthMismatch (msg.len / 8) = false) :
    (padding msg).len = 512 * ((msg.len / 8 + 8) / 64 + 1) := by
  have h1 : (Bits.fromInt 0x80 8).len = 8 := Bits.len_fromInt_of_lt (by omega) (by omega)
  have h2 : (lengthWord (msg.len / 8)).len = 64 := by
    by_contra hc
    simp [lengthMismatch, hc] at h
  simp only [padding, Bits.len_append, Bits.len_zeros, h1, h2, padZeros]
  omega

/-! ## The message buffer (rule R25) -/

theorem MsgBuffer.wf_iff (mb : MsgBuffer) :
    mb.wf = true ↔ mb.store.len % 512 = 0 ∧ mb.cur % 64 = 0 ∧ mb.cur ≤ mb.blen := by
  simp [MsgBuffer.wf, and_assoc]

/-- The padded message. -/
theorem MsgBuffer.wf_padding {msg : Bits} (h8 : msg.len % 8 = 0) (h : lengthMismatch (msg.len / 8) = false) :
    (MsgBuffer.mk (padding msg) 0).wf = true := by
  rw [MsgBuffer.wf_iff]
  simp [len_padding h8 h]

/-- A buffer in its form that is not exhausted holds a whole block at its cursor (rule R179). -/
theorem MsgBuffer.block_left {mb : MsgBuffer} (h : mb.wf = true) (he : mb.exhausted = false) : mb.cur + 64 ≤ mb.blen := by
  rw [MsgBuffer.wf_iff] at h
  have he : ¬ mb.blen ≤ mb.cur := by simpa [MsgBuffer.exhausted] using he
  simp only [MsgBuffer.blen] at *
  omega

/-- A read of the message buffer with enough bytes left. -/
theorem MsgBuffer.get_full {mb : MsgBuffer} {n : Nat} (h : mb.cur + n ≤ mb.blen) :
    mb.get n = (mb.asBuffer.memRead mb.cur n, ⟨mb.store, mb.cur + n⟩) := by
  have hc : mb.asBuffer.getCount n = n := by
    simp only [ByteBuffer.getCount, ByteBuffer.blen, MsgBuffer.asBuffer, MsgBuffer.blen] at *
    omega
  simp only [MsgBuffer.get, ByteBuffer.get, hc]
  rfl

/-- The block load moves the cursor by four bytes a word, whatever it reads. -/
theorem loadWords_mb {mb : MsgBuffer} {k : Nat} (h : mb.cur + 4 * k ≤ mb.blen) (i : Nat) (w : Vector Word32 64) :
    (loadWords k i (mb, w)).1 = ⟨mb.store, mb.cur + 4 * k⟩ := by
  induction k generalizing mb i w with
  | zero => rfl
  | succ k ih =>
    rw [loadWords, MsgBuffer.get_full (mb := mb) (by omega)]
    rw [@ih ⟨mb.store, mb.cur + 4⟩ (by simp only [MsgBuffer.blen] at *; omega)]
    simp only [MsgBuffer.mk.injEq, true_and]
    omega

/-- The block load leaves the message buffer in its form, one block further. -/
theorem MsgBuffer.load {mb : MsgBuffer} (h : mb.wf = true) (he : mb.exhausted = false) (w : Vector Word32 64) :
    (loadWords 16 0 (mb, w)).1 = ⟨mb.store, mb.cur + 64⟩ := loadWords_mb (block_left h he) 0 w

theorem MsgBuffer.wf_load {mb : MsgBuffer} (h : mb.wf = true) (he : mb.exhausted = false) (w : Vector Word32 64) :
    (loadWords 16 0 (mb, w)).1.wf = true := by
  have hl := block_left h he
  rw [load h he]
  rw [MsgBuffer.wf_iff] at *
  simp only [MsgBuffer.blen] at *
  omega

/-! ## The whole memory -/

theorem Memory.wf_iff (s : State) : Memory.wf s = true ↔ (∀ j : Slot, (s.slot j).wf = true) ∧ s.mb.wf = true := by
  simp only [Memory.wf, Bool.and_eq_true, List.all_eq_true]
  refine and_congr_left fun _ => ⟨fun h j => h _ ?_, fun h b hb => ?_⟩
  · rw [State.slot, Vector.mem_toList_iff]
    exact Vector.getElem_mem _
  · rw [Vector.mem_toList_iff] at hb
    obtain ⟨i, hi, rfl⟩ := Vector.getElem_of_mem hb
    exact h ⟨i, hi⟩

/-- The memory is read through the slots and the message buffer alone. -/
theorem Memory.wf_congr {s t : State} (hs : t.slots = s.slots) (hm : t.mb = s.mb) : Memory.wf t = Memory.wf s := by
  simp [Memory.wf, hs, hm]

/-- A slot that receives a buffer in its form. -/
theorem Memory.wf_setSlot {s : State} (h : Memory.wf s = true) {b : ByteBuffer} (hb : b.wf = true) (j : Slot) :
    Memory.wf (s.setSlot j b) = true := by
  rw [Memory.wf_iff] at *
  refine ⟨fun k => ?_, h.2⟩
  by_cases hk : k = j
  · subst hk; simpa using hb
  · rw [State.slot_setSlot_other s b hk]; exact h.1 k

/-- The memory after reset. -/
theorem Memory.wf_reset : Memory.wf State.reset = true := by decide

end Sys2Proof.Machine
end

