-- ==== Sys2Proof/Laws/Bytes.lean ====
section
/-! SUPPORT. Byte strings inside BitStream values: the digits of the bytes of a slice, byte reversal and its involution
(00_scope.md rule R10), and a buffer's bytes before and after an append. -/

namespace Sys2Proof.Machine

/-! ## Bytes of a value -/

theorem byteDigits_eq_slice (x : Bits) {k : Nat} (h : 8 * k + 8 ≤ x.len) :
    byteDigits x k = (x.slice (8 * k) (8 * k + 8)).digits := by
  rw [Bits.digits_slice x h, byteDigits]; congr 1; omega

theorem length_byteDigits (x : Bits) {k : Nat} (h : 8 * k + 8 ≤ x.len) : (byteDigits x k).length = 8 := by
  rw [byteDigits_eq_slice x h]; simp

/-- A slice of whole bytes is its bytes one after another. -/
theorem digits_slice_bytes (x : Bits) {off n : Nat} (h : 8 * (off + n) ≤ x.len) :
    (x.slice (8 * off) (8 * (off + n))).digits = (List.range n).flatMap fun j => byteDigits x (off + j) := by
  induction n with
  | zero => rw [Bits.digits_slice x h]; simp
  | succ n ih =>
    rw [List.range_succ, List.flatMap_append, ← ih (by omega), Bits.digits_slice x h, Bits.digits_slice x (by omega)]
    simp only [List.flatMap_cons, List.flatMap_nil, List.append_nil, byteDigits]
    have e1 : 8 * (off + (n + 1)) - 8 * off = 8 * n + 8 := by omega
    have e2 : 8 * (off + n) - 8 * off = 8 * n := by omega
    rw [e1, e2, List.take_add, List.drop_drop]
    congr 3
    omega

theorem byteDigits_slice (x : Bits) {off n j : Nat} (h : 8 * (off + n) ≤ x.len) (hj : j < n) :
    byteDigits (x.slice (8 * off) (8 * (off + n))) j = byteDigits x (off + j) := by
  rw [byteDigits, byteDigits, Bits.digits_slice x h, List.drop_take, List.drop_drop, List.take_take]
  congr 1
  · omega
  · congr 1; omega

/-- A value of whole bytes is its bytes one after another. -/
theorem digits_eq_bytes {x : Bits} {n : Nat} (h : x.len = 8 * n) :
    x.digits = (List.range n).flatMap (byteDigits x) := by
  have := digits_slice_bytes x (off := 0) (n := n) (by omega)
  rw [Nat.zero_add, ← h, Nat.mul_zero, Bits.slice_full] at this
  simpa using this

/-- Two values of `n` bytes are equal when all their bytes are. -/
theorem ext_bytes {x y : Bits} {n : Nat} (hx : x.len = 8 * n) (hy : y.len = 8 * n)
    (h : ∀ j, j < n → byteDigits x j = byteDigits y j) : x = y := by
  apply Bits.ext_digits
  rw [digits_eq_bytes hx, digits_eq_bytes hy]
  exact List.flatMap_congr fun j hj => h j (List.mem_range.1 hj)

/-- The byte at the front of a concatenation of bytes, and the bytes behind it. -/
theorem take_drop_flatMap (l : List Nat) (f : Nat → List Bool) (hf : ∀ a ∈ l, (f a).length = 8) (j : Nat)
    (hj : j < l.length) : ((l.flatMap f).drop (8 * j)).take 8 = f l[j] := by
  induction l generalizing j with
  | nil => simp at hj
  | cons a l ih =>
    have ha : (f a).length = 8 := hf a (by simp)
    cases j with
    | zero => simp [List.flatMap_cons, ha]
    | succ j =>
      have e : 8 * (j + 1) = (f a).length + 8 * j := by omega
      have hd : (f a).drop ((f a).length + 8 * j) = [] := List.drop_eq_nil_of_le (by omega)
      rw [List.flatMap_cons, e, List.drop_append, hd, List.nil_append]
      simpa using ih (fun b hb => hf b (by simp [hb])) j (by simpa using hj)

/-! ## Byte reversal -/

theorem digits_byterevFirst (x : Bits) {n : Nat} (h : 8 * n ≤ x.len) :
    (x.byterevFirst n).digits = (List.range n).reverse.flatMap (byteDigits x) := by
  induction n with
  | zero => rfl
  | succ n ih =>
    rw [Bits.byterevFirst, Bits.digits_append, ← byteDigits_eq_slice x (by omega), ih (by omega), List.range_succ]
    simp

/-- Byte `j` of the reversal is byte `n - 1 - j`. -/
theorem byteDigits_byterev {x : Bits} {n j : Nat} (h : x.len = 8 * n) (hj : j < n) :
    byteDigits x.byterev j = byteDigits x (n - 1 - j) := by
  have hn : x.len / 8 = n := by omega
  rw [byteDigits, Bits.byterev, hn, digits_byterevFirst x (by omega),
    take_drop_flatMap _ _ (fun a ha => length_byteDigits x (by simp at ha; omega)) j (by simpa using hj)]
  simp

/-- Rule R10: reversing twice gives the value back. -/
theorem byterev_byterev {x : Bits} (h : x.len % 8 = 0) : x.byterev.byterev = x := by
  have h1 : x.len = 8 * (x.len / 8) := by omega
  have h2 : x.byterev.len = 8 * (x.len / 8) := by rw [Bits.len_byterev h]; exact h1
  have h3 : x.byterev.byterev.len = 8 * (x.len / 8) := by rw [Bits.len_byterev (by omega)]; exact h2
  refine ext_bytes h3 h1 fun j hj => ?_
  rw [byteDigits_byterev h2 hj, byteDigits_byterev h1 (by omega)]
  congr 1; omega

/-- A word written in an order and read in the same order is the word. -/
theorem Order.arrange_arrange (o : Order) {x : Bits} (h : x.len % 8 = 0) : Order.arrange o (Order.arrange o x) = x := by
  cases o
  · rfl
  · exact byterev_byterev h

/-- Bytes of a store in a buffer's order (20_memory.md rule R52). -/
theorem digits_arrange_slice (o : Order) (x : Bits) {off n : Nat} (h : 8 * (off + n) ≤ x.len) :
    (Order.arrange o (x.slice (8 * off) (8 * (off + n)))).digits = orderedDigits o x off n := by
  cases o with
  | big => exact digits_slice_bytes x h
  | little =>
    have hl : (x.slice (8 * off) (8 * (off + n))).len / 8 = n := by simp; omega
    rw [Order.arrange, Bits.byterev, hl, digits_byterevFirst _ (by simp; omega), orderedDigits]
    refine List.flatMap_congr fun j hj => ?_
    rw [List.mem_reverse, List.mem_range] at hj
    exact byteDigits_slice x h hj

/-! ## A buffer's bytes (20_memory.md rules R51, R58) -/

theorem ByteBuffer.byteAt_of_lt {b : ByteBuffer} {k : Nat} (h : k < b.blen) :
    b.byteAt k = some ((b.store.slice (8 * k) (8 * k + 8)).bits.setWidth 8) := by
  rw [ByteBuffer.byteAt, if_pos h]
  rfl

theorem ByteBuffer.byteAt_of_le {b : ByteBuffer} {k : Nat} (h : b.blen ≤ k) : b.byteAt k = none := by
  rw [ByteBuffer.byteAt, if_neg (by omega)]

/-- An append leaves the bytes before it. -/
theorem slice_append_left (x v : Bits) {lo hi : Nat} (h : hi ≤ x.len) : (x.append v).slice lo hi = x.slice lo hi := by
  refine Bits.ext_digits ?_
  rw [Bits.digits_slice _ (by simp; omega), Bits.digits_slice x h, Bits.digits_append]
  rcases Nat.lt_or_ge hi lo with hl | hl
  · have : hi - lo = 0 := by omega
    simp [this]
  · rw [List.drop_append_of_le_length (by simp; omega), List.take_append_of_le_length (by simp; omega)]

/-- An append puts its own digits behind them. -/
theorem slice_append_right (x v : Bits) {lo hi : Nat} (h : hi ≤ v.len) :
    (x.append v).slice (x.len + lo) (x.len + hi) = v.slice lo hi := by
  refine Bits.ext_digits ?_
  rw [Bits.digits_slice _ (by simp; omega), Bits.digits_slice v h, Bits.digits_append]
  have e : x.len + hi - (x.len + lo) = hi - lo := by omega
  have hd : x.digits.drop (x.digits.length + lo) = [] := List.drop_eq_nil_of_le (by omega)
  rw [e, ← Bits.length_digits x, List.drop_append, hd, List.nil_append]
  simp

theorem ByteBuffer.byteAt_memWrite_old {b : ByteBuffer} (v : Bits) {k : Nat} (h : k < b.blen) :
    (b.memWrite v).byteAt k = b.byteAt k := by
  have h2 : k < (b.memWrite v).blen := by
    simp only [ByteBuffer.memWrite, ByteBuffer.blen, Bits.len_append] at *; omega
  rw [byteAt_of_lt h, byteAt_of_lt h2]
  simp only [ByteBuffer.memWrite]
  rw [slice_append_left b.store v (by simp only [ByteBuffer.blen] at h; omega)]

theorem ByteBuffer.byteAt_memWrite_new {b : ByteBuffer} {v : Bits} (hb : b.wf = true) {j : Nat} (h : 8 * j + 8 ≤ v.len) :
    (b.memWrite v).byteAt (b.blen + j) = some ((v.slice (8 * j) (8 * j + 8)).bits.setWidth 8) := by
  rw [ByteBuffer.wf_iff] at hb
  have hl : b.store.len = 8 * b.blen := by simp only [ByteBuffer.blen]; omega
  have h2 : b.blen + j < (b.memWrite v).blen := by
    simp only [ByteBuffer.memWrite, ByteBuffer.blen, Bits.len_append] at *; omega
  rw [byteAt_of_lt h2]
  have e1 : 8 * (b.blen + j) = b.store.len + 8 * j := by omega
  have e2 : b.store.len + 8 * j + 8 = b.store.len + (8 * j + 8) := by omega
  simp only [ByteBuffer.memWrite]
  rw [e1, e2, slice_append_right b.store v h]

end Sys2Proof.Machine
end

