-- ==== Sys2Proof/Laws/Decode.lean ====
section
/-! SUPPORT. Format C, once: a command word and its six fields determine each other, an operand field is read back from the
number it encodes, and what a row of rule R73 selects is said field by field. -/

namespace Sys2Proof

/-! ## The word and its fields (rule R71) -/

/-- Bit `i` of the word is a bit of the field that holds it. -/
theorem Fields.getLsbD_toWord (f : Fields) (i : Nat) : f.toWord.getLsbD i =
    (if i < 8 then f.rsv.getLsbD i else if i < 12 then f.fl.getLsbD (i - 8)
     else if i < 16 then f.rb.getLsbD (i - 12) else if i < 20 then f.ra.getLsbD (i - 16)
     else if i < 24 then f.rd.getLsbD (i - 20) else f.opcode.getLsbD (i - 24)) := by
  obtain ⟨a, b, c, d, e, g⟩ := f
  change BitVec.getLsbD (w := 8+4+4+4+4+8) (a ++ b ++ c ++ d ++ e ++ g) i = _
  simp only [BitVec.getLsbD_append]
  simp only [Nat.sub_sub]
  split_ifs <;> first | rfl | omega

/-- The fields are read back from the word they make up. -/
theorem Fields.ofWord_toWord (f : Fields) : Fields.ofWord f.toWord = f := by
  obtain ⟨a, b, c, d, e, g⟩ := f
  simp only [Fields.ofWord, Fields.mk.injEq]
  refine ⟨?_, ?_, ?_, ?_, ?_, ?_⟩ <;>
  · refine BitVec.eq_of_getLsbD_eq fun i hi => ?_
    rw [BitVec.getLsbD_extractLsb', Fields.getLsbD_toWord]
    simp only [hi, decide_true, Bool.true_and]
    split_ifs <;> first | omega | (congr 1; omega)

/-- The word is made up of the fields read from it. -/
theorem Fields.toWord_ofWord (w : BitVec 32) : (Fields.ofWord w).toWord = w := by
  refine BitVec.eq_of_getLsbD_eq fun i hi => ?_
  rw [Fields.getLsbD_toWord]
  simp only [Fields.ofWord, BitVec.getLsbD_extractLsb']
  have h (k n : Nat) (h1 : k ≤ i) (h2 : i < k + n) : (decide (i - k < n) && w.getLsbD (k + (i - k))) = w.getLsbD i := by
    have e1 : i - k < n := by omega
    have e2 : k + (i - k) = i := by omega
    simp [e1, e2]
  split_ifs
  · exact h 0 8 (by omega) (by omega)
  · exact h 8 4 (by omega) (by omega)
  · exact h 12 4 (by omega) (by omega)
  · exact h 16 4 (by omega) (by omega)
  · exact h 20 4 (by omega) (by omega)
  · exact h 24 8 (by omega) (by omega)

/-! ## Operand fields and words (rules R71, R72) -/

@[simp] theorem toNat_unsignedWord {n : Nat} (h : fitsUnsigned n = true) : (unsignedWord n).toNat = n := by
  have : n < 2 ^ 64 := by simpa [fitsUnsigned] using h
  simpa [unsignedWord] using this

@[simp] theorem sgn_signedWord {i : Int} (h : fitsSigned i = true) : sgn (signedWord i) = i := by
  have h2 : -2 ^ 63 ≤ i ∧ i < 2 ^ 63 := by simpa [fitsSigned] using h
  simp only [sgn, signedWord, BitVec.toNat_ofInt]
  split <;> omega

@[simp] theorem unsignedWord_toNat (x : BitVec 64) : unsignedWord x.toNat = x := by simp [unsignedWord]

@[simp] theorem signedWord_sgn (x : BitVec 64) : signedWord (sgn x) = x := by
  apply BitVec.eq_of_toNat_eq
  have := x.isLt
  simp only [sgn, signedWord, BitVec.toNat_ofInt]
  split <;> omega

theorem fitsUnsigned_toNat (x : BitVec 64) : fitsUnsigned x.toNat = true := by
  simpa [fitsUnsigned] using x.isLt

theorem fitsSigned_sgn (x : BitVec 64) : fitsSigned (sgn x) = true := by
  have := x.isLt
  have h : -2 ^ 63 ≤ sgn x ∧ sgn x < 2 ^ 63 := by
    unfold sgn
    split <;> omega
  simpa [fitsSigned] using h

theorem toFin_slotField : ∀ m : Slot, ((slotField m).extractLsb' 0 2).toFin = m := by decide

theorem slotField_upper : ∀ m : Slot, (slotField m).extractLsb' 2 2 = 0#2 := by decide

/-- A field whose upper two bits are 0 encodes the slot read from it. -/
theorem slotField_toFin : ∀ x : BitVec 4, x.extractLsb' 2 2 = 0#2 → slotField (x.extractLsb' 0 2).toFin = x := by decide

/-- The bounds' flag bits, by which of the two bounds is absent. -/
theorem boundsField_eq (start stop : Option Int) :
    boundsField start stop = match start.isNone, stop.isNone with
      | false, false => 0#4
      | true, false => 1#4
      | false, true => 2#4
      | true, true => 3#4 := by
  cases start <;> cases stop <;> simp only [boundsField, Option.isNone_none, Option.isNone_some] <;> decide

/-- The mask of a bounds field covers its two upper bits alone. -/
theorem boundsField_mask (start stop : Option Int) : boundsField start stop &&& 12#4 = 0#4 := by
  rw [boundsField_eq]
  generalize start.isNone = a
  generalize stop.isNone = b
  revert a b
  decide

theorem slotField_mask : ∀ m : Slot, slotField m &&& 12#4 = 0#4 := by decide

theorem startBound_boundsField {f : Fields} {start stop : Option Int} (hf : f.fl = boundsField start stop)
    (h : fitsBound start = true) : f.startBound (boundWord start) = start := by
  cases start with
  | none => cases stop <;> simp [Fields.startBound, hf, boundsField_eq]
  | some i =>
    have hi : sgn (signedWord i) = i := sgn_signedWord h
    cases stop <;> simp [Fields.startBound, hf, boundsField_eq, boundWord, hi]

theorem stopBound_boundsField {f : Fields} {start stop : Option Int} (hf : f.fl = boundsField start stop)
    (h : fitsBound stop = true) : f.stopBound (boundWord stop) = stop := by
  cases stop with
  | none => cases start <;> simp [Fields.stopBound, hf, boundsField_eq]
  | some i =>
    have hi : sgn (signedWord i) = i := sgn_signedWord h
    cases start <;> simp [Fields.stopBound, hf, boundsField_eq, boundWord, hi]

/-- Fields that meet no objection are accepted. -/
theorem Fields.accept_ok {f : Fields} {sh : Shape} {i : Instr} (h : f.objection sh = none) : f.accept sh i = .ok i := by
  simp [Fields.accept, h]

/-- What is accepted met no objection. -/
theorem Fields.accept_eq_ok {f : Fields} {sh : Shape} {i j : Instr} :
    f.accept sh i = .ok j ↔ f.objection sh = none ∧ i = j := by
  unfold Fields.accept
  cases h : f.objection sh <;> simp

/-- Which fields meet no objection (rules R71, R74). -/
theorem Fields.objection_eq_none {f : Fields} {sh : Shape} : f.objection sh = none ↔
    f.rsv = 0#8 ∧ sh.fl.objection f.fl = none ∧ sh.rd.objection f.rd = none ∧ sh.ra.objection f.ra = none ∧
    (sh.rb = true ∨ f.rb = 0#4) := by
  have h (x : Option Illegal) : (if sh.rb = true then none else x) = none ↔ sh.rb = true ∨ x = none := by
    cases sh.rb <;> simp
  have h0 : (FieldUse.unused.objection f.rb) = none ↔ f.rb = 0#4 := by simp [FieldUse.objection]
  simp only [← h0]
  simp [Fields.objection, h]

theorem FieldUse.objection_unused {x : BitVec 4} : FieldUse.unused.objection x = none ↔ x = 0#4 := by
  simp [FieldUse.objection]
theorem FieldUse.objection_reg {x : BitVec 4} : FieldUse.reg.objection x = none ↔ True := by
  simp [FieldUse.objection]
theorem FieldUse.objection_slot {x : BitVec 4} : FieldUse.slot.objection x = none ↔ x.extractLsb' 2 2 = 0#2 := by
  simp [FieldUse.objection]
theorem FlagUse.objection_none {x : BitVec 4} : FlagUse.none.objection x = .none ↔ x = 0#4 := by
  simp [FlagUse.objection]
theorem FlagUse.objection_order {x : BitVec 4} : FlagUse.order.objection x = .none ↔ x = 0#4 ∨ x = 1#4 := by
  revert x; decide
theorem FlagUse.objection_bounds {x : BitVec 4} :
    FlagUse.bounds.objection x = .none ↔ x = 0#4 ∨ x = 1#4 ∨ x = 2#4 ∨ x = 3#4 := by
  revert x; decide

theorem FlagUse.objection_boundsField (start stop : Option Int) :
    FlagUse.bounds.objection (boundsField start stop) = .none := by
  rw [FlagUse.objection_bounds, boundsField_eq]
  cases start <;> cases stop <;> simp

/-! ## Rule R73's table -/

/-- A word selects a row exactly when it agrees with the row's `match` in every bit of the row's mask. -/
theorem OpRow.selects_iff (r : OpRow) (w : BitVec 32) : r.selects w = true ↔ w &&& r.mask = r.pat := by
  simp [OpRow.selects]

/-- The opcode field of a command's word. -/
theorem opcode_command (f : Fields) (a b : BitVec 64) : (command f a b).cmd.extractLsb' 24 8 = f.opcode :=
  congrArg Fields.opcode (Fields.ofWord_toWord f)

/-- A row selects the word with these fields exactly when it selects each field. -/
theorem OpRow.selects_toWord (r : OpRow) (f : Fields) : r.selects f.toWord = true ↔
    f.opcode &&& (Fields.ofWord r.mask).opcode = (Fields.ofWord r.pat).opcode ∧
    f.rd &&& (Fields.ofWord r.mask).rd = (Fields.ofWord r.pat).rd ∧
    f.ra &&& (Fields.ofWord r.mask).ra = (Fields.ofWord r.pat).ra ∧
    f.rb &&& (Fields.ofWord r.mask).rb = (Fields.ofWord r.pat).rb ∧
    f.fl &&& (Fields.ofWord r.mask).fl = (Fields.ofWord r.pat).fl ∧
    f.rsv &&& (Fields.ofWord r.mask).rsv = (Fields.ofWord r.pat).rsv := by
  have key (a b c : BitVec 32) : a &&& b = c ↔ Fields.ofWord (a &&& b) = Fields.ofWord c :=
    ⟨fun h => h ▸ rfl, fun h => by rw [← Fields.toWord_ofWord (a &&& b), h, Fields.toWord_ofWord]⟩
  have hf := Fields.ofWord_toWord f
  rw [OpRow.selects_iff, key]
  conv_rhs => rw [← hf]
  have ext_and (a b : BitVec 32) (i n : Nat) :
      (a &&& b).extractLsb' i n = a.extractLsb' i n &&& b.extractLsb' i n := by
    refine BitVec.eq_of_getLsbD_eq fun k hk => ?_
    simp [BitVec.getLsbD_and, hk]
  simp only [Fields.ofWord, Fields.mk.injEq, ext_and]

/-- Two rows whose `match` words differ in a bit of both masks select no word in common. -/
theorem OpRow.disjoint_of_differ {r q : OpRow} (h : r.pat &&& q.mask ≠ q.pat &&& r.mask) (w : BitVec 32) :
    ¬ (r.selects w = true ∧ q.selects w = true) := by
  rintro ⟨h1, h2⟩
  rw [OpRow.selects_iff] at h1 h2
  apply h
  rw [← h1, ← h2, BitVec.and_assoc, BitVec.and_assoc, BitVec.and_comm r.mask]

end Sys2Proof
end

