-- ==== Sys2Proof/Laws/Exec.lean ====
section
/-! SUPPORT. What the pipeline's stages leave alone, and, once for all commands, everything a command can do to the state. -/

namespace Sys2Proof.Machine

/-! ## The stages touch the SHA unit only -/

/-- The two states differ in the SHA unit at most. -/
structure State.SameOutsideSha (s t : State) : Prop where
  regs    : t.regs = s.regs
  slots   : t.slots = s.slots
  esticky : t.esticky = s.esticky
  maxw    : t.maxw = s.maxw
  port    : t.port = s.port
  resp    : t.resp = s.resp

theorem State.SameOutsideSha.refl (s : State) : s.SameOutsideSha s := ⟨rfl, rfl, rfl, rfl, rfl, rfl⟩

theorem State.SameOutsideSha.trans {s t u : State} (h : s.SameOutsideSha t) (k : t.SameOutsideSha u) :
    s.SameOutsideSha u :=
  ⟨k.regs.trans h.regs, k.slots.trans h.slots, k.esticky.trans h.esticky, k.maxw.trans h.maxw, k.port.trans h.port,
    k.resp.trans h.resp⟩

theorem stageInit_outside (s : State) : s.SameOutsideSha (stageInit s) := by constructor <;> simp
theorem stagePad_outside (ma : Slot) (s : State) : s.SameOutsideSha (stagePad ma s) := by constructor <;> simp
theorem stageLoad_outside (s : State) : s.SameOutsideSha (stageLoad s) := by constructor <;> simp
theorem stageExpand_outside (s : State) : s.SameOutsideSha (stageExpand s) := by constructor <;> simp
theorem stageBegin_outside (s : State) : s.SameOutsideSha (stageBegin s) := by constructor <;> simp
theorem stageRound_outside (s : State) : s.SameOutsideSha (stageRound s) := by constructor <;> simp
theorem stageUpdate_outside (s : State) : s.SameOutsideSha (stageUpdate s) := by constructor <;> simp

theorem stageRounds_outside (n : Nat) (s : State) : s.SameOutsideSha (stageRounds n s) := by
  induction n generalizing s with
  | zero => exact .refl s
  | succ n ih => exact (stageRound_outside s).trans (ih _)

theorem stageBlock_outside (s : State) : s.SameOutsideSha (stageBlock s) :=
  ((((stageLoad_outside s).trans (stageExpand_outside _)).trans (stageBegin_outside _)).trans
    (stageRounds_outside 64 _)).trans (stageUpdate_outside _)

theorem stageBlocks_outside (n : Nat) (s : State) : s.SameOutsideSha (stageBlocks n s) := by
  induction n generalizing s with
  | zero => exact .refl s
  | succ n ih =>
    rw [stageBlocks]
    split
    · exact .refl s
    · exact (stageBlock_outside s).trans (ih _)

theorem stageHash_outside (ma : Slot) (s : State) : s.SameOutsideSha (stageHash ma s) :=
  ((stagePad_outside ma s).trans (stageInit_outside _)).trans (stageBlocks_outside _ _)

theorem setShaReg_outside (s : State) (idx : Nat) (x : Word32) : s.SameOutsideSha (s.setShaReg idx x) := by
  unfold State.setShaReg
  split
  · constructor <;> rfl
  · split <;> constructor <;> rfl

theorem setShaReg_mb (s : State) (idx : Nat) (x : Word32) : (s.setShaReg idx x).mb = s.mb := by
  unfold State.setShaReg; split <;> [rfl; (split <;> rfl)]

theorem setShaReg_t (s : State) (idx : Nat) (x : Word32) : (s.setShaReg idx x).t = s.t := by
  unfold State.setShaReg; split <;> [rfl; (split <;> rfl)]

/-- A write at an index of the register space leaves the other arrays alone. -/
theorem setShaReg_same (s : State) (idx : Nat) {ra : Reg} (x : Word32) {p : ShaPart}
    (hp : p ∉ (Instr.shaWrr idx ra).shaParts) : p.Same s (s.setShaReg idx x) := by
  unfold State.setShaReg
  unfold Instr.shaParts at hp
  by_cases h1 : idx < 8
  · simp only [h1, if_true] at hp ⊢; cases p <;> simp_all [ShaPart.Same]
  · by_cases h2 : idx < 16
    · simp only [h1, h2, if_true, if_false] at hp ⊢; cases p <;> simp_all [ShaPart.Same]
    · simp only [h1, h2, if_false] at hp ⊢; cases p <;> simp_all [ShaPart.Same]

/-! ## Rounds: what a run of them keeps, and where the counter goes -/

theorem stageRounds_t (n : Nat) (s : State) : (stageRounds n s).t = s.t + n := by
  induction n generalizing s with
  | zero => rfl
  | succ n ih => rw [stageRounds, ih, stageRound_t]; omega

theorem stageRounds_mb (n : Nat) (s : State) : (stageRounds n s).mb = s.mb := by
  induction n generalizing s with
  | zero => rfl
  | succ n ih => rw [stageRounds, ih, stageRound_mb]

theorem stageRounds_h (n : Nat) (s : State) : (stageRounds n s).h = s.h := by
  induction n generalizing s with
  | zero => rfl
  | succ n ih => rw [stageRounds, ih, stageRound_h]

theorem stageRounds_w (n : Nat) (s : State) : (stageRounds n s).w = s.w := by
  induction n generalizing s with
  | zero => rfl
  | succ n ih => rw [stageRounds, ih, stageRound_w]

theorem stageBlock_t (s : State) : (stageBlock s).t = 64 := by
  rw [stageBlock, stageUpdate_t, stageRounds_t, stageBegin_t]

theorem stageBlock_mb (s : State) : (stageBlock s).mb = (loadWords 16 0 (s.mb, s.w)).1 := by
  rw [stageBlock, stageUpdate_mb, stageRounds_mb, stageBegin_mb, stageExpand_mb, stageLoad_mb]

/-! ## Everything a command can do -/

/-- The seven ways a command ends: it faults; it only answers; it writes its destination register; it puts a buffer into a
slot; it reads at a cursor; it runs a part of the SHA unit (and SHA.HASH writes its register then); it resets. -/
inductive Ending (i : Instr) (s t : State) : Prop where
  | fault (st : Status) (herr : st.isError = true) (hcap : st = .capacity → s.maxw ≠ none) (ht : t = s.faulted st)
  | answer (st : Status) (n : Nat) (x : Bits) (hst : st = .ok ∨ (st = .exhausted ∧ n = 0 ∧ x = Bits.empty))
      (hn : n ≠ 0 → i.mnemonic ∈ ["BS.LEN", "BS.EQ", "BB.LEN", "SYS.RDCSR"]) (hx : x ≠ Bits.empty → i.mnemonic = "BS.RD")
      (ht : t = s.answered st n x)
  | write (rd : Reg) (v : Bits) (hd : i.dest = some rd) (hfit : Room s v.len) (ht : t = s.wrote rd v)
  | construct (md : Slot) (b : ByteBuffer) (hu : i.slotUse = some (md, .construct)) (hfit : Room s b.store.len)
      (hcur : b.cur = 0) (hwf : b.wf = true) (ht : t = s.stored md b)
  | append (md : Slot) (n : Nat) (v : Bits) (hu : i.slotUse = some (md, .append n)) (hv : v.len = 8 * n)
      (hfit : Room s ((s.slot md).memWrite v).store.len) (ht : t = s.stored md ((s.slot md).memWrite v))
  | read (rd : Reg) (ma : Slot) (n : Nat) (hd : i.dest = some rd) (hu : i.slotUse = some (ma, .read))
      (hfit : Room s ((s.slot ma).get n).1.len)
      (ht : t = ((s.setSlot ma ((s.slot ma).get n).2).setReg rd ((s.slot ma).get n).1).answered
        (getStatus ((s.slot ma).get n).1) 0 Bits.empty)
  | sha (u : State) (hs : s.SameOutsideSha u) (hp : ∀ p, p ∉ i.shaParts → p.Same s u)
      (hwf : Memory.wf s = true → u.mb.wf = true) (hroom : u.mb.store = s.mb.store ∨ Room s u.mb.store.len)
      (hcount : s.t ≤ 64 → u.t ≤ 64) (ht : t = u.done)
  | hash (rd : Reg) (ma : Slot) (hi : i = .shaHash rd ma) (hlen : lengthMismatch (s.slot ma).blen = false)
      (hfit : Room s (padding (s.slot ma).store).len) (hfit2 : Room s 256)
      (ht : t = ((stageHash ma s).setReg rd (digestOf (stageHash ma s).h)).done)
  | reset (hi : i = .sysReset) (ht : t = s.resetCore.done)

/-- Only a finite `MAXW` is too small. -/
theorem maxw_of_not_room {s : State} {n : Nat} (h : ¬ Room s n) : s.maxw ≠ none :=
  fun hm => h fun m hm' => by rw [hm] at hm'; cases hm'

theorem maxw_of_not_fits {s : State} {n : Nat} (h : ¬ s.fits n = true) : s.maxw ≠ none :=
  maxw_of_not_room fun hr => h ((s.fits_iff_room n).2 hr)

theorem Ending.of_finishReg {i : Instr} {s t : State} {rd : Reg} {v : Bits} (hd : i.dest = some rd)
    (h : s.finishReg rd v = t) : Ending i s t := by
  rcases State.finishReg_cases s rd v with ⟨hr, he⟩ | ⟨hr, he⟩
  · exact .write rd v hd hr (h.symm.trans he)
  · exact .fault .capacity rfl (fun _ => maxw_of_not_room hr) (h.symm.trans he)

theorem Ending.of_construct {i : Instr} {s t : State} {md : Slot} {b : ByteBuffer}
    (hu : i.slotUse = some (md, .construct)) (hcur : b.cur = 0) (hwf : b.wf = true) (h : s.finishSlot md b = t) :
    Ending i s t := by
  rcases State.finishSlot_cases s md b with ⟨hr, he⟩ | ⟨hr, he⟩
  · exact .construct md b hu hr hcur hwf (h.symm.trans he)
  · exact .fault .capacity rfl (fun _ => maxw_of_not_room hr) (h.symm.trans he)

theorem Ending.of_append {i : Instr} {s t : State} {md : Slot} {n : Nat} {v : Bits}
    (hu : i.slotUse = some (md, .append n)) (hv : v.len = 8 * n) (h : s.finishSlot md ((s.slot md).memWrite v) = t) :
    Ending i s t := by
  rcases State.finishSlot_cases s md ((s.slot md).memWrite v) with ⟨hr, he⟩ | ⟨hr, he⟩
  · exact .append md n v hu hv hr (h.symm.trans he)
  · exact .fault .capacity rfl (fun _ => maxw_of_not_room hr) (h.symm.trans he)

theorem Ending.of_putWord {i : Instr} {s t : State} {md : Slot} {ra : Reg} {n : Nat}
    (hu : i.slotUse = some (md, .append n)) (h : s.putWord md ra n = t) : Ending i s t := by
  rcases State.putWord_cases s md ra n with ⟨hl, he⟩ | ⟨-, he⟩
  · exact .of_append hu ((Order.len_arrange _ (by omega)).trans hl) (he.symm.trans h)
  · exact .fault .widthMismatch rfl (by simp) (h.symm.trans he)

theorem Ending.of_getWord {i : Instr} {s t : State} {rd : Reg} {ma : Slot} {n : Nat} (hd : i.dest = some rd)
    (hu : i.slotUse = some (ma, .read)) (h : s.getWord rd ma n = t) : Ending i s t := by
  rcases State.getWord_cases s rd ma n with ⟨hr, he⟩ | ⟨hr, he⟩
  · exact .read rd ma n hd hu hr (h.symm.trans he)
  · exact .fault .capacity rfl (fun _ => maxw_of_not_room hr) (h.symm.trans he)

theorem Ending.of_raise {i : Instr} {s t : State} {st : Status} (herr : st.isError = true)
    (hcap : st = .capacity → s.maxw ≠ none) (h : s.raise st = t) : Ending i s t :=
  .fault st herr hcap (h.symm.trans (State.raise_eq_faulted s herr))

theorem Ending.of_ok {i : Instr} {s t : State} {n : Nat} {x : Bits}
    (hn : n ≠ 0 → i.mnemonic ∈ ["BS.LEN", "BS.EQ", "BB.LEN", "SYS.RDCSR"]) (hx : x ≠ Bits.empty → i.mnemonic = "BS.RD")
    (h : s.respond .ok n x = t) : Ending i s t :=
  .answer .ok n x (.inl rfl) hn hx (h.symm.trans (State.respond_eq_answered s n x rfl))

theorem Ending.of_exhausted {i : Instr} {s t : State} (h : s.respond .exhausted 0 Bits.empty = t) : Ending i s t :=
  .answer .exhausted 0 Bits.empty (.inr ⟨rfl, rfl, rfl⟩) (by simp) (by simp) (h.symm.trans (State.respond_eq_answered s _ _ rfl))

theorem Memory.wf_mb {s : State} (h : Memory.wf s = true) : s.mb.wf = true := ((Memory.wf_iff s).1 h).2

/-- A part of the SHA unit that leaves the message buffer alone. -/
theorem Ending.of_sha {i : Instr} {s t u : State} (hs : s.SameOutsideSha u) (hp : ∀ p, p ∉ i.shaParts → p.Same s u)
    (hmb : u.mb = s.mb) (hcount : s.t ≤ 64 → u.t ≤ 64) (h : u.done = t) : Ending i s t :=
  .sha u hs hp (fun hw => hmb ▸ Memory.wf_mb hw) (.inl (hmb ▸ rfl)) hcount h.symm

theorem MsgBuffer.load_store (k i : Nat) (mb : MsgBuffer) (w : Vector Word32 64) :
    (loadWords k i (mb, w)).1.store = mb.store := by
  induction k generalizing i mb w with
  | zero => rfl
  | succ k ih => rw [loadWords, ih]; rfl

/-- Every command ends in one of those ways. -/
theorem ending {i : Instr} {s t : State} (h : exec i s = .next t) : Ending i s t := by
  cases i with
  | sysReset => exact .reset rfl (Host.Outcome.next.inj h).symm
  | sysRdcsr csr =>
    simp only [exec, execSysRdcsr] at h
    split at h
    · exact .of_raise rfl (by simp) (Host.Outcome.next.inj h)
    · exact .of_ok (by simp [Instr.mnemonic]) (by simp) (Host.Outcome.next.inj h)
  | bsBit rd ra i =>
    simp only [exec, execBsBit] at h
    split at h
    · exact .of_raise rfl (by simp) (Host.Outcome.next.inj h)
    · exact .of_finishReg rfl (Host.Outcome.next.inj h)
  | bsShr rd ra n =>
    simp only [exec, execBsShr] at h
    split at h
    · exact .of_raise rfl (by simp) (Host.Outcome.next.inj h)
    · exact .of_finishReg rfl (Host.Outcome.next.inj h)
  | bsMod rd ra d =>
    simp only [exec, execBsMod] at h
    split at h
    · exact .of_raise rfl (by simp) (Host.Outcome.next.inj h)
    · exact .of_finishReg rfl (Host.Outcome.next.inj h)
  | bsLen ra => exact .of_ok (by simp [Instr.mnemonic]) (by simp) (Host.Outcome.next.inj h)
  | bsEq ra rb => exact .of_ok (by simp [Instr.mnemonic]) (by simp) (Host.Outcome.next.inj h)
  | bsRd ra => exact .of_ok (by simp) (fun _ => rfl) (Host.Outcome.next.inj h)
  | bsLdi rd n z => exact .of_finishReg rfl (Host.Outcome.next.inj h)
  | bsEmpty rd => exact .of_finishReg rfl (Host.Outcome.next.inj h)
  | bsJoin rd ra rb => exact .of_finishReg rfl (Host.Outcome.next.inj h)
  | bsSlice rd ra a b => exact .of_finishReg rfl (Host.Outcome.next.inj h)
  | bsAdd rd ra rb => exact .of_finishReg rfl (Host.Outcome.next.inj h)
  | bsAddi rd ra n => exact .of_finishReg rfl (Host.Outcome.next.inj h)
  | bsAnd rd ra rb => exact .of_finishReg rfl (Host.Outcome.next.inj h)
  | bsOr rd ra rb => exact .of_finishReg rfl (Host.Outcome.next.inj h)
  | bsXor rd ra rb => exact .of_finishReg rfl (Host.Outcome.next.inj h)
  | bsNot rd ra => exact .of_finishReg rfl (Host.Outcome.next.inj h)
  | bsRotl rd ra n => exact .of_finishReg rfl (Host.Outcome.next.inj h)
  | bsRotr rd ra n => exact .of_finishReg rfl (Host.Outcome.next.inj h)
  | bbNew md o => exact .of_construct rfl rfl (ByteBuffer.wf_fresh o) (Host.Outcome.next.inj h)
  | bbPutb md v =>
    simp only [exec, execBbPutb] at h
    split at h
    · exact .of_raise rfl (by simp) (Host.Outcome.next.inj h)
    · refine .of_append (n := 1) rfl ?_ (Host.Outcome.next.inj h)
      exact Bits.len_fromInt_of_lt (by omega) (by omega)
  | bbPutw16 md ra => exact .of_putWord rfl (Host.Outcome.next.inj h)
  | bbPutw32 md ra => exact .of_putWord rfl (Host.Outcome.next.inj h)
  | bbPutw64 md ra => exact .of_putWord rfl (Host.Outcome.next.inj h)
  | bbPutw128 md ra => exact .of_putWord rfl (Host.Outcome.next.inj h)
  | bbGetb rd ma => exact .of_getWord rfl rfl (Host.Outcome.next.inj h)
  | bbGetw16 rd ma => exact .of_getWord rfl rfl (Host.Outcome.next.inj h)
  | bbGetw32 rd ma => exact .of_getWord rfl rfl (Host.Outcome.next.inj h)
  | bbGetw64 rd ma => exact .of_getWord rfl rfl (Host.Outcome.next.inj h)
  | bbGetw128 rd ma => exact .of_getWord rfl rfl (Host.Outcome.next.inj h)
  | bbIdx md ma i =>
    simp only [exec, execBbIdx] at h
    split at h
    · exact .of_raise rfl (by simp) (Host.Outcome.next.inj h)
    · exact .of_construct rfl rfl (ByteBuffer.wf_copyOut _ _ _) (Host.Outcome.next.inj h)
  | bbSlice md ma a b => exact .of_construct rfl rfl (ByteBuffer.wf_copyOut _ _ _) (Host.Outcome.next.inj h)
  | bbLen ma => exact .of_ok (by simp [Instr.mnemonic]) (by simp) (Host.Outcome.next.inj h)
  | bbStr rd ma => exact .of_finishReg rfl (Host.Outcome.next.inj h)
  | shaInit => exact .of_sha (stageInit_outside s) (by intro p hp; cases p <;> simp_all [ShaPart.Same, Instr.shaParts]) (stageInit_mb s) (by simp) (Host.Outcome.next.inj h)
  | shaPad ma =>
    simp only [exec, execShaPad] at h
    split at h
    · exact .of_raise rfl (by simp) (Host.Outcome.next.inj h)
    · split at h
      · rename_i hl hf
        refine .sha _ (stagePad_outside ma s) (by intro p hp; cases p <;> simp_all [ShaPart.Same, Instr.shaParts])
          (fun hw => ?_) (.inr ((s.fits_iff_room _).1 hf)) (by simp) (Host.Outcome.next.inj h).symm
        exact MsgBuffer.wf_padding ((ByteBuffer.wf_iff _).1 (((Memory.wf_iff s).1 hw).1 ma)).1
          (by simpa [ByteBuffer.blen] using hl)
      · exact .of_raise rfl (fun _ => maxw_of_not_fits ‹_›) (Host.Outcome.next.inj h)
  | shaLdblk =>
    simp only [exec, execShaLdblk] at h
    split at h
    · exact .of_exhausted (Host.Outcome.next.inj h)
    · rename_i he
      refine .sha _ (stageLoad_outside s) (by intro p hp; cases p <;> simp_all [ShaPart.Same, Instr.shaParts])
        (fun hw => ?_) (.inl ?_) (by simp) (Host.Outcome.next.inj h).symm
      · rw [stageLoad_mb]; exact MsgBuffer.wf_load (Memory.wf_mb hw) (by simpa using he) _
      · rw [stageLoad_mb, MsgBuffer.load_store]
  | shaExpand => exact .of_sha (stageExpand_outside s) (by intro p hp; cases p <;> simp_all [ShaPart.Same, Instr.shaParts]) (stageExpand_mb s) (by simp) (Host.Outcome.next.inj h)
  | shaBegin => exact .of_sha (stageBegin_outside s) (by intro p hp; cases p <;> simp_all [ShaPart.Same, Instr.shaParts]) (stageBegin_mb s) (by simp) (Host.Outcome.next.inj h)
  | shaRound =>
    simp only [exec, execShaRound] at h
    split at h
    · exact .of_raise rfl (by simp) (Host.Outcome.next.inj h)
    · exact .of_sha (stageRound_outside s) (by intro p hp; cases p <;> simp_all [ShaPart.Same, Instr.shaParts]) (stageRound_mb s) (by simp; omega) (Host.Outcome.next.inj h)
  | shaUpdate => exact .of_sha (stageUpdate_outside s) (by intro p hp; cases p <;> simp_all [ShaPart.Same, Instr.shaParts]) (stageUpdate_mb s) (by simp) (Host.Outcome.next.inj h)
  | shaDigest rd => exact .of_finishReg rfl (Host.Outcome.next.inj h)
  | shaBlock =>
    simp only [exec, execShaBlock] at h
    split at h
    · exact .of_exhausted (Host.Outcome.next.inj h)
    · rename_i he
      refine .sha _ (stageBlock_outside s) (by intro p hp; cases p <;> simp_all [Instr.shaParts])
        (fun hw => ?_) (.inl ?_) (by simp [stageBlock_t]) (Host.Outcome.next.inj h).symm
      · rw [stageBlock_mb]; exact MsgBuffer.wf_load (Memory.wf_mb hw) (by simpa using he) _
      · rw [stageBlock_mb, MsgBuffer.load_store]
  | shaHash rd ma =>
    simp only [exec, execShaHash] at h
    split at h
    · exact .of_raise rfl (by simp) (Host.Outcome.next.inj h)
    · rename_i hl
      split at h
      · rename_i hf
        rw [Bool.and_eq_true, State.fits_iff_room, State.fits_iff_room] at hf
        exact .hash rd ma rfl (by simpa using hl) hf.1 hf.2 (Host.Outcome.next.inj h).symm
      · rename_i hf
        refine .of_raise rfl (fun _ hm => hf ?_) (Host.Outcome.next.inj h)
        simp [State.fits, hm]
  | shaRdr rd idx =>
    simp only [exec, execShaRdr] at h
    split at h
    · exact .of_raise rfl (by simp) (Host.Outcome.next.inj h)
    · exact .of_finishReg rfl (Host.Outcome.next.inj h)
  | shaWrr idx ra =>
    simp only [exec, execShaWrr] at h
    split at h
    · exact .of_raise rfl (by simp) (Host.Outcome.next.inj h)
    · split at h
      · refine .of_sha (setShaReg_outside s _ _) (fun p hp => ?_) (setShaReg_mb s _ _) (by rw [setShaReg_t]; exact id)
          (Host.Outcome.next.inj h)
        exact setShaReg_same s idx _ hp
      · exact .of_raise rfl (by simp) (Host.Outcome.next.inj h)

end Sys2Proof.Machine
end

