-- ==== Sys2Proof/Laws/PerInstr.lean ====
section
/-! SUPPORT. The family RowMatches, instruction by instruction: the command word that the encoder writes selects the
instruction's own row of rule R73's table. -/

namespace Sys2Proof.Laws.RowMatches

/-- Some row of rule R73's table carries the instruction's mnemonic and is selected by its command word. -/
def Statement (i : Instr) : Prop :=
  ∃ r ∈ opcodeTable, r.mnemonic = i.mnemonic ∧ r.selects (encode i).cmd = true

/-- The row at index `k`, once its mnemonic is the instruction's and it selects the word. -/
theorem of_row {i : Instr} (k : Nat) (h : k < opcodeTable.length) (hm : opcodeTable[k].mnemonic = i.mnemonic)
    (hs : opcodeTable[k].selects (encode i).cmd = true) : Statement i :=
  ⟨_, List.getElem_mem h, hm, hs⟩

theorem sysReset : Statement .sysReset :=
  of_row 0 (by decide) rfl (by decide)

theorem sysRdcsr (csr : Nat) : Statement (.sysRdcsr csr) :=
  of_row 1 (by decide) rfl (by rw [encode, command, OpRow.selects_toWord]; simp [opcodeTable, systemRows, bitStreamRows, Fields.ofWord])

theorem bsLdi (rd : Reg) (n zfill : Nat) : Statement (.bsLdi rd n zfill) :=
  of_row 2 (by decide) rfl (by rw [encode, command, OpRow.selects_toWord]; simp [opcodeTable, systemRows, bitStreamRows, Fields.ofWord])

theorem bsEmpty (rd : Reg) : Statement (.bsEmpty rd) :=
  of_row 3 (by decide) rfl (by rw [encode, command, OpRow.selects_toWord]; simp [opcodeTable, systemRows, bitStreamRows, Fields.ofWord])

theorem bsJoin (rd ra rb : Reg) : Statement (.bsJoin rd ra rb) :=
  of_row 4 (by decide) rfl (by rw [encode, command, OpRow.selects_toWord]; simp [opcodeTable, systemRows, bitStreamRows, Fields.ofWord])

theorem bsBit (rd ra : Reg) (i : Int) : Statement (.bsBit rd ra i) :=
  of_row 5 (by decide) rfl (by rw [encode, command, OpRow.selects_toWord]; simp [opcodeTable, systemRows, bitStreamRows, Fields.ofWord])

theorem bsSlice (rd ra : Reg) (start stop : Option Int) : Statement (.bsSlice rd ra start stop) :=
  of_row 6 (by decide) rfl (by rw [encode, command, OpRow.selects_toWord]; simp [opcodeTable, systemRows, bitStreamRows, Fields.ofWord, boundsField_mask])

theorem bsLen (ra : Reg) : Statement (.bsLen ra) :=
  of_row 7 (by decide) rfl (by rw [encode, command, OpRow.selects_toWord]; simp [opcodeTable, systemRows, bitStreamRows, Fields.ofWord])

theorem bsEq (ra rb : Reg) : Statement (.bsEq ra rb) :=
  of_row 8 (by decide) rfl (by rw [encode, command, OpRow.selects_toWord]; simp [opcodeTable, systemRows, bitStreamRows, Fields.ofWord])

theorem bsRd (ra : Reg) : Statement (.bsRd ra) :=
  of_row 9 (by decide) rfl (by rw [encode, command, OpRow.selects_toWord]; simp [opcodeTable, systemRows, bitStreamRows, Fields.ofWord])

theorem bsAdd (rd ra rb : Reg) : Statement (.bsAdd rd ra rb) :=
  of_row 10 (by decide) rfl (by rw [encode, command, OpRow.selects_toWord]; simp [opcodeTable, systemRows, bitStreamRows, Fields.ofWord])

theorem bsAddi (rd ra : Reg) (n : Nat) : Statement (.bsAddi rd ra n) :=
  of_row 11 (by decide) rfl (by rw [encode, command, OpRow.selects_toWord]; simp [opcodeTable, systemRows, bitStreamRows, Fields.ofWord])

theorem bsAnd (rd ra rb : Reg) : Statement (.bsAnd rd ra rb) :=
  of_row 12 (by decide) rfl (by rw [encode, command, OpRow.selects_toWord]; simp [opcodeTable, systemRows, bitStreamRows, Fields.ofWord])

theorem bsOr (rd ra rb : Reg) : Statement (.bsOr rd ra rb) :=
  of_row 13 (by decide) rfl (by rw [encode, command, OpRow.selects_toWord]; simp [opcodeTable, systemRows, bitStreamRows, Fields.ofWord])

theorem bsXor (rd ra rb : Reg) : Statement (.bsXor rd ra rb) :=
  of_row 14 (by decide) rfl (by rw [encode, command, OpRow.selects_toWord]; simp [opcodeTable, systemRows, bitStreamRows, Fields.ofWord])

theorem bsNot (rd ra : Reg) : Statement (.bsNot rd ra) :=
  of_row 15 (by decide) rfl (by rw [encode, command, OpRow.selects_toWord]; simp [opcodeTable, systemRows, bitStreamRows, Fields.ofWord])

theorem bsShr (rd ra : Reg) (n : Nat) : Statement (.bsShr rd ra n) :=
  of_row 16 (by decide) rfl (by rw [encode, command, OpRow.selects_toWord]; simp [opcodeTable, systemRows, bitStreamRows, Fields.ofWord])

theorem bsRotl (rd ra : Reg) (n : Nat) : Statement (.bsRotl rd ra n) :=
  of_row 17 (by decide) rfl (by rw [encode, command, OpRow.selects_toWord]; simp [opcodeTable, systemRows, bitStreamRows, Fields.ofWord])

theorem bsRotr (rd ra : Reg) (n : Nat) : Statement (.bsRotr rd ra n) :=
  of_row 18 (by decide) rfl (by rw [encode, command, OpRow.selects_toWord]; simp [opcodeTable, systemRows, bitStreamRows, Fields.ofWord])

theorem bsMod (rd ra : Reg) (d : Nat) : Statement (.bsMod rd ra d) :=
  of_row 19 (by decide) rfl (by rw [encode, command, OpRow.selects_toWord]; simp [opcodeTable, systemRows, bitStreamRows, Fields.ofWord])

theorem bbNew (md : Slot) (order : Order) : Statement (.bbNew md order) :=
  of_row 20 (by decide) rfl (by rw [encode, command, OpRow.selects_toWord]; cases order <;> simp [opcodeTable, systemRows, bitStreamRows, byteBufferRows, Fields.ofWord, slotField_mask, orderField])

theorem bbPutb (md : Slot) (v : Nat) : Statement (.bbPutb md v) :=
  of_row 21 (by decide) rfl (by rw [encode, command, OpRow.selects_toWord]; simp [opcodeTable, systemRows, bitStreamRows, byteBufferRows, Fields.ofWord, slotField_mask])

theorem bbPutw16 (md : Slot) (ra : Reg) : Statement (.bbPutw16 md ra) :=
  of_row 22 (by decide) rfl (by rw [encode, command, OpRow.selects_toWord]; simp [opcodeTable, systemRows, bitStreamRows, byteBufferRows, Fields.ofWord, slotField_mask])

theorem bbPutw32 (md : Slot) (ra : Reg) : Statement (.bbPutw32 md ra) :=
  of_row 23 (by decide) rfl (by rw [encode, command, OpRow.selects_toWord]; simp [opcodeTable, systemRows, bitStreamRows, byteBufferRows, Fields.ofWord, slotField_mask])

theorem bbPutw64 (md : Slot) (ra : Reg) : Statement (.bbPutw64 md ra) :=
  of_row 24 (by decide) rfl (by rw [encode, command, OpRow.selects_toWord]; simp [opcodeTable, systemRows, bitStreamRows, byteBufferRows, Fields.ofWord, slotField_mask])

theorem bbPutw128 (md : Slot) (ra : Reg) : Statement (.bbPutw128 md ra) :=
  of_row 25 (by decide) rfl (by rw [encode, command, OpRow.selects_toWord]; simp [opcodeTable, systemRows, bitStreamRows, byteBufferRows, Fields.ofWord, slotField_mask])

theorem bbGetb (rd : Reg) (ma : Slot) : Statement (.bbGetb rd ma) :=
  of_row 26 (by decide) rfl (by rw [encode, command, OpRow.selects_toWord]; simp [opcodeTable, systemRows, bitStreamRows, byteBufferRows, Fields.ofWord, slotField_mask])

theorem bbGetw16 (rd : Reg) (ma : Slot) : Statement (.bbGetw16 rd ma) :=
  of_row 27 (by decide) rfl (by rw [encode, command, OpRow.selects_toWord]; simp [opcodeTable, systemRows, bitStreamRows, byteBufferRows, Fields.ofWord, slotField_mask])

theorem bbGetw32 (rd : Reg) (ma : Slot) : Statement (.bbGetw32 rd ma) :=
  of_row 28 (by decide) rfl (by rw [encode, command, OpRow.selects_toWord]; simp [opcodeTable, systemRows, bitStreamRows, byteBufferRows, Fields.ofWord, slotField_mask])

theorem bbGetw64 (rd : Reg) (ma : Slot) : Statement (.bbGetw64 rd ma) :=
  of_row 29 (by decide) rfl (by rw [encode, command, OpRow.selects_toWord]; simp [opcodeTable, systemRows, bitStreamRows, byteBufferRows, Fields.ofWord, slotField_mask])

theorem bbGetw128 (rd : Reg) (ma : Slot) : Statement (.bbGetw128 rd ma) :=
  of_row 30 (by decide) rfl (by rw [encode, command, OpRow.selects_toWord]; simp [opcodeTable, systemRows, bitStreamRows, byteBufferRows, Fields.ofWord, slotField_mask])

theorem bbIdx (md ma : Slot) (i : Int) : Statement (.bbIdx md ma i) :=
  of_row 31 (by decide) rfl (by rw [encode, command, OpRow.selects_toWord]; simp [opcodeTable, systemRows, bitStreamRows, byteBufferRows, Fields.ofWord, slotField_mask])

theorem bbSlice (md ma : Slot) (start stop : Option Int) : Statement (.bbSlice md ma start stop) :=
  of_row 32 (by decide) rfl (by rw [encode, command, OpRow.selects_toWord]; simp [opcodeTable, systemRows, bitStreamRows, byteBufferRows, Fields.ofWord, slotField_mask, boundsField_mask])

theorem bbLen (ma : Slot) : Statement (.bbLen ma) :=
  of_row 33 (by decide) rfl (by rw [encode, command, OpRow.selects_toWord]; simp [opcodeTable, systemRows, bitStreamRows, byteBufferRows, Fields.ofWord, slotField_mask])

theorem bbStr (rd : Reg) (ma : Slot) : Statement (.bbStr rd ma) :=
  of_row 34 (by decide) rfl (by rw [encode, command, OpRow.selects_toWord]; simp [opcodeTable, systemRows, bitStreamRows, byteBufferRows, Fields.ofWord, slotField_mask])

theorem shaInit : Statement .shaInit :=
  of_row 35 (by decide) rfl (by decide)

theorem shaPad (ma : Slot) : Statement (.shaPad ma) :=
  of_row 36 (by decide) rfl (by rw [encode, command, OpRow.selects_toWord]; simp [opcodeTable, systemRows, bitStreamRows, byteBufferRows, shaRows, Fields.ofWord, slotField_mask])

theorem shaLdblk : Statement .shaLdblk :=
  of_row 37 (by decide) rfl (by decide)

theorem shaExpand : Statement .shaExpand :=
  of_row 38 (by decide) rfl (by decide)

theorem shaBegin : Statement .shaBegin :=
  of_row 39 (by decide) rfl (by decide)

theorem shaRound : Statement .shaRound :=
  of_row 40 (by decide) rfl (by decide)

theorem shaUpdate : Statement .shaUpdate :=
  of_row 41 (by decide) rfl (by decide)

theorem shaDigest (rd : Reg) : Statement (.shaDigest rd) :=
  of_row 42 (by decide) rfl (by rw [encode, command, OpRow.selects_toWord]; simp [opcodeTable, systemRows, bitStreamRows, byteBufferRows, shaRows, Fields.ofWord])

theorem shaBlock : Statement .shaBlock :=
  of_row 43 (by decide) rfl (by decide)

theorem shaHash (rd : Reg) (ma : Slot) : Statement (.shaHash rd ma) :=
  of_row 44 (by decide) rfl (by rw [encode, command, OpRow.selects_toWord]; simp [opcodeTable, systemRows, bitStreamRows, byteBufferRows, shaRows, Fields.ofWord, slotField_mask])

theorem shaRdr (rd : Reg) (idx : Nat) : Statement (.shaRdr rd idx) :=
  of_row 45 (by decide) rfl (by rw [encode, command, OpRow.selects_toWord]; simp [opcodeTable, systemRows, bitStreamRows, byteBufferRows, shaRows, Fields.ofWord])

theorem shaWrr (idx : Nat) (ra : Reg) : Statement (.shaWrr idx ra) :=
  of_row 46 (by decide) rfl (by rw [encode, command, OpRow.selects_toWord]; simp [opcodeTable, systemRows, bitStreamRows, byteBufferRows, shaRows, Fields.ofWord])

end Sys2Proof.Laws.RowMatches
end

