-- ==== Sys2Proof/Laws/Sha.lean ====
section
/-! SUPPORT. The SHA unit's values as 32-bit words: the ALU's functions on operands of 32 bits, the digest, the schedule
words a block load and an expansion write, and what a run of blocks leaves of the message buffer. -/

namespace Sys2Proof.Machine

/-! ## The ALU on 32-bit words (42_sha256_pipeline.md rule R191) -/

theorem Bits.xor_ofWord32 (x y : Word32) : (Bits.ofWord32 x).xor (Bits.ofWord32 y) = Bits.ofWord32 (x ^^^ y) :=
  Bits.ext_val (by simp) (by simp [Bits.val_xor])

theorem Bits.and_ofWord32 (x y : Word32) : (Bits.ofWord32 x).and (Bits.ofWord32 y) = Bits.ofWord32 (x &&& y) :=
  Bits.ext_val (by simp) (by simp [Bits.val_and])

theorem Bits.not_ofWord32 (x : Word32) : (Bits.ofWord32 x).not = Bits.ofWord32 (~~~x) := rfl

theorem Bits.shr_ofWord32 (x : Word32) (n : Nat) : (Bits.ofWord32 x).shr n = Bits.ofWord32 (x >>> n) :=
  Bits.ext_val (by simp) (by simp [Bits.val_shr, Nat.shiftRight_eq_div_pow])

theorem Bits.rotr_ofWord32 (x : Word32) {n : Nat} (h : n < 32) :
    (Bits.ofWord32 x).rotr n = Bits.ofWord32 (x.rotateRight n) := by
  refine Bits.ext_digit (by simp) fun i hi => ?_
  have hi : i < 32 := by simpa using hi
  have hl : i < ((Bits.ofWord32 x).rotr n).digits.length := by simpa using hi
  rw [← Bits.getElem_digits _ i hl]
  simp only [Bits.digits_rotr, List.getElem_rotate, Bits.getElem_digits]
  simp only [Bits.digit, Bits.length_digits, Bits.len_ofWord32, Bits.bits_ofWord32, BitVec.getMsbD_rotateRight,
    Nat.mod_eq_of_lt h]
  by_cases hn : i < n
  · have : (i + (32 - n)) % 32 = 32 + i - n := by omega
    simp [hn, hi, this]
    congr 1; omega
  · have : (i + (32 - n)) % 32 = i - n := by omega
    simp [hn, hi, this]

/-- `MOD 32` of a value is the word of its number modulo `2^32`. -/
theorem Bits.mod32_toWord32 (x : Bits) : (x.mod 32).toWord32 = BitVec.ofNat 32 x.val := by
  apply BitVec.eq_of_toNat_eq
  rw [Bits.toNat_toWord32, Bits.val_mod]
  simp

theorem addMod32_eq (x y : Word32) : addMod32 x y = x + y := by
  rw [addMod32, Bits.mod32_toWord32]
  apply BitVec.eq_of_toNat_eq
  simp

/-! ## The digest (rule R184) -/

theorem digits_digestOf (h : Vector Word32 8) : (digestOf h).digits = h.toList.flatMap fun x => (Bits.ofWord32 x).digits := by
  have aux (l : List Word32) (x : Bits) : (l.foldl (fun acc y => acc.append (Bits.ofWord32 y)) x).digits =
      x.digits ++ l.flatMap fun y => (Bits.ofWord32 y).digits := by
    induction l generalizing x with
    | nil => simp
    | cons a l ih => rw [List.foldl_cons, ih]; simp
  simpa [digestOf] using aux h.toList Bits.empty

theorem len_digestOf (h : Vector Word32 8) : (digestOf h).len = 256 := by
  have aux (l : List Word32) : (l.flatMap fun y => (Bits.ofWord32 y).digits).length = 32 * l.length := by
    induction l with
    | nil => rfl
    | cons a l ih => simp only [List.flatMap_cons, List.length_append, ih, Bits.length_digits, Bits.len_ofWord32,
        List.length_cons]; omega
  rw [← Bits.length_digits, digits_digestOf, aux]
  simp

/-! ## Entries of a register array -/

theorem wordAt_eq {n k : Nat} (a : Vector Word32 n) (h : k < n) : wordAt a k = a[k] := by
  simp [wordAt, h]

/-- An expansion writes the words from `i` on and no other. -/
theorem expandFrom_other {count i k : Nat} (w : Vector Word32 64) (hk : k < 64) (h : k < i ∨ i + count ≤ k) :
    (expandFrom count i w)[k] = w[k] := by
  induction count generalizing i w with
  | zero => rfl
  | succ c ih =>
    rw [expandFrom, ih _ (by omega), Vector.getElem_setIfInBounds]
    exact if_neg (by omega)

/-- Word `k` of an expansion is computed from the words before it, as the expansion leaves them. -/
theorem expandFrom_word {count i k : Nat} (w : Vector Word32 64) (hk : k < 64) (h : i ≤ k ∧ k < i + count) (hi : 16 ≤ i) :
    (expandFrom count i w)[k] = scheduleWord (expandFrom count i w) k := by
  induction count generalizing i w with
  | zero => omega
  | succ c ih =>
    by_cases e : k = i
    · subst e
      have old (j : Nat) (hj : j < k) : wordAt (expandFrom c (k + 1) (w.setIfInBounds k (scheduleWord w k))) j = wordAt w j := by
        rw [wordAt_eq _ (by omega), wordAt_eq _ (by omega), expandFrom_other _ (by omega) (by omega),
          Vector.getElem_setIfInBounds]
        exact if_neg (by omega)
      rw [expandFrom, expandFrom_other _ hk (by omega), Vector.getElem_setIfInBounds, if_pos rfl]
      generalize expandFrom c (k + 1) (w.setIfInBounds k (scheduleWord w k)) = u at old
      simp only [scheduleWord, old (k - 16) (by omega), old (k - 15) (by omega), old (k - 7) (by omega),
        old (k - 2) (by omega)]
    · rw [expandFrom]
      exact ih _ (by omega) (by omega)

/-- A block load writes the words from `i` on and no other. -/
theorem loadWords_other {count i k : Nat} (p : MsgBuffer × Vector Word32 64) (hk : k < 64) (h : k < i ∨ i + count ≤ k) :
    (loadWords count i p).2[k] = p.2[k] := by
  induction count generalizing i p with
  | zero => rfl
  | succ c ih =>
    rw [loadWords, ih _ (by omega), Vector.getElem_setIfInBounds]
    exact if_neg (by omega)

/-- Word `i + j` of a block load is the word of the four bytes from byte `4j` after the cursor. -/
theorem loadWords_word {count i j : Nat} {mb : MsgBuffer} (w : Vector Word32 64) (h : mb.cur + 4 * count ≤ mb.blen)
    (hj : j < count) (hk : i + j < 64) :
    (loadWords count i (mb, w)).2[i + j] = (mb.asBuffer.memRead (mb.cur + 4 * j) 4).toWord32 := by
  induction count generalizing i j mb w with
  | zero => omega
  | succ c ih =>
    have hg : mb.get 4 = (mb.asBuffer.memRead mb.cur 4, ⟨mb.store, mb.cur + 4⟩) := MsgBuffer.get_full (by omega)
    rw [loadWords]
    simp only [hg]
    rcases Nat.eq_zero_or_pos j with e | e
    · subst e
      simp only [Nat.add_zero, Nat.mul_zero]
      rw [loadWords_other _ (by omega) (by omega), Vector.getElem_setIfInBounds]
      exact if_pos rfl
    · have := @ih (i + 1) (j - 1) ⟨mb.store, mb.cur + 4⟩ (w.setIfInBounds i (mb.asBuffer.memRead mb.cur 4).toWord32)
        (by simp only [MsgBuffer.blen] at *; omega) (by omega) (by omega)
      have e1 : i + 1 + (j - 1) = i + j := by omega
      have e2 : mb.cur + 4 + 4 * (j - 1) = mb.cur + 4 * j := by omega
      simp only [e1, e2] at this
      exact this

theorem vector8_congr {a b c d e f g h a' b' c' d' e' f' g' h' : Word32} (ha : a = a') (hb : b = b') (hc : c = c')
    (hd : d = d') (he : e = e') (hf : f = f') (hg : g = g') (hh : h = h') :
    #v[a, b, c, d, e, f, g, h] = #v[a', b', c', d', e', f', g', h'] := by
  subst ha hb hc hd he hf hg hh; rfl

/-- The working variables after a round, the two intermediates taken modulo `2^32` (rules R182, R191). -/
theorem roundVars_words (v : Vector Word32 8) (k w : Word32) :
    roundVars v k w = #v[BitVec.ofNat 32 (roundT1 v k w).val + BitVec.ofNat 32 (roundT2 v).val, v[0], v[1], v[2],
      v[3] + BitVec.ofNat 32 (roundT1 v k w).val, v[4], v[5], v[6]] := by
  have ha (x y : Bits) : ((x.add y).mod 32).toWord32 = BitVec.ofNat 32 x.val + BitVec.ofNat 32 y.val := by
    rw [Bits.mod32_toWord32, Bits.val_add, BitVec.ofNat_add]
  have he (x : Bits) : (((Bits.ofWord32 (wordAt v 3)).add x).mod 32).toWord32 = v[3] + BitVec.ofNat 32 x.val := by
    rw [ha, wordAt_eq v (by omega), Bits.val_ofWord32, BitVec.ofNat_toNat, BitVec.setWidth_eq]
  exact vector8_congr (ha _ _) (wordAt_eq v (by omega)) (wordAt_eq v (by omega)) (wordAt_eq v (by omega)) (he _)
    (wordAt_eq v (by omega)) (wordAt_eq v (by omega)) (wordAt_eq v (by omega))

/-! ## The pipeline reads the SHA unit alone -/

/-- Two states agree in the SHA unit (10_state.md rule R25). -/
structure State.SameSha (s t : State) : Prop where
  mb : t.mb = s.mb
  h  : t.h = s.h
  v  : t.v = s.v
  w  : t.w = s.w
  t  : t.t = s.t

theorem stageRounds_same (n : Nat) {s t : State} (e : s.SameSha t) : (stageRounds n s).SameSha (stageRounds n t) := by
  induction n generalizing s t with
  | zero => exact e
  | succ n ih => exact ih ⟨e.mb, e.h, by simp [e.v, e.w, e.t], e.w, by simp [e.t]⟩

theorem stageUpdate_same {s t : State} (e : s.SameSha t) : (stageUpdate s).SameSha (stageUpdate t) :=
  ⟨e.mb, by simp [e.h, e.v], e.v, e.w, e.t⟩

/-- A block reads the message buffer, `H` and `W`, and no more (rule R185). -/
theorem stageBlock_same {s t : State} (hm : t.mb = s.mb) (hh : t.h = s.h) (hw : t.w = s.w) :
    (stageBlock s).SameSha (stageBlock t) :=
  stageUpdate_same (stageRounds_same 64 ⟨by simp [hm, hw], by simpa using hh, by simpa using hh, by simp [hm, hw], by simp⟩)

theorem stageBlocks_same (n : Nat) {s t : State} (e : s.SameSha t) : (stageBlocks n s).SameSha (stageBlocks n t) := by
  induction n generalizing s t with
  | zero => exact e
  | succ n ih =>
    rw [stageBlocks, stageBlocks, e.mb]
    split
    · exact e
    · exact ih (stageBlock_same e.mb e.h e.w)

/-! ## Runs of blocks -/

theorem stageBlocks_store (n : Nat) (s : State) : (stageBlocks n s).mb.store = s.mb.store := by
  induction n generalizing s with
  | zero => rfl
  | succ n ih =>
    rw [stageBlocks]
    split
    · rfl
    · rw [ih, stageBlock_mb, MsgBuffer.load_store]

/-- No block is left: nothing happens, however much fuel there is. -/
theorem stageBlocks_exhausted (n : Nat) {s : State} (h : s.mb.exhausted = true) : stageBlocks n s = s := by
  cases n with
  | zero => rfl
  | succ n => rw [stageBlocks, if_pos h]

theorem stageBlocks_succ (n : Nat) {s : State} (h : s.mb.exhausted = false) :
    stageBlocks (n + 1) s = stageBlocks n (stageBlock s) := by
  rw [stageBlocks, if_neg (by simp [h])]

/-- One block in a message buffer that is in its form and not exhausted. -/
theorem stageBlock_cursor {s : State} (h : s.mb.wf = true) (he : s.mb.exhausted = false) :
    (stageBlock s).mb = ⟨s.mb.store, s.mb.cur + 64⟩ := by
  rw [stageBlock_mb]
  exact MsgBuffer.load h he s.w

/-- `n` blocks, when the message buffer holds them, move the cursor past them; more fuel changes nothing once none is
left. -/
theorem stageBlocks_cursor (n : Nat) {s : State} (hw : s.mb.wf = true) (hn : s.mb.cur + 64 * n ≤ s.mb.blen) :
    (stageBlocks n s).mb = ⟨s.mb.store, s.mb.cur + 64 * n⟩ ∧
    (s.mb.cur + 64 * n = s.mb.blen → ∀ m, stageBlocks (n + m) s = stageBlocks n s) := by
  induction n generalizing s with
  | zero =>
    refine ⟨rfl, fun h m => ?_⟩
    have he : s.mb.exhausted = true := by simp only [MsgBuffer.exhausted, decide_eq_true_eq]; omega
    rw [stageBlocks_exhausted _ he, stageBlocks_exhausted _ he]
  | succ n ih =>
    have he : s.mb.exhausted = false := by simp only [MsgBuffer.exhausted, decide_eq_false_iff_not]; omega
    have hb := stageBlock_cursor hw he
    have hw' : (stageBlock s).mb.wf = true := by rw [stageBlock_mb]; exact MsgBuffer.wf_load hw he s.w
    have hl : (stageBlock s).mb.blen = s.mb.blen := by rw [hb]; rfl
    have hc : (stageBlock s).mb.cur = s.mb.cur + 64 := by rw [hb]
    obtain ⟨i1, i2⟩ := ih hw' (by rw [hl, hc]; omega)
    refine ⟨?_, fun h m => ?_⟩
    · rw [stageBlocks_succ n he, i1, hb]
      simp only [MsgBuffer.mk.injEq, true_and]
      omega
    · rw [show n + 1 + m = n + m + 1 by omega, stageBlocks_succ _ he, stageBlocks_succ _ he]
      exact i2 (by rw [hl, hc]; omega) m

end Sys2Proof.Machine
end

