-- ==== Sys2Proof/Machine/Assembly.lean ====
section
/-! DEFINITION. The spec's assembly notation, 30_encoding.md rule R76: one command per line, mnemonic then operands in the
order destination, sources, integers; `s0` to `s15`, `m0` to `m3`, `#n` in decimal or hexadecimal, `_` for an absent bound,
`BIG` or `LITTLE`, comments from a semicolon, and `.rept n` … `.endr`. The pseudo-instructions' text and byte operands are
in Machine/Pseudo.lean. -/

namespace Sys2Proof.Machine

/-- An operand as written. -/
inductive AsmOperand where
  | reg (r : Reg)
  | slot (m : Slot)
  | int (i : Int)
  | absent
  | order (o : Order)
  deriving DecidableEq, Repr

/-- A decimal numeral; `none` for the empty text and for any other character. -/
def decimal (t : Text) : Option Nat :=
  if t = [] then none
  else t.foldl (fun acc c => acc.bind fun a => if c.isDigit then some (10 * a + (c.toNat - 48)) else none) (some 0)

/-- A hexadecimal numeral. -/
def hexNumeral (t : Text) : Option Nat :=
  if t = [] then none else (hexDigits t).map fun ds => ds.foldl (fun a d => 16 * a + d) 0

/-- `n` in decimal or `0x..` in hexadecimal. -/
def numeral : Text → Option Nat
  | '0' :: 'x' :: rest => hexNumeral rest
  | t => decimal t

/-- One operand. -/
def asmOperand (t : Text) : Option AsmOperand :=
  match t with
  | ['_'] => some .absent
  | ['B', 'I', 'G'] => some (.order .big)
  | ['L', 'I', 'T', 'T', 'L', 'E'] => some (.order .little)
  | '#' :: '-' :: rest => (numeral rest).map fun n => .int (-(n : Int))
  | '#' :: rest => (numeral rest).map fun n => .int n
  | 's' :: rest => (decimal rest).bind fun n => if h : n < 16 then some (.reg ⟨n, h⟩) else none
  | 'm' :: rest => (decimal rest).bind fun n => if h : n < 4 then some (.slot ⟨n, h⟩) else none
  | _ => none

/-- The text without blanks at its ends. -/
def trimBlanks (t : Text) : Text := ((t.dropWhile (· = ' ')).reverse.dropWhile (· = ' ')).reverse

/-- The text split at each comma. -/
def splitCommas : Text → List Text
  | [] => [[]]
  | c :: rest =>
    match splitCommas rest with
    | [] => [[c]]
    | part :: parts => if c = ',' then [] :: part :: parts else (c :: part) :: parts

/-- A line without its comment, as the mnemonic and the operands' texts. -/
def asmParts (line : Text) : Text × List Text :=
  let l := trimBlanks (line.takeWhile (· ≠ ';'))
  let rest := trimBlanks (l.dropWhile (· ≠ ' '))
  (l.takeWhile (· ≠ ' '), if rest = [] then [] else (splitCommas rest).map trimBlanks)

/-- A slice bound as written: `_` or a signed integer. -/
def asmBound : AsmOperand → Option (Option Int)
  | .absent => some none
  | .int i => some (some i)
  | .reg _ => none
  | .slot _ => none
  | .order _ => none

/-- An operand that must be unsigned: a negative one cannot be encoded (rule R72). -/
def asmNat (i : Int) : Option Nat := if i < 0 then none else some i.toNat

/-- Three registers. -/
def asm3 (mk : Reg → Reg → Reg → Instr) : List AsmOperand → Option Instr
  | [.reg rd, .reg ra, .reg rb] => some (mk rd ra rb)
  | _ => none

/-- Two registers and an unsigned integer. -/
def asm2n (mk : Reg → Reg → Nat → Instr) : List AsmOperand → Option Instr
  | [.reg rd, .reg ra, .int n] => (asmNat n).map (mk rd ra)
  | _ => none

/-- One register. -/
def asm1 (mk : Reg → Instr) : List AsmOperand → Option Instr
  | [.reg r] => some (mk r)
  | _ => none

/-- A slot and a register, `BB.PUTW* md, ra`. -/
def asmMR (mk : Slot → Reg → Instr) : List AsmOperand → Option Instr
  | [.slot md, .reg ra] => some (mk md ra)
  | _ => none

/-- A register and a slot. -/
def asmRM (mk : Reg → Slot → Instr) : List AsmOperand → Option Instr
  | [.reg rd, .slot ma] => some (mk rd ma)
  | _ => none

/-- One slot. -/
def asmM (mk : Slot → Instr) : List AsmOperand → Option Instr
  | [.slot ma] => some (mk ma)
  | _ => none

/-- No operand. -/
def asm0 (i : Instr) : List AsmOperand → Option Instr
  | [] => some i
  | _ => none

/-- `BS.LDI rd, #n, #zfill`; the `#zfill` may be omitted and is then 0. -/
def asmLdi : List AsmOperand → Option Instr
  | [.reg rd, .int n] => (asmNat n).map fun n => .bsLdi rd n 0
  | [.reg rd, .int n, .int z] => (asmNat n).bind fun n => (asmNat z).map fun z => .bsLdi rd n z
  | _ => none

/-- `BS.BIT rd, ra, #i`. -/
def asmBit : List AsmOperand → Option Instr
  | [.reg rd, .reg ra, .int i] => some (.bsBit rd ra i)
  | _ => none

/-- `BS.SLICE rd, ra, #start, #stop`. -/
def asmBsSlice : List AsmOperand → Option Instr
  | [.reg rd, .reg ra, a, b] => (asmBound a).bind fun a => (asmBound b).map fun b => .bsSlice rd ra a b
  | _ => none

/-- `BS.EQ ra, rb`. -/
def asmEq : List AsmOperand → Option Instr
  | [.reg ra, .reg rb] => some (.bsEq ra rb)
  | _ => none

/-- `BS.NOT rd, ra`. -/
def asmNot : List AsmOperand → Option Instr
  | [.reg rd, .reg ra] => some (.bsNot rd ra)
  | _ => none

/-- `BB.NEW md, ORDER`; the order may be omitted and is then `BIG`. -/
def asmNew : List AsmOperand → Option Instr
  | [.slot md] => some (.bbNew md .big)
  | [.slot md, .order o] => some (.bbNew md o)
  | _ => none

/-- `BB.PUTB md, #v`. -/
def asmPutb : List AsmOperand → Option Instr
  | [.slot md, .int v] => (asmNat v).map fun v => .bbPutb md v
  | _ => none

/-- `BB.IDX md, ma, #i`. -/
def asmIdx : List AsmOperand → Option Instr
  | [.slot md, .slot ma, .int i] => some (.bbIdx md ma i)
  | _ => none

/-- `BB.SLICE md, ma, #start, #stop`. -/
def asmBbSlice : List AsmOperand → Option Instr
  | [.slot md, .slot ma, a, b] => (asmBound a).bind fun a => (asmBound b).map fun b => .bbSlice md ma a b
  | _ => none

/-- `SYS.RDCSR #csr`. -/
def asmRdcsr : List AsmOperand → Option Instr
  | [.int n] => (asmNat n).map fun n => .sysRdcsr n
  | _ => none

/-- `SHA.RDR rd, #idx`. -/
def asmRdr : List AsmOperand → Option Instr
  | [.reg rd, .int n] => (asmNat n).map fun n => .shaRdr rd n
  | _ => none

/-- `SHA.WRR #idx, ra`. -/
def asmWrr : List AsmOperand → Option Instr
  | [.int n, .reg ra] => (asmNat n).map fun n => .shaWrr n ra
  | _ => none

/-- The syntax of each mnemonic (rule R76's table). -/
def asmTable : List (String × (List AsmOperand → Option Instr)) :=
  [ ("SYS.RESET", asm0 .sysReset), ("SYS.RDCSR", asmRdcsr), ("BS.LDI", asmLdi), ("BS.EMPTY", asm1 .bsEmpty),
    ("BS.JOIN", asm3 .bsJoin), ("BS.BIT", asmBit), ("BS.SLICE", asmBsSlice), ("BS.LEN", asm1 .bsLen), ("BS.EQ", asmEq),
    ("BS.RD", asm1 .bsRd), ("BS.ADD", asm3 .bsAdd), ("BS.ADDI", asm2n .bsAddi), ("BS.AND", asm3 .bsAnd),
    ("BS.OR", asm3 .bsOr), ("BS.XOR", asm3 .bsXor), ("BS.NOT", asmNot), ("BS.SHR", asm2n .bsShr),
    ("BS.ROTL", asm2n .bsRotl), ("BS.ROTR", asm2n .bsRotr), ("BS.MOD", asm2n .bsMod) ]
  ++ [ ("BB.NEW", asmNew), ("BB.PUTB", asmPutb), ("BB.PUTW16", asmMR .bbPutw16), ("BB.PUTW32", asmMR .bbPutw32),
    ("BB.PUTW64", asmMR .bbPutw64), ("BB.PUTW128", asmMR .bbPutw128), ("BB.GETB", asmRM .bbGetb),
    ("BB.GETW16", asmRM .bbGetw16), ("BB.GETW32", asmRM .bbGetw32), ("BB.GETW64", asmRM .bbGetw64),
    ("BB.GETW128", asmRM .bbGetw128), ("BB.IDX", asmIdx), ("BB.SLICE", asmBbSlice), ("BB.LEN", asmM .bbLen),
    ("BB.STR", asmRM .bbStr) ]
  ++ [ ("SHA.INIT", asm0 .shaInit), ("SHA.PAD", asmM .shaPad), ("SHA.LDBLK", asm0 .shaLdblk),
    ("SHA.EXPAND", asm0 .shaExpand), ("SHA.BEGIN", asm0 .shaBegin), ("SHA.ROUND", asm0 .shaRound),
    ("SHA.UPDATE", asm0 .shaUpdate), ("SHA.DIGEST", asm1 .shaDigest), ("SHA.BLOCK", asm0 .shaBlock),
    ("SHA.HASH", asmRM .shaHash), ("SHA.RDR", asmRdr), ("SHA.WRR", asmWrr) ]

/-- One line: the command it stands for; `none` when the line is not of rule R76's syntax or an operand does not fit its
operand word. -/
def assembleLine (line : Text) : Option Instr :=
  let p := asmParts line
  (asmTable.find? fun e => e.1.toList = p.1).bind fun e =>
    (p.2.mapM asmOperand).bind fun ops => (e.2 ops).bind fun i => if i.wf then some i else none

/-- A program, line by line: `.rept n` repeats the lines up to `.endr` `n` times, an empty line stands for nothing. `body`
is the block being collected and its count, if one is open. A `.rept` inside an open block refuses the whole text, as do
an `.endr` without a block and a block without its `.endr`: DESIGN CHOICE, log entry 21, since rule R76 does not say
whether blocks nest. -/
def assembleLines : List Text → Option (Nat × List Instr) → Option (List Instr)
  | [], none => some []
  | [], some _ => none
  | line :: rest, body =>
    let p := asmParts line
    if p.1 = [] then assembleLines rest body
    else if p.1 = ['.', 'e', 'n', 'd', 'r'] then
      match body with
      | none => none
      | some b => (assembleLines rest none).map fun is => (List.replicate b.1 b.2).flatten ++ is
    else
      match body with
      | some b => (assembleLine line).bind fun i => assembleLines rest (some (b.1, b.2 ++ [i]))
      | none =>
        if p.1 = ['.', 'r', 'e', 'p', 't'] then
          match p.2 with
          | [n] => (decimal n).bind fun n => assembleLines rest (some (n, []))
          | _ => none
        else (assembleLine line).bind fun i => (assembleLines rest none).map fun is => i :: is

/-- The commands of a program text. -/
def assemble (lines : List Text) : Option (List Instr) := assembleLines lines none

end Sys2Proof.Machine
end

