-- ==== Sys2Proof/Tests/Slice0.lean ====
section
/-! SUPPORT. Tests. Every expected value comes from the spec: 95_test_vectors.md (its section is named beside a test),
96_sha256_traces.md, or rule R73's table. Then one witness per statement that has hypotheses, each clause at a boundary
value. -/

namespace Sys2Proof.Tests

open Sys2Proof Sys2Proof.Machine

/-! ## Helpers -/

/-- A value of `len` bits. -/
def val (len n : Nat) : Bits := ⟨len, BitVec.ofNat len n⟩

/-- After reset, with two registers loaded. -/
def regs (x y : Bits) : State := (State.reset.setReg 0 x).setReg 1 y

/-- After reset, with a buffer in slot 1 and a value in register 0. -/
def buffer (o : Order) (store : Bits) (cur : Nat) (x : Bits) : State :=
  (State.reset.setSlot 1 ⟨o, store, cur⟩).setReg 0 x

/-- The state with this `MAXW`. -/
def limited (s : State) (m : Nat) : State := { s with maxw := some m }

/-- The state a command leaves; the old one if it stopped. -/
def after (i : Instr) (s : State) : State :=
  match exec i s with
  | .next t => t
  | .fault _ => s
  | .refused _ => s

/-- The state one step leaves; the old one if it stopped. -/
def stepped (s : State) : State :=
  match step s with
  | .next t => t
  | .fault _ => s
  | .refused _ => s

/-- Status and a register after one command. -/
def regAfter (i : Instr) (s : State) (r : Reg) : Option Status × Bits :=
  ((after i s).resp.map Response.status, (after i s).reg r)

/-- Status and a slot after one command. -/
def slotAfter (i : Instr) (s : State) (j : Slot) : Option Status × ByteBuffer :=
  ((after i s).resp.map Response.status, (after i s).slot j)

/-- The response of one command. -/
def answer (i : Instr) (s : State) : Option Response := (after i s).resp

/-- The value used throughout 95_test_vectors.md section 2. -/
def x : Bits := val 8 0b10110011

/-- The padded block of the message "abc" (section 4.2) in the message buffer. -/
def abcBlock : State :=
  { State.reset with mb := ⟨val 512 (0x61626380 * 2 ^ 480 + 0x18), 0⟩ }

/-! ## WellFormed: each check refuses an ill-formed term, and takes the value beside it (rule R72) -/

theorem test_wf_unsigned_refused : (Instr.bsLdi 0 (2 ^ 64) 0).wf = false ∧ (Instr.bsLdi 0 0 (2 ^ 64)).wf = false ∧
    (Instr.sysRdcsr (2 ^ 64)).wf = false ∧ (Instr.bsAddi 0 0 (2 ^ 64)).wf = false ∧ (Instr.bsShr 0 0 (2 ^ 64)).wf = false ∧
    (Instr.bsRotl 0 0 (2 ^ 64)).wf = false ∧ (Instr.bsRotr 0 0 (2 ^ 64)).wf = false ∧
    (Instr.bsMod 0 0 (2 ^ 64)).wf = false ∧ (Instr.bbPutb 0 (2 ^ 64)).wf = false ∧
    (Instr.shaRdr 0 (2 ^ 64)).wf = false ∧ (Instr.shaWrr (2 ^ 64) 0).wf = false := by decide
theorem test_wf_signed_refused : (Instr.bsBit 0 0 (-2 ^ 63 - 1)).wf = false ∧ (Instr.bsBit 0 0 (2 ^ 63)).wf = false ∧
    (Instr.bbIdx 0 0 (-2 ^ 63 - 1)).wf = false ∧ (Instr.bbIdx 0 0 (2 ^ 63)).wf = false := by decide
theorem test_wf_bound_refused : (Instr.bsSlice 0 0 (some (2 ^ 63)) none).wf = false ∧
    (Instr.bsSlice 0 0 none (some (-2 ^ 63 - 1))).wf = false ∧ (Instr.bbSlice 0 0 (some (-2 ^ 63 - 1)) none).wf = false ∧
    (Instr.bbSlice 0 0 none (some (2 ^ 63))).wf = false := by decide
theorem test_wf_accepted : (Instr.bsLdi 0 (2 ^ 64 - 1) (2 ^ 64 - 1)).wf = true ∧ (Instr.bsBit 0 0 (-2 ^ 63)).wf = true ∧
    (Instr.bsBit 0 0 (2 ^ 63 - 1)).wf = true ∧ (Instr.bsSlice 0 0 none (some (-2 ^ 63))).wf = true := by decide

/-! ## Decoding: words written out from rule R73's table, field by field -/

/-- `CMD`, `OPA`, `OPB` decode to the command. -/
def reads (w : BitVec 32) (a b : BitVec 64) (i : Instr) : Bool :=
  match decode ⟨w, a, b⟩ with
  | .ok j => j = i
  | .error _ => false

theorem test_decode_system : reads 0b00000001_0000_0000_0000_0000_00000000#32 7 9 .sysReset = true ∧
    reads 0b00000010_0000_0000_0000_0000_00000000#32 0x1B 0 (.sysRdcsr 0x1B) = true := by decide
theorem test_decode_stream_structure : reads 0b00010000_1111_0000_0000_0000_00000000#32 255 4 (.bsLdi 15 255 4) = true ∧
    reads 0b00010001_0011_0000_0000_0000_00000000#32 0 0 (.bsEmpty 3) = true ∧
    reads 0b00010010_0001_0010_0011_0000_00000000#32 0 0 (.bsJoin 1 2 3) = true ∧
    reads 0b00010011_0001_0000_0000_0000_00000000#32 0xFFFFFFFFFFFFFFFF 0 (.bsBit 1 0 (-1)) = true := by decide
theorem test_decode_stream_slice : reads 0x14100200#32 2 5 (.bsSlice 1 0 (some 2) none) = true ∧
    reads 0x14100100#32 2 0xFFFFFFFFFFFFFFFA (.bsSlice 1 0 none (some (-6))) = true ∧
    reads 0x14210300#32 2 5 (.bsSlice 2 1 none none) = true ∧ reads 0x14210000#32 2 5 (.bsSlice 2 1 (some 2) (some 5)) = true
    := by decide
theorem test_decode_stream_answers : reads 0x15020000#32 0 0 (.bsLen 2) = true ∧
    reads 0x160AB000#32 0 0 (.bsEq 10 11) = true ∧ reads 0x17010000#32 0 0 (.bsRd 1) = true := by decide
theorem test_decode_stream_arithmetic : reads 0x20201000#32 0 0 (.bsAdd 2 0 1) = true ∧
    reads 0x21220000#32 1 0 (.bsAddi 2 2 1) = true ∧ reads 0x29990000#32 0x20 0 (.bsMod 9 9 32) = true := by decide
theorem test_decode_stream_logic : reads 0x22845000#32 0 0 (.bsAnd 8 4 5) = true ∧
    reads 0x23123000#32 0 0 (.bsOr 1 2 3) = true ∧
    reads 0b00100100_0011_0001_0010_0000_00000000#32 0 0 (.bsXor 3 1 2) = true ∧
    reads 0x25940000#32 0 0 (.bsNot 9 4) = true := by decide
theorem test_decode_stream_shifts : reads 0x26300000#32 3 0 (.bsShr 3 0 3) = true ∧
    reads 0x27120000#32 5 0 (.bsRotl 1 2 5) = true ∧ reads 0x28840000#32 6 0 (.bsRotr 8 4 6) = true := by decide
theorem test_decode_buffer_stores : reads 0b00110000_0010_0000_0000_0001_00000000#32 0 0 (.bbNew 2 .little) = true ∧
    reads 0x30000000#32 0 0 (.bbNew 0 .big) = true ∧ reads 0x31100000#32 0xAA 0 (.bbPutb 1 0xAA) = true ∧
    reads 0x32100000#32 0 0 (.bbPutw16 1 0) = true ∧ reads 0x33100000#32 0 0 (.bbPutw32 1 0) = true ∧
    reads 0x34250000#32 0 0 (.bbPutw64 2 5) = true ∧ reads 0x353F0000#32 0 0 (.bbPutw128 3 15) = true := by decide
theorem test_decode_buffer_loads : reads 0x36510000#32 0 0 (.bbGetb 5 1) = true ∧
    reads 0x37210000#32 0 0 (.bbGetw16 2 1) = true ∧ reads 0x38620000#32 0 0 (.bbGetw32 6 2) = true ∧
    reads 0x39710000#32 0 0 (.bbGetw64 7 1) = true ∧ reads 0x3AF30000#32 0 0 (.bbGetw128 15 3) = true := by decide
theorem test_decode_buffer_rest : reads 0x3B310000#32 0xFFFFFFFFFFFFFFFF 0 (.bbIdx 3 1 (-1)) = true ∧
    reads 0x3C210300#32 1 2 (.bbSlice 2 1 none none) = true ∧ reads 0x3C210200#32 1 2 (.bbSlice 2 1 (some 1) none) = true ∧
    reads 0x3D030000#32 0 0 (.bbLen 3) = true ∧ reads 0x3E110000#32 0 0 (.bbStr 1 1) = true := by decide
theorem test_decode_sha_pipeline : reads 0x40000000#32 0 0 .shaInit = true ∧ reads 0x41030000#32 0 0 (.shaPad 3) = true ∧
    reads 0x42000000#32 0 0 .shaLdblk = true ∧ reads 0x43000000#32 0 0 .shaExpand = true ∧
    reads 0x44000000#32 0 0 .shaBegin = true ∧ reads 0b01000101_0000_0000_0000_0000_00000000#32 0 0 .shaRound = true ∧
    reads 0x46000000#32 0 0 .shaUpdate = true ∧ reads 0x47900000#32 0 0 (.shaDigest 9) = true := by decide
theorem test_decode_sha_rest : reads 0x48000000#32 0 0 .shaBlock = true ∧ reads 0x49100000#32 0 0 (.shaHash 1 0) = true ∧
    reads 0x4A400000#32 0x4F 0 (.shaRdr 4 79) = true ∧ reads 0x4B000000#32 0x10 0 (.shaWrr 16 0) = true := by decide

/-- The decoder's reason for rejecting a word. -/
def rejects (w : BitVec 32) : Option Illegal :=
  match decode ⟨w, 0, 0⟩ with
  | .ok _ => none
  | .error e => some e

/-- Section 6, the illegal words. -/
theorem test_illegal_opcodes : rejects 0x00000000#32 = some .unassignedOpcode ∧
    rejects 0xFFFFFFFF#32 = some .unassignedOpcode ∧ rejects 0x03000000#32 = some .unassignedOpcode ∧
    rejects 0x18000000#32 = some .unassignedOpcode ∧ rejects 0x2A000000#32 = some .unassignedOpcode ∧
    rejects 0x3F000000#32 = some .unassignedOpcode ∧ rejects 0x4C000000#32 = some .unassignedOpcode := by decide
theorem test_illegal_flags : rejects 0x24312001#32 = some .reservedNotZero ∧
    rejects 0x24312100#32 = some .undefinedFlag ∧ rejects 0x30200200#32 = some .undefinedFlag ∧
    rejects 0x14100400#32 = some .undefinedFlag ∧ rejects 0x01000100#32 = some .undefinedFlag := by decide
theorem test_illegal_fields : rejects 0x30400000#32 = some .slotOutOfRange ∧ rejects 0x36140000#32 = some .slotOutOfRange ∧
    rejects 0x15120000#32 = some .unusedNotZero ∧ rejects 0x40100000#32 = some .unusedNotZero ∧
    rejects 0x4B100000#32 = some .unusedNotZero ∧ rejects 0x25941000#32 = some .unusedNotZero := by decide

/-! ## The step and the table's numbering -/

theorem test_table_word : decodeTableWord 32 0x24312000 = some (.bsXor 3 1 2) ∧
    decodeTableWord 96 (0x21220000 + 5 * 2 ^ 32) = some (.bsAddi 2 2 5) ∧
    decodeTableWord 160 (0x10F00000 + 255 * 2 ^ 32 + 4 * 2 ^ 96) = some (.bsLdi 15 255 4) ∧
    decodeTableWord 32 0x10F00000 = some (.bsLdi 15 0 0) := by decide
/-- P1's first command, presented at the port after reset. -/
theorem test_step : stepped (State.reset.withFetchWord 160 (0x10000000 + 5 * 2 ^ 32 + 8 * 2 ^ 96)) =
    (State.reset.setReg 0 (val 8 5)).respond .ok 0 Bits.empty := by decide
theorem test_step_illegal : stepped (State.reset.withFetchWord 32 0xFFFFFFFF) = State.reset.faulted .illegalCommand := by
  decide
/-- Rule R76: the assembler's text of section 6 and its defaults. -/
theorem test_assemble : assembleLine ("BS.SLICE s1, s0, _, #-6".toList) = some (.bsSlice 1 0 none (some (-6))) ∧
    assembleLine ("BS.LDI s5, #0x18 ; default width".toList) = some (.bsLdi 5 0x18 0) ∧
    assembleLine ("BB.NEW m0".toList) = some (.bbNew 0 .big) := by decide +kernel

/-! ## System commands (section 5) -/

theorem test_rdcsr_t : answer (.sysRdcsr 0x01) State.reset = some ⟨.ok, 64, Bits.empty⟩ := by decide
theorem test_rdcsr_unlisted : answer (.sysRdcsr 0x1C) State.reset = some ⟨.operandDomain, 0, Bits.empty⟩ := by decide
theorem test_reset_command : after .sysReset (after .shaRound (regs x x)) = State.reset.done := by decide

/-! ## BitStream commands (section 2) -/

theorem test_ldi_zero : regAfter (.bsLdi 2 0 0) State.reset 2 = (some .ok, val 1 0) := by decide
theorem test_ldi_wider : regAfter (.bsLdi 2 255 4) State.reset 2 = (some .ok, val 8 255) := by decide
theorem test_empty : regAfter (.bsEmpty 0) (regs x x) 0 = (some .ok, Bits.empty) := by decide
theorem test_join : regAfter (.bsJoin 0 0 1) (regs (val 2 0b10) (val 3 0b011)) 0 = (some .ok, val 5 0b10011) := by decide
theorem test_bit_negative : regAfter (.bsBit 2 0 (-8)) (regs (val 8 0b10000000) x) 2 = (some .ok, val 1 1) := by decide
theorem test_bit_range : regAfter (.bsBit 0 0 8) (regs x x) 0 = (some .indexShape, x) := by decide
theorem test_slice_clamped : regAfter (.bsSlice 2 0 (some 6) (some 100)) (regs x x) 2 = (some .ok, val 2 0b11) := by decide
theorem test_slice_negative : regAfter (.bsSlice 2 0 (some (-3)) none) (regs x x) 2 = (some .ok, val 3 0b011) := by decide
theorem test_len : answer (.bsLen 0) (regs x x) = some ⟨.ok, 8, Bits.empty⟩ := by decide
theorem test_eq_width : answer (.bsEq 0 1) (regs (val 4 3) (val 2 3)) = some ⟨.ok, 0, Bits.empty⟩ := by decide
theorem test_eq_same : answer (.bsEq 0 1) (regs (val 4 3) (val 4 3)) = some ⟨.ok, 1, Bits.empty⟩ := by decide
theorem test_rd : answer (.bsRd 0) (regs x x) = some ⟨.ok, 0, val 8 0b10110011⟩ := by decide
theorem test_add_carry : regAfter (.bsAdd 0 0 1) (regs (val 4 15) (val 4 1)) 0 = (some .ok, val 5 0b10000) := by decide
theorem test_add_empty : regAfter (.bsAdd 2 0 1) (regs Bits.empty Bits.empty) 2 = (some .ok, val 1 0) := by decide
theorem test_addi : regAfter (.bsAddi 2 0 5) (regs (val 4 3) x) 2 = (some .ok, val 4 0b1000) := by decide
theorem test_addi_empty : regAfter (.bsAddi 2 0 5) (regs Bits.empty x) 2 = (some .ok, val 3 5) := by decide
theorem test_and : regAfter (.bsAnd 2 0 1) (regs (val 4 0b1100) (val 2 0b10)) 2 = (some .ok, val 4 0) := by decide
theorem test_or : regAfter (.bsOr 2 0 1) (regs (val 2 0b10) (val 4 0b1100)) 2 = (some .ok, val 4 0b1110) := by decide
theorem test_xor : regAfter (.bsXor 2 0 1) (regs (val 4 0b0011) (val 4 0b0101)) 2 = (some .ok, val 4 0b0110) := by decide
theorem test_not : regAfter (.bsNot 2 0) (regs (val 4 0b0011) x) 2 = (some .ok, val 4 0b1100) := by decide
theorem test_shr : regAfter (.bsShr 2 0 3) (regs x x) 2 = (some .ok, val 8 0b00010110) := by decide
theorem test_shr_zero : regAfter (.bsShr 0 1 0) (regs (val 1 1) x) 0 = (some .operandDomain, val 1 1) := by decide
theorem test_rotl : regAfter (.bsRotl 2 0 11) (regs x x) 2 = (some .ok, val 8 0b10011101) := by decide
theorem test_rotl_large : regAfter (.bsRotl 2 0 (2 ^ 64 - 1)) (regs x x) 2 = (some .ok, val 8 0b11011001) := by decide
theorem test_rotr : regAfter (.bsRotr 2 0 3) (regs x x) 2 = (some .ok, val 8 0b01110110) := by decide
theorem test_rotr_empty : regAfter (.bsRotr 0 1 5) (regs x Bits.empty) 0 = (some .ok, Bits.empty) := by decide
theorem test_mod : regAfter (.bsMod 2 0 4) (regs x x) 2 = (some .ok, val 4 0b0011) := by decide
theorem test_mod_short : regAfter (.bsMod 2 0 32) (regs (val 2 2) x) 2 = (some .ok, val 2 2) := by decide
/-- Rule R35: with `MAXW = 4` the carry of section 2.2 does not fit. -/
theorem test_capacity : after (.bsAdd 2 0 1) (limited (regs (val 4 15) (val 4 1)) 4) =
    (limited (regs (val 4 15) (val 4 1)) 4).faulted .capacity := by decide

/-! ## ByteBuffer commands (section 3) -/

theorem test_new : slotAfter (.bbNew 1 .little) (buffer .big (val 8 1) 1 x) 1 = (some .ok, ⟨.little, Bits.empty, 0⟩) := by decide
theorem test_putb : slotAfter (.bbPutb 1 0xAA) (buffer .little (val 8 0x11) 1 x) 1 =
    (some .ok, ⟨.little, val 16 0x11AA, 1⟩) := by decide
theorem test_putb_range : slotAfter (.bbPutb 1 256) (buffer .big (val 8 0x11) 0 x) 1 =
    (some .widthMismatch, ⟨.big, val 8 0x11, 0⟩) := by decide
theorem test_putw16 : slotAfter (.bbPutw16 1 0) (buffer .little (val 8 0x11) 0 (val 16 5)) 1 =
    (some .ok, ⟨.little, val 24 0x110500, 0⟩) := by decide
theorem test_putw16_width : slotAfter (.bbPutw16 1 0) (buffer .little (val 8 0x11) 0 (val 3 5)) 1 =
    (some .widthMismatch, ⟨.little, val 8 0x11, 0⟩) := by decide
theorem test_putw32 : slotAfter (.bbPutw32 1 0) (buffer .little Bits.empty 0 (val 32 0x11223344)) 1 =
    (some .ok, ⟨.little, val 32 0x44332211, 0⟩) := by decide
theorem test_putw32_big : slotAfter (.bbPutw32 1 0) (buffer .big Bits.empty 0 (val 32 0x11223344)) 1 =
    (some .ok, ⟨.big, val 32 0x11223344, 0⟩) := by decide
theorem test_putw64 : slotAfter (.bbPutw64 1 0) (buffer .little Bits.empty 0 (val 64 0x0102030405060708)) 1 =
    (some .ok, ⟨.little, val 64 0x0807060504030201, 0⟩) := by decide
theorem test_putw128 :
    slotAfter (.bbPutw128 1 0) (buffer .little Bits.empty 0 (val 128 0x0102030405060708090a0b0c0d0e0f10)) 1 =
    (some .ok, ⟨.little, val 128 0x100f0e0d0c0b0a090807060504030201, 0⟩) := by decide
theorem test_getb : after (.bbGetb 0 1) (buffer .little (val 24 0x112233) 1 x) =
    ((buffer .little (val 24 0x112233) 2 (val 8 0x22)).respond .ok 0 Bits.empty) := by decide
theorem test_getb_exhausted : after (.bbGetb 0 1) (buffer .little (val 24 0x112233) 3 x) =
    ((buffer .little (val 24 0x112233) 3 Bits.empty).respond .exhausted 0 Bits.empty) := by decide
theorem test_getw16 : after (.bbGetw16 0 1) (buffer .little (val 32 0x44332211) 0 x) =
    ((buffer .little (val 32 0x44332211) 2 (val 16 0x3344)).respond .ok 0 Bits.empty) := by decide
theorem test_getw16_short : after (.bbGetw16 0 1) (buffer .big (val 32 0x1122335a) 3 x) =
    ((buffer .big (val 32 0x1122335a) 4 (val 8 0x5a)).respond .ok 0 Bits.empty) := by decide
theorem test_getw32 : regAfter (.bbGetw32 0 1) (buffer .little (val 56 0x44332211aaefbe) 3 x) 0 =
    (some .ok, val 32 0xbeefaa11) := by decide
theorem test_getw64 : regAfter (.bbGetw64 0 1) (buffer .little (val 64 0x0807060504030201) 0 x) 0 =
    (some .ok, val 64 0x0102030405060708) := by decide
theorem test_getw128 :
    regAfter (.bbGetw128 0 1) (buffer .little (val 128 0x100f0e0d0c0b0a090807060504030201) 0 x) 0 =
    (some .ok, val 128 0x0102030405060708090a0b0c0d0e0f10) := by decide
theorem test_idx : slotAfter (.bbIdx 2 1 (-1)) (buffer .little (val 40 0x44332211aa) 5 x) 2 =
    (some .ok, ⟨.little, val 8 0xaa, 0⟩) := by decide
theorem test_idx_range : slotAfter (.bbIdx 1 1 (-9)) (buffer .big (val 64 0x11223344aabeef5a) 8 x) 1 =
    (some .indexShape, ⟨.big, val 64 0x11223344aabeef5a, 8⟩) := by decide
theorem test_bb_slice : slotAfter (.bbSlice 2 1 (some 1) (some 5)) (buffer .little (val 64 0x44332211aaefbe5a) 8 x) 2 =
    (some .ok, ⟨.little, val 32 0x332211aa, 0⟩) := by decide
theorem test_bb_slice_empty : slotAfter (.bbSlice 1 1 (some 5) (some 2)) (buffer .big (val 64 0x11223344aabeef5a) 8 x) 1 =
    (some .ok, ⟨.big, Bits.empty, 0⟩) := by decide
theorem test_bb_len : answer (.bbLen 1) (buffer .little (val 56 0x44332211aaefbe) 3 x) = some ⟨.ok, 7, Bits.empty⟩ := by decide
theorem test_bb_str : regAfter (.bbStr 0 1) (buffer .little (val 40 0x44332211aa) 5 x) 0 = (some .ok, val 40 0x44332211aa) := by
  decide

/-! ## SHA commands (sections 4.1 to 4.5, 96_sha256_traces.md section 1) -/

theorem test_mixing : smallSigma0 (val 32 0x6a09e667) = val 32 0xba0cf582 ∧ smallSigma1 (val 32 0x6a09e667) = val 32 0xcfe5da3c ∧
    bigSigma0 (val 32 0x6a09e667) = val 32 0xce20b47e ∧ bigSigma1 (val 32 0x6a09e667) = val 32 0x55b65510 ∧
    choice (val 32 0x6a09e667) (val 32 0xbb67ae85) (val 32 0x3c6ef372) = val 32 0x3e67b715 ∧
    majority (val 32 0x6a09e667) (val 32 0xbb67ae85) (val 32 0x3c6ef372) = val 32 0x3a6fe667 := by decide +kernel
theorem test_init : (after .shaInit State.reset).h[7] = 0x5be0cd19#32 ∧ (after .shaInit State.reset).v[7] = 0#32 := by decide
theorem test_pad_abc : (after (.shaPad 1) (buffer .little (val 24 0x616263) 3 x)).mb = abcBlock.mb := by decide +kernel
theorem test_pad_length : (padding (val 440 0)).len = 512 ∧ (padding (val 448 0)).len = 1024 ∧ padZeros 119 = 0 ∧
    padZeros 120 = 63 := by decide +kernel
theorem test_ldblk : (after .shaLdblk abcBlock).w[0] = 0x61626380#32 ∧ (after .shaLdblk abcBlock).w[15] = 0x18#32 ∧
    (after .shaLdblk abcBlock).mb.cur = 64 := by decide +kernel
theorem test_ldblk_exhausted : after .shaLdblk State.reset = State.reset.respond .exhausted 0 Bits.empty := by decide
theorem test_expand : (after .shaExpand (after .shaLdblk abcBlock)).w[16] = 0x61626380#32 ∧
    (after .shaExpand (after .shaLdblk abcBlock)).w[18] = 0x7da86405#32 ∧
    (after .shaExpand (after .shaLdblk abcBlock)).w[63] = 0x12b1edeb#32 := by decide +kernel
theorem test_begin : (after .shaBegin (after .shaInit State.reset)).v = romIV ∧
    (after .shaBegin (after .shaInit State.reset)).t = 0 := by decide
/-- Round 0 of the message "abc". -/
theorem test_round : (after .shaRound (after .shaBegin (after .shaInit (after .shaLdblk abcBlock)))).v =
    #v[0x5d6aebcd#32, 0x6a09e667#32, 0xbb67ae85#32, 0x3c6ef372#32, 0xfa2a4622#32, 0x510e527f#32, 0x9b05688c#32,
      0x1f83d9ab#32] := by decide +kernel
theorem test_round_sequence : after .shaRound State.reset = State.reset.faulted .sequence := by decide
/-- The last line of the trace: `H` after the one block. -/
theorem test_update : (after .shaUpdate { State.reset with h := romIV, v := #v[0x506e3058#32, 0xd39a2165#32, 0x04d24d6c#32,
      0xb85e2ce9#32, 0x5ef50f24#32, 0xfb121210#32, 0x948d25b6#32, 0x961f4894#32] }).h =
    #v[0xba7816bf#32, 0x8f01cfea#32, 0x414140de#32, 0x5dae2223#32, 0xb00361a3#32, 0x96177a9c#32, 0xb410ff61#32,
      0xf20015ad#32] := by decide +kernel
theorem test_digest : regAfter (.shaDigest 3) (after .shaInit State.reset) 3 =
    (some .ok, val 256 0x6a09e667bb67ae853c6ef372a54ff53a510e527f9b05688c1f83d9ab5be0cd19) := by decide +kernel
theorem test_block_exhausted : after .shaBlock State.reset = State.reset.respond .exhausted 0 Bits.empty := by decide
/-- Section 4.4: the message "abc". -/
theorem test_hash_abc : ((after (.shaHash 3 1) (buffer .big (val 24 0x616263) 0 x)).reg 3) =
    val 256 0xba7816bf8f01cfea414140de5dae2223b00361a396177a9cb410ff61f20015ad := by decide +kernel
theorem test_rdr : regAfter (.shaRdr 0 143) (regs x x) 0 = (some .ok, val 32 0xc67178f2) ∧
    regAfter (.shaRdr 0 144) (regs x x) 0 = (some .ok, val 32 0x6a09e667) := by decide +kernel
theorem test_rdr_range : regAfter (.shaRdr 0 152) (regs x x) 0 = (some .operandDomain, x) := by decide
theorem test_wrr : (after (.shaWrr 31 0) (regs (val 32 0x18) x)).w[15] = 0x18#32 := by decide
theorem test_wrr_priority : answer (.shaWrr 80 0) (regs (val 3 5) x) = some ⟨.operandDomain, 0, Bits.empty⟩ ∧
    answer (.shaWrr 0 0) (regs (val 3 5) x) = some ⟨.widthMismatch, 0, Bits.empty⟩ := by decide

/-! ## Host side (section 5) -/

theorem test_from_bytes : fromBytes [0#8, 1#8] = val 1 1 ∧ fromBytes [] = val 1 0 := by decide +kernel
theorem test_from_char : fromChar [0x20AC] = .ok (val 24 0xe282ac) ∧ fromChar [0xD800] = .error .malformedValue := by decide +kernel
/-- Rule R221: the order is `BIG` when it is not given, and the store is the same in both orders. -/
theorem test_buffer_from_hex_default : bufferFromHex ['1', '1', '2', '2'] = .ok ⟨.big, val 16 0x1122, 0⟩ ∧
    bufferFromHex ['1', '1', '2', '2'] .little = .ok ⟨.little, val 16 0x1122, 0⟩ ∧
    (Pseudo.bbFromHex 1 ['1', '1']).expand = .ok [.bbNew 1 .big, .bbPutb 1 0x11] := by decide +kernel
/-- Rule R215: no truncation, the default width, and the refusals of a negative integer, a negative and a non-integer
width. -/
theorem test_from_int : hostFromInt 255 (.int 4) = .ok (val 8 255) ∧ hostFromInt 0 = .ok (val 1 0) ∧
    hostFromInt (-1) (.int 8) = .error .malformedValue ∧ hostFromInt 5 (.int (-1)) = .error .malformedValue ∧
    hostFromInt 5 .other = .error .malformedValue := by decide +kernel
theorem test_from_int_expansion : (Pseudo.bsFromInt 0 5 (.int 8)).expand = .ok [.bsLdi 0 5 8] ∧
    (Pseudo.bsFromUint 0 5 .other).expand = .error .malformedValue := ⟨rfl, rfl⟩
theorem test_from_hex : fromHex ['A'] = .ok (val 4 10) ∧ fromHex ['0', 'g'] = .error .malformedValue := by decide +kernel
theorem test_hex_out : hexOut (val 12 0x0a0) = .ok ['0', 'a', '0'] ∧ hexOut (val 3 5) = .error .widthMismatch := by decide +kernel

/-! ## Witnesses: for each statement with hypotheses, inputs that meet them, clause by clause at boundary values -/

theorem room_limited {s : State} {n m : Nat} (h : n ≤ m) : Room (limited s m) n := by
  intro k hk
  cases hk
  exact h

theorem room_unlimited {s : State} {n : Nat} (h : s.maxw = none) : Room s n := by
  intro k hk
  rw [h] at hk
  cases hk

theorem not_room_limited {s : State} {n m : Nat} (h : m < n) : ¬ Room (limited s m) n := by
  intro hr
  exact absurd (hr m rfl) (by omega)

/-- Both cases of `WritesReg` and `WritesSlot` (and of SHA.PAD): a value of exactly `MAXW` bits fits, one bit more does
not. -/
theorem witness_room : Room (limited State.reset 8) 8 ∧ ¬ Room (limited State.reset 8) 9 ∧ Room State.reset 0 :=
  ⟨room_limited (by decide), not_room_limited (by decide), room_unlimited rfl⟩

theorem witness_DecodeEncodeRoundTrip : (Instr.bsLdi 15 (2 ^ 64 - 1) 0).WellFormed ∧ (Instr.bsBit 0 15 (-2 ^ 63)).WellFormed ∧
    (Instr.bbSlice 3 0 none (some (2 ^ 63 - 1))).WellFormed := by decide
theorem witness_DecodedWordIsTheEncodedWord : decode ⟨0x3C210300#32, 1, 2⟩ = .ok (.bbSlice 2 1 none none) := by decide
theorem witness_DecoderFollowsOpcodeTable : (∃ r ∈ opcodeTable, r.selects 0x4B0F0000#32 = true) ∧
    (∀ r ∈ opcodeTable, r.selects 0x4C000000#32 = false) := by decide +kernel
theorem witness_OperandWords : (∃ e, decode ⟨0xFFFFFFFF#32, 0, 0⟩ = .error e) ∧
    (0x13100000#32).extractLsb' 24 8 ∉ [0x10#8, 0x14#8, 0x3C#8] ∧
    (0x12100000#32).extractLsb' 24 8 ∉ [0x02#8, 0x10#8, 0x13#8, 0x14#8, 0x21#8, 0x26#8, 0x27#8, 0x28#8, 0x29#8, 0x31#8, 0x3B#8,
      0x3C#8, 0x4A#8, 0x4B#8] ∧
    (0x14100100#32).extractLsb' 24 8 ∈ [0x14#8, 0x3C#8] ∧ (0x14100100#32).getLsbD 8 = true ∧ (0x3C100200#32).getLsbD 9 = true ∧
    (0x3C100200#32).extractLsb' 24 8 ∈ [0x14#8, 0x3C#8] := ⟨⟨.unassignedOpcode, by decide⟩, by decide⟩
/-- A state with a command, or the reset input, next at the port. -/
def presenting (e : PortEvent) : State := { State.reset with port := [e, .resetInput] }
theorem witness_StepRunsDecodedCommand : (presenting (.command ⟨0x24312000#32, 0, 0⟩)).port =
    .command ⟨0x24312000#32, 0, 0⟩ :: [.resetInput] ∧ decode ⟨0x24312000#32, 0, 0⟩ = .ok (.bsXor 3 1 2) := by decide
theorem witness_IllegalCommandIsRaised : (presenting (.command ⟨0x24312100#32, 0, 0⟩)).port =
    .command ⟨0x24312100#32, 0, 0⟩ :: [.resetInput] ∧ ∀ r ∈ opcodeTable, r.selects 0x24312100#32 = false := by decide +kernel
/-- The second clause's list, each disjunct at its ends. -/
theorem witness_IllegalCommandIsRaised_words : (0x00100000#32).extractLsb' 24 8 = 0x00#8 ∧
    0x03#8 ≤ (0x03000000#32).extractLsb' 24 8 ∧ (0x0F000000#32).extractLsb' 24 8 ≤ 0x0F#8 ∧
    0x18#8 ≤ (0x18000000#32).extractLsb' 24 8 ∧ (0x1F000000#32).extractLsb' 24 8 ≤ 0x1F#8 ∧
    0x2A#8 ≤ (0x2A000000#32).extractLsb' 24 8 ∧ (0x2F000000#32).extractLsb' 24 8 ≤ 0x2F#8 ∧
    (0x3F000000#32).extractLsb' 24 8 = 0x3F#8 ∧ 0x4C#8 ≤ (0x4C000000#32).extractLsb' 24 8 ∧
    (0x24312001#32).extractLsb' 0 8 ≠ 0#8 ∧ (0x14100400#32).extractLsb' 10 2 ≠ 0#2 := by decide
theorem witness_IllegalCommandIsRaised_mask : ∃ r ∈ opcodeTable,
    (0x36140000#32).extractLsb' 24 8 = r.pat.extractLsb' 24 8 ∧ 0x36140000#32 &&& r.mask ≠ r.pat := by decide +kernel
theorem witness_PortOfTheModel : State.reset.port = [] ∧ decodeTableWord 32 0x45000000 = some .shaRound := by decide
theorem witness_BothResetsGiveTheResetState : (presenting .resetInput).port = .resetInput :: [.resetInput] := by decide

theorem reset_inv : State.Inv State.reset where
  memory := by decide
  regs := by decide
  stores := by decide
  msg := by decide
  rounds := by decide

/-- A state with the cursor of every buffer inside it, a block half done, and `MAXW` just enough. -/
def busy : State :=
  limited { (buffer .little (val 24 0x112233) 3 (val 32 7)).setSlot 2 ⟨.big, val 16 0xbeef, 1⟩ with
    mb := ⟨val 512 5, 64⟩, t := 63 } 512

theorem busy_inv : State.Inv busy where
  memory := by decide
  regs := by decide
  stores := by decide
  msg := by decide
  rounds := by decide

theorem witness_StepKeepsInvariant : busy.Inv ∧ (∃ t, step busy = .next t) ∧
    ∃ t, step (busy.withFetchWord 32 0x45000000) = .next t :=
  ⟨busy_inv, ⟨_, rfl⟩, ⟨after .shaRound busy, rfl⟩⟩
/-- Rules R249, R30, R258, R35: a command that faults, one that answers, and one that ends with `Capacity`. -/
theorem witness_FaultsArePrecise : exec (.bsBit 0 0 8) (regs x x) = .next ((regs x x).faulted .indexShape) ∧
    Status.indexShape.isError = true ∧ (presenting (.command ⟨0x24312100#32, 0, 0⟩)).port =
      .command ⟨0x24312100#32, 0, 0⟩ :: [.resetInput] ∧
    step (presenting (.command ⟨0x24312100#32, 0, 0⟩)) = .next (State.faulted
      { presenting (.command ⟨0x24312100#32, 0, 0⟩) with port := [.resetInput] } .illegalCommand) := ⟨rfl, rfl, rfl, rfl⟩
theorem witness_StickyErrorBit : (presenting (.command ⟨0x17010000#32, 0, 0⟩)).port = .command ⟨0x17010000#32, 0, 0⟩ :: [.resetInput] ∧
    decode ⟨0x17010000#32, 0, 0⟩ ≠ .ok .sysReset ∧ (∃ t, exec .sysReset (State.reset.faulted .sequence) = .next t) :=
  ⟨rfl, by decide, ⟨_, rfl⟩⟩
theorem witness_ResponseFields : answer (.bsLen 0) (regs x x) = some ⟨.ok, 8, Bits.empty⟩ ∧
    answer (.bsRd 0) (regs x x) = some ⟨.ok, 0, x⟩ ∧ x ≠ Bits.empty ∧
    answer .shaRound State.reset = some ⟨.sequence, 0, Bits.empty⟩ := by decide
/-- A one-byte read with `MAXW = 7`; and a state that meets the invariant. -/
theorem witness_StatusesOfEachCommand : busy.Inv ∧ answer (.bbGetb 0 1) busy = some ⟨.exhausted, 0, Bits.empty⟩ ∧
    (Instr.shaDigest 0).fixedSize = some 256 ∧
    answer (.shaDigest 0) (limited State.reset 255) = some ⟨.capacity, 0, Bits.empty⟩ ∧
    (limited State.reset 255).Inv :=
  ⟨busy_inv, by decide, rfl, by decide +kernel, ⟨by decide, by decide, by decide, by decide, by decide⟩⟩
theorem witness_CapacityBoundsEveryWrite : (regs x x).maxw = none ∧ (after (.bsAdd 2 0 1) (regs x x)).reg 2 ≠ (regs x x).reg 2 ∧
    (after (.bbPutb 0 1) State.reset).slot 0 ≠ State.reset.slot 0 := by decide
theorem witness_RegistersChangeOnlyAsDestination : Instr.bsAdd 2 0 1 ≠ .sysReset ∧ (Instr.bsAdd 2 0 1).dest ≠ some 0 ∧
    (Instr.bsRd 0).dest ≠ some 0 := by decide
theorem witness_BuffersKeepTheirInvariants : ((buffer .little (val 24 0x112233) 3 x).slot 1).wf = true ∧
    (Instr.bbIdx 1 1 0).slotUse = some (1, .construct) ∧ (Instr.bbPutb 1 0).slotUse = some (1, .append 1) ∧
    (Instr.bbGetb 0 1).slotUse = some (1, .read) ∧ (Instr.bbPutb 1 0).slotUse ≠ some (1, .construct) ∧
    (Instr.bbGetb 0 1).slotUse ≠ some (1, .construct) := by decide
/-- Each of the five forms, in both orders, the first and the last byte stored. -/
theorem witness_StoredBytes : (∀ o : Order, o = .big ∨ o = .little) ∧
    ((buffer .little (val 8 1) 1 (val 16 2)).slot 1).wf = true ∧
    answer (.bbPutb 1 255) (buffer .little (val 8 1) 1 x) = some ⟨.ok, 0, Bits.empty⟩ ∧
    answer (.bbPutw16 1 0) (buffer .little (val 8 1) 1 (val 16 2)) = some ⟨.ok, 0, Bits.empty⟩ ∧
    answer (.bbPutw32 1 0) (buffer .big (val 8 1) 1 (val 32 2)) = some ⟨.ok, 0, Bits.empty⟩ ∧
    answer (.bbPutw64 1 0) (buffer .big (val 8 1) 1 (val 64 2)) = some ⟨.ok, 0, Bits.empty⟩ ∧
    answer (.bbPutw128 1 0) (buffer .little (val 8 1) 1 (val 128 2)) = some ⟨.ok, 0, Bits.empty⟩ :=
  ⟨fun o => by cases o <;> simp, by decide, by decide, by decide, by decide, by decide, by decide⟩
theorem witness_ShaUnitFrame : ShaPart.h ∉ (Instr.shaLdblk).shaParts ∧ ShaPart.v ∉ (Instr.shaWrr 7 0).shaParts ∧
    ShaPart.h ∉ (Instr.shaWrr 8 0).shaParts ∧ ShaPart.w ∉ (Instr.shaWrr 15 0).shaParts ∧
    ShaPart.v ∉ (Instr.shaWrr 16 0).shaParts := by decide
/-- Indexes at both ends, from the front and from the back, in a register of 8 bits and a buffer of 3 bytes. -/
theorem witness_SingleBitIndex : fromEnd 8 0 = 0 ∧ fromEnd 8 7 = 7 ∧ fromEnd 8 (-1) = 7 ∧ fromEnd 8 (-8) = 0 ∧
    ¬ (0 ≤ fromEnd 8 8 ∧ fromEnd 8 8 < 8) ∧ ¬ (0 ≤ fromEnd 8 (-9) ∧ fromEnd 8 (-9) < 8) ∧ (0 : Nat) < ((regs x x).reg 0).len ∧
    (7 : Nat) < ((regs x x).reg 0).len := by decide
theorem witness_SingleByteIndex : fromEnd 3 2 = 2 ∧ fromEnd 3 (-3) = 0 ∧ ¬ (0 ≤ fromEnd 3 3 ∧ fromEnd 3 3 < 3) ∧
    ¬ (0 ≤ fromEnd 3 (-4) ∧ fromEnd 3 (-4) < 3) ∧ ((buffer .big (val 24 1) 0 x).slot 1).blen = 3 := by decide
/-- The two clauses of BS.MOD and BS.SHR meet at 0 and 1, those of BB.PUTB at 255 and 256. -/
theorem witness_zero_and_one : (0 : Nat) = 0 ∧ 1 ≤ (1 : Nat) ∧ (255 : Nat) ≤ 255 ∧ (255 : Nat) < 256 := by decide
theorem witness_TwoStepModularAddition : AddTree.Wide 1 (.add (.leaf (val 1 1)) (.add (.leaf (val 1 1)) (.leaf (val 1 0)))) :=
  ⟨rfl, rfl, rfl⟩
theorem witness_PutWords : ((buffer .big Bits.empty 0 (val 16 1)).reg 0).len = 8 * 2 ∧
    ((buffer .big Bits.empty 0 (val 128 1)).reg 0).len = 8 * 16 ∧ ((buffer .big Bits.empty 0 (val 17 1)).reg 0).len ≠ 8 * 2 := by
  decide
/-- A full word, a short word of one byte, and none left. -/
theorem witness_GetWords : min 2 (((buffer .big (val 16 1) 0 x).slot 1).blen - 0) = 2 ∧
    min 2 (((buffer .big (val 16 1) 1 x).slot 1).blen - 1) = 1 ∧ min 2 (((buffer .big (val 16 1) 2 x).slot 1).blen - 2) = 0 := by
  decide
theorem witness_WordRoundTrip : ((buffer .little (val 8 9) 1 (val 32 0x11223344)).slot 1).wf = true ∧
    ((buffer .little (val 8 9) 1 (val 32 0x11223344)).slot 1).cur = ((buffer .little (val 8 9) 1 (val 32 0x11223344)).slot 1).blen ∧
    ((buffer .little (val 8 9) 1 (val 32 0x11223344)).reg 0).len = 8 * 4 ∧
    Room (limited (buffer .little (val 8 9) 1 (val 32 0x11223344)) 40) (8 + 8 * 4) :=
  ⟨by decide, by decide, by decide, room_limited (by decide)⟩
/-- A message of `2^61` bytes, one byte less, and room for its padding or not. -/
theorem witness_PadMessage : 2 ^ 61 ≤ ((buffer .big (Bits.zeros (2 ^ 64)) 0 x).slot 1).blen ∧
    ((buffer .big (Bits.zeros (2 ^ 64 - 8)) 0 x).slot 1).blen < 2 ^ 61 ∧
    Room (limited (buffer .big Bits.empty 0 x) 512) 512 ∧ ¬ Room (limited (buffer .big Bits.empty 0 x) 511) 512 :=
  ⟨by show 2 ^ 61 ≤ 2 ^ 64 / 8; decide, by show (2 ^ 64 - 8) / 8 < 2 ^ 61; decide, room_limited (by decide),
    not_room_limited (by decide)⟩
/-- The first block, the last block, and none left. -/
theorem witness_LoadBlock : abcBlock.mb.wf = true ∧ abcBlock.mb.cur < abcBlock.mb.blen ∧
    (MsgBuffer.mk (val 1024 1) 64).wf = true ∧ (MsgBuffer.mk (val 1024 1) 64).cur < (MsgBuffer.mk (val 1024 1) 64).blen ∧
    busy.mb.blen ≤ busy.mb.cur := by decide
theorem witness_CompressionRound : busy.t < 64 ∧ busy.t = 63 ∧ 64 ≤ State.reset.t := by decide
theorem witness_BlockIsTheMicroSequence : State.reset.mb.blen ≤ State.reset.mb.cur ∧ abcBlock.mb.cur < abcBlock.mb.blen ∧
    abcBlock.mb.wf = true := by decide
/-- The empty message with room for its one block, and without; and a message that is too long. -/
theorem witness_HashIsTheCommandSequence : (State.reset.slot 0).wf = true ∧ (State.reset.slot 0).blen < 2 ^ 61 ∧
    Room (limited State.reset 512) (512 * ((0 + 8) / 64 + 1)) ∧ Room (limited State.reset 512) 256 ∧
    ¬ (Room (limited State.reset 511) (512 * ((0 + 8) / 64 + 1)) ∧ Room (limited State.reset 511) 256) ∧
    2 ^ 61 ≤ ((buffer .big (Bits.zeros (2 ^ 64)) 0 x).slot 1).blen ∧
    ((buffer .big (Bits.zeros (2 ^ 64)) 0 x).slot 1).wf = true :=
  ⟨by decide, by decide, room_limited (by decide), room_limited (by decide),
    fun h => not_room_limited (m := 511) (by decide) h.1, by show 2 ^ 61 ≤ 2 ^ 64 / 8; decide,
    by show (decide (2 ^ 64 % 8 = 0) && decide (0 ≤ 2 ^ 64 / 8)) = true; decide⟩
/-- Messages of 55 and 56 bytes: one block and two. -/
theorem witness_HashIsSha256OfTheBytes : ((buffer .big (val 440 1) 0 x).slot 1).wf = true ∧
    ((buffer .big (val 440 1) 0 x).slot 1).blen = 55 ∧ ((buffer .big (val 448 1) 56 x).slot 1).wf = true ∧
    ((buffer .big (val 448 1) 56 x).slot 1).blen = 56 ∧
    Room (limited (buffer .big (val 440 1) 0 x) 512) (512 * ((55 + 8) / 64 + 1)) ∧
    Room (limited (buffer .big (val 448 1) 56 x) 1024) (512 * ((56 + 8) / 64 + 1)) :=
  ⟨by decide, by decide, by decide, by decide, room_limited (by decide), room_limited (by decide)⟩
/-- Two states with the same message in different slots and different orders. -/
theorem witness_HashDependsOnlyOnTheMessage : ∃ t t', ((buffer .big (val 8 0x61) 0 x).slot 1).wf = true ∧
    ((buffer .little (val 8 0x61) 1 Bits.empty).slot 1).store = ((buffer .big (val 8 0x61) 0 x).slot 1).store ∧
    exec (.shaHash 0 1) (buffer .big (val 8 0x61) 0 x) = .next t ∧
    exec (.shaHash 1 1) (buffer .little (val 8 0x61) 1 Bits.empty) = .next t' ∧ t.resp = some ⟨.ok, 0, Bits.empty⟩ ∧
    t'.resp = some ⟨.ok, 0, Bits.empty⟩ :=
  ⟨_, _, by decide, rfl, rfl, rfl, rfl, rfl⟩
theorem witness_ExchangeableStages : ∃ t, exec (.shaPad 1) (buffer .big (val 8 0x61) 0 x) = .next t ∧
    t.resp = some ⟨.ok, 0, Bits.empty⟩ := ⟨_, rfl, rfl⟩
/-- The ends of every range of the index space, and a register of 32 bits and of 31. -/
theorem witness_ShaRegisterSpace : ((7 : Nat) < 8 ∧ 8 ≤ 8 ∧ 15 < 16 ∧ 16 ≤ 16 ∧ 79 < 80 ∧ 80 ≤ 80 ∧ 143 < 144 ∧ 144 ≤ 144 ∧
    151 < 152 ∧ 152 ≤ 152) ∧ (regs (val 32 5) (val 31 5)).reg 0 = Bits.ofWord32 5#32 ∧
    ((regs (val 32 5) (val 31 5)).reg 1).len ≠ 32 := by decide
theorem witness_ReadControlRegister : ∀ n ∈ [0x04, 0x0F, 0x14, 0x17, 0x1C, 2 ^ 64 - 1],
    ¬ (n < 0x04 ∨ (0x10 ≤ n ∧ n < 0x14) ∨ (0x18 ≤ n ∧ n < 0x1C)) := by decide
theorem witness_ParseLoadsAnyValue : (14 : Reg) ≠ scratch ∧ Room (limited State.reset 65) (val 65 1).len :=
  ⟨by decide, room_limited (by decide)⟩
theorem witness_TextRoundTrips : (∃ c ∈ ['0', '2'], c ≠ '0' ∧ c ≠ '1') ∧ (∀ c ∈ ['f'], c ∈ lowerHexDigits) ∧
    (∃ c ∈ ['0', 'x'], c ∉ lowerHexDigits ++ ['A', 'B', 'C', 'D', 'E', 'F']) :=
  ⟨⟨'2', by simp, by decide, by decide⟩, by simp [lowerHexDigits], ⟨'x', by simp, by simp [lowerHexDigits]⟩⟩

end Sys2Proof.Tests
end

namespace Sys2Proof.Machine

/-! ## The step, one equation per kind of port event (00_scope.md rule R12) -/

theorem State.takeEvent_of_port_nil {s : State} (hport : s.port = []) : s.takeEvent = none := by
  rw [State.takeEvent, hport]

theorem State.takeEvent_of_port_cons {s : State} {e : PortEvent} {rest : List PortEvent} (hport : s.port = e :: rest) :
    s.takeEvent = some (e, { s with port := rest }) := by
  rw [State.takeEvent, hport]

theorem step_of_port_nil {s : State} (hport : s.port = []) : step s = .next s := by
  rw [step, State.takeEvent_of_port_nil hport, State.idle]

theorem step_of_resetInput {s : State} {rest : List PortEvent} (hport : s.port = .resetInput :: rest) :
    step s = .next (State.resetCore { s with port := rest }) := by
  rw [step, State.takeEvent_of_port_cons hport]

theorem step_of_decode_ok {s : State} {c : Command} {rest : List PortEvent} {i : Instr}
    (hport : s.port = .command c :: rest) (hdec : decode c = .ok i) : step s = exec i { s with port := rest } := by
  simp only [step, State.takeEvent_of_port_cons hport, hdec]

theorem step_of_decode_error {s : State} {c : Command} {rest : List PortEvent} {e : Illegal}
    (hport : s.port = .command c :: rest) (hdec : decode c = .error e) :
    step s = .next (State.raise { s with port := rest } .illegalCommand) := by
  simp only [step, State.takeEvent_of_port_cons hport, hdec]

/-- Settles O6: taking the event leaves the rest of the queue, and a decoded command is run by `exec` alone. -/
theorem stepRunsDecodedCommand : Obligations.StepRunsDecodedCommand :=
  fun _ _ _ _ hport hdec => step_of_decode_ok hport hdec

end Sys2Proof.Machine

namespace Sys2Proof.Machine

/-! ## The reset state, read piece by piece (10_state.md rule R36) -/

@[simp] theorem State.reset_reg (r : Reg) : State.reset.reg r = Bits.empty := by
  simp [State.reg, State.reset]

@[simp] theorem State.reset_slot (j : Slot) : State.reset.slot j = ByteBuffer.fresh .big := by
  simp [State.slot, State.reset]

/-- Settles O10: the registers and slots by their reset values, the word arrays because each is a constant vector. -/
theorem resetValues : Obligations.ResetValues := by
  refine ⟨State.reset_reg, fun j => ?_, rfl, rfl, fun k hk => ⟨?_, ?_⟩, fun k hk => ?_, rfl, rfl⟩
  · rw [State.reset_slot]; exact ⟨rfl, rfl, rfl⟩
  all_goals exact Vector.getElem_replicate _

/-- A state whose registers and buffers are those of reset meets the invariant, whatever its `MAXW`. -/
theorem State.Inv.of_reset_values {s : State} (hregs : s.regs = State.reset.regs) (hslots : s.slots = State.reset.slots)
    (hmb : s.mb = State.reset.mb) (ht : s.t ≤ 64) : s.Inv where
  memory := (Memory.wf_congr hslots hmb).trans Memory.wf_reset
  regs r := by rw [State.reg_eq_of_regs hregs, State.reset_reg]; exact s.fits_zero
  stores j := by rw [State.slot_eq_of_slots hslots, State.reset_slot]; exact s.fits_zero
  msg := by rw [hmb]; exact s.fits_zero
  rounds := ht

/-- Settles O11: nothing is stored after reset, so every length is 0. -/
theorem resetMeetsInvariant : Obligations.ResetMeetsInvariant :=
  State.Inv.of_reset_values rfl rfl rfl le_rfl

/-! ## Reads after writes, the same and another at once -/

theorem State.reg_setReg (s : State) (rd r : Reg) (v : Bits) :
    (s.setReg rd v).reg r = if r = rd then v else s.reg r := by
  split
  case isTrue h => rw [h, State.reg_setReg_same]
  case isFalse h => exact State.reg_setReg_other s v h

theorem State.slot_setSlot (s : State) (md j : Slot) (b : ByteBuffer) :
    (s.setSlot md b).slot j = if j = md then b else s.slot j := by
  split
  case isTrue h => rw [h, State.slot_setSlot_same]
  case isFalse h => exact State.slot_setSlot_other s b h

/-! ## SHA.HASH: what its run of blocks keeps (42_sha256_pipeline.md rule R186) -/

theorem stageBlocks_wf (n : Nat) {s : State} (h : s.mb.wf = true) : (stageBlocks n s).mb.wf = true := by
  induction n generalizing s with
  | zero => exact h
  | succ n ih =>
    rw [stageBlocks]
    split
    · exact h
    · rename_i he
      refine ih ?_
      rw [stageBlock_mb]
      exact MsgBuffer.wf_load h (by simpa using he) s.w

theorem stageBlocks_t_le (n : Nat) {s : State} (h : s.t ≤ 64) : (stageBlocks n s).t ≤ 64 := by
  induction n generalizing s with
  | zero => exact h
  | succ n ih =>
    rw [stageBlocks]
    split
    · exact h
    · exact ih (stageBlock_t s).le

theorem stageHash_store (ma : Slot) (s : State) : (stageHash ma s).mb.store = padding (s.slot ma).store := by
  rw [stageHash, stageBlocks_store, stageInit_mb, stagePad_mb]

theorem stageHash_t_le (ma : Slot) {s : State} (h : s.t ≤ 64) : (stageHash ma s).t ≤ 64 :=
  stageBlocks_t_le _ (by simpa using h)

theorem stageHash_wf {ma : Slot} {s : State} (h : (s.slot ma).wf = true) (hlen : lengthMismatch (s.slot ma).blen = false) :
    (stageHash ma s).mb.wf = true := by
  refine stageBlocks_wf _ ?_
  rw [stageInit_mb, stagePad_mb]
  exact MsgBuffer.wf_padding ((ByteBuffer.wf_iff _).1 h).1 hlen

/-! ## What each way of ending leaves, one lemma per piece of state -/

section Endings

variable {i : Instr} {s t : State}

theorem Ending.maxw_eq (h : Ending i s t) : t.maxw = s.maxw := by
  cases h with
  | sha u hs _ _ _ _ ht => simpa [ht] using hs.maxw
  | hash rd ma _ _ _ _ ht => simpa [ht] using (stageHash_outside ma s).maxw
  | _ => simp [*]

theorem Ending.port_eq (h : Ending i s t) : t.port = s.port := by
  cases h with
  | sha u hs _ _ _ _ ht => simpa [ht] using hs.port
  | hash rd ma _ _ _ _ ht => simpa [ht] using (stageHash_outside ma s).port
  | _ => simp [*]

/-- The two kinds of response (rules R30, R249): a command faults, or it answers with a status that is no error. -/
inductive RespEnding (i : Instr) (s t : State) : Prop where
  | fault (st : Status) (herr : st.isError = true) (hcap : st = .capacity → s.maxw ≠ none) (ht : t = s.faulted st)
  | answer (r : Response) (hst : r.status.isError = false) (hresp : t.resp = some r)
      (hn : r.rval ≠ 0 → i.mnemonic ∈ ["BS.LEN", "BS.EQ", "BB.LEN", "SYS.RDCSR"])
      (hx : r.res ≠ Bits.empty → i.mnemonic = "BS.RD")
      (hsticky : t.esticky = s.esticky ∨ (i = .sysReset ∧ t.esticky = false))

/-- The response `OK` with neither `RVAL` nor `RES`. -/
theorem RespEnding.of_ok (hresp : t.resp = some ⟨.ok, 0, Bits.empty⟩)
    (hsticky : t.esticky = s.esticky ∨ (i = .sysReset ∧ t.esticky = false)) : RespEnding i s t :=
  .answer _ rfl hresp (absurd rfl) (absurd rfl) hsticky

theorem Ending.respEnding (h : Ending i s t) : RespEnding i s t := by
  cases h with
  | fault st herr hcap ht => exact .fault st herr hcap ht
  | answer st n x hst hn hx ht =>
    refine .answer ⟨st, n, x⟩ ?_ (by rw [ht, State.answered_resp]) hn hx (.inl (by rw [ht, State.answered_esticky]))
    obtain rfl | ⟨rfl, -⟩ := hst <;> rfl
  | write rd v _ _ ht => exact .of_ok (by simp [ht]) (.inl (by simp [ht]))
  | construct md b _ _ _ _ ht => exact .of_ok (by simp [ht]) (.inl (by simp [ht]))
  | append md n v _ _ _ ht => exact .of_ok (by simp [ht]) (.inl (by simp [ht]))
  | read rd ma n _ _ _ ht =>
    exact .answer _ (getStatus_not_error _) (by rw [ht, State.answered_resp]) (absurd rfl) (absurd rfl)
      (.inl (by simp [ht]))
  | sha u hs _ _ _ _ ht => exact .of_ok (by simp [ht]) (.inl (by simpa [ht] using hs.esticky))
  | hash rd ma _ _ _ _ ht => exact .of_ok (by simp [ht]) (.inl (by simpa [ht] using (stageHash_outside ma s).esticky))
  | reset hi ht => exact .of_ok (by simp [ht]) (.inr ⟨hi, by simp [ht]⟩)

/-- The three endings that write a register: each sets the one named as `rd` in a register file otherwise as before. -/
theorem reg_cases_of_setReg {u : State} {rd : Reg} {v : Bits} (hd : i.dest = some rd) (hfit : Room s v.len)
    (hu : u.regs = s.regs) (ht : t.regs = (u.setReg rd v).regs) (r : Reg) :
    t.reg r = s.reg r ∨ ((i.dest = some r ∨ i = .sysReset) ∧ Room s (t.reg r).len) := by
  rw [State.reg_eq_of_regs ht, State.reg_setReg, State.reg_eq_of_regs hu]
  by_cases hr : r = rd
  · rw [if_pos hr]; exact .inr ⟨.inl (hr ▸ hd), hfit⟩
  · rw [if_neg hr]; exact .inl rfl

/-- A register is as before, or the command names it as `rd` (or resets) and what it now holds is within `MAXW`. -/
theorem Ending.reg_cases (h : Ending i s t) (r : Reg) :
    t.reg r = s.reg r ∨ ((i.dest = some r ∨ i = .sysReset) ∧ Room s (t.reg r).len) := by
  cases h with
  | fault st _ _ ht => exact .inl (State.reg_eq_of_regs (by simp [ht]) r)
  | answer st n x _ _ _ ht => exact .inl (State.reg_eq_of_regs (by simp [ht]) r)
  | write rd v hd hfit ht => exact reg_cases_of_setReg hd hfit rfl (by simp [ht]) r
  | construct md b _ _ _ _ ht => exact .inl (State.reg_eq_of_regs (by simp [ht]) r)
  | append md n v _ _ _ ht => exact .inl (State.reg_eq_of_regs (by simp [ht]) r)
  | read rd ma n hd _ hfit ht => exact reg_cases_of_setReg hd hfit rfl (by simp [ht]) r
  | sha u hs _ _ _ _ ht => exact .inl (State.reg_eq_of_regs (by simpa [ht] using hs.regs) r)
  | hash rd ma hi _ _ hfit ht =>
    exact reg_cases_of_setReg (by rw [hi, Instr.dest]) (by rwa [len_digestOf]) (stageHash_outside ma s).regs
      (ht ▸ State.done_regs _) r
  | reset hi ht =>
    refine .inr ⟨.inr hi, ?_⟩
    rw [State.reg_eq_of_regs (s := State.reset) (by simp [ht]), State.reset_reg]
    exact fun _ _ => Nat.zero_le _

/-- What a command leaves in slot `j` (rule R24): the buffer as it was, a new one, the old one with bytes appended or with
its cursor moved by a read, or the reset value. -/
inductive SlotEnding (i : Instr) (s : State) (j : Slot) (b : ByteBuffer) : Prop where
  | same (hb : b = s.slot j)
  | construct (hu : i.slotUse = some (j, .construct)) (hfit : Room s b.store.len) (hcur : b.cur = 0) (hwf : b.wf = true)
  | append (n : Nat) (v : Bits) (hu : i.slotUse = some (j, .append n)) (hv : v.len = 8 * n)
      (hfit : Room s b.store.len) (hb : b = (s.slot j).memWrite v)
  | read (n : Nat) (hu : i.slotUse = some (j, .read)) (hb : b = ((s.slot j).get n).2)
  | reset (hi : i = .sysReset) (hb : b = ByteBuffer.fresh .big)

/-- The three endings that write a slot: what holds of the slot written holds of every slot. -/
theorem slotEnding_of_setSlot {md : Slot} {b : ByteBuffer} (ht : t.slots = (s.setSlot md b).slots)
    (hmd : SlotEnding i s md b) (j : Slot) : SlotEnding i s j (t.slot j) := by
  rw [State.slot_eq_of_slots ht, State.slot_setSlot]
  by_cases hj : j = md
  · rw [if_pos hj]; exact hj ▸ hmd
  · rw [if_neg hj]; exact .same rfl

theorem Ending.slotEnding (h : Ending i s t) (j : Slot) : SlotEnding i s j (t.slot j) := by
  cases h with
  | fault st _ _ ht => exact .same (State.slot_eq_of_slots (by simp [ht]) j)
  | answer st n x _ _ _ ht => exact .same (State.slot_eq_of_slots (by simp [ht]) j)
  | write rd v _ _ ht => exact .same (State.slot_eq_of_slots (by simp [ht]) j)
  | construct md b hu hfit hcur hwf ht => exact slotEnding_of_setSlot (by simp [ht]) (.construct hu hfit hcur hwf) j
  | append md n v hu hv hfit ht => exact slotEnding_of_setSlot (by simp [ht]) (.append n v hu hv hfit rfl) j
  | read rd ma n _ hu _ ht => exact slotEnding_of_setSlot (by simp [ht]) (.read n hu rfl) j
  | sha u hs _ _ _ _ ht => exact .same (State.slot_eq_of_slots (by simpa [ht] using hs.slots) j)
  | hash rd ma _ _ _ _ ht =>
    exact .same (State.slot_eq_of_slots (by simpa [ht] using (stageHash_outside ma s).slots) j)
  | reset hi ht =>
    exact .reset hi ((State.slot_eq_of_slots (s := State.reset) (by simp [ht]) j).trans (State.reset_slot j))

theorem SlotEnding.keeps_wf {j : Slot} {b : ByteBuffer} (h : SlotEnding i s j b) (hw : (s.slot j).wf = true) :
    b.wf = true := by
  cases h with
  | same hb => rwa [hb]
  | construct _ _ _ hwf => exact hwf
  | append n v _ hv _ hb => rw [hb]; exact ByteBuffer.wf_memWrite hw (by omega)
  | read n _ hb => rw [hb]; exact ByteBuffer.wf_get hw n
  | reset _ hb => rw [hb]; exact ByteBuffer.wf_fresh .big

theorem SlotEnding.store_cases {j : Slot} {b : ByteBuffer} (h : SlotEnding i s j b) :
    b.store = (s.slot j).store ∨ Room s b.store.len := by
  cases h with
  | same hb => exact .inl (by rw [hb])
  | construct _ hfit _ _ => exact .inr hfit
  | append n v _ _ hfit _ => exact .inr hfit
  | read n _ hb => exact .inl (by rw [hb, ByteBuffer.get_store])
  | reset _ hb => exact .inr fun _ _ => by rw [hb]; exact Nat.zero_le _

/-- What a command leaves of the SHA unit (rule R25): the parts it does not name, and whole blocks within `MAXW` and at most
64 rounds where they were so before. -/
structure ShaEnding (i : Instr) (s t : State) : Prop where
  frame       : ∀ p, p ∉ i.shaParts → p.Same s t
  keeps_wf    : Memory.wf s = true → t.mb.wf = true
  store_cases : t.mb.store = s.mb.store ∨ Room s t.mb.store.len
  t_le        : s.t ≤ 64 → t.t ≤ 64

theorem State.SameSha.same (h : s.SameSha t) (p : ShaPart) : p.Same s t := by
  cases p with
  | mb => exact h.mb
  | h => exact h.h
  | v => exact h.v
  | w => exact h.w
  | t => exact h.t

theorem ShaEnding.of_same (h : s.SameSha t) : ShaEnding i s t where
  frame p _ := h.same p
  keeps_wf hw := h.mb ▸ Memory.wf_mb hw
  store_cases := .inl (h.mb ▸ rfl)
  t_le h64 := h.t ▸ h64

/-- A command that names every part of the SHA unit has nothing to leave alone. -/
theorem shaParts_frame_of_all (hi : i.shaParts = [.mb, .h, .v, .w, .t]) (p : ShaPart) (hp : p ∉ i.shaParts) :
    p.Same s t :=
  absurd (hi ▸ by cases p <;> decide) hp

theorem Ending.shaEnding (h : Ending i s t) : ShaEnding i s t := by
  cases h with
  | fault st _ _ ht => exact ht ▸ .of_same ⟨rfl, rfl, rfl, rfl, rfl⟩
  | answer st n x _ _ _ ht => exact ht ▸ .of_same ⟨rfl, rfl, rfl, rfl, rfl⟩
  | write rd v _ _ ht => exact ht ▸ .of_same ⟨rfl, rfl, rfl, rfl, rfl⟩
  | construct md b _ _ _ _ ht => exact ht ▸ .of_same ⟨rfl, rfl, rfl, rfl, rfl⟩
  | append md n v _ _ _ ht => exact ht ▸ .of_same ⟨rfl, rfl, rfl, rfl, rfl⟩
  | read rd ma n _ _ _ ht => exact ht ▸ .of_same ⟨rfl, rfl, rfl, rfl, rfl⟩
  | sha u _ hp hwf hroom hcount ht =>
    subst ht
    exact { frame := fun p hn => by cases p <;> exact hp _ hn
            keeps_wf := hwf, store_cases := hroom, t_le := hcount }
  | hash rd ma hi hlen hfit _ ht =>
    exact {
      frame := shaParts_frame_of_all (by rw [hi, Instr.shaParts])
      keeps_wf := fun hw => by simpa [ht] using stageHash_wf (((Memory.wf_iff s).1 hw).1 ma) hlen
      store_cases := .inr (by simpa [ht, stageHash_store] using hfit)
      t_le := fun h64 => by simpa [ht] using stageHash_t_le ma h64 }
  | reset hi ht =>
    exact {
      frame := shaParts_frame_of_all (by rw [hi, Instr.shaParts])
      keeps_wf := fun _ => ht ▸ Memory.wf_mb Memory.wf_reset
      store_cases := .inr fun _ _ => by rw [ht]; exact Nat.zero_le _
      t_le := fun _ => ht ▸ le_rfl }

end Endings

/-! ## The invariant (rules R21, R23, R24, R25) -/

/-- The invariant reads neither the port, nor `ESTICKY`, nor the response. -/
theorem State.Inv.congr {s t : State} (h : s.Inv) (hregs : t.regs = s.regs) (hslots : t.slots = s.slots)
    (hmb : t.mb = s.mb) (ht : t.t = s.t) (hmaxw : t.maxw = s.maxw) : t.Inv where
  memory := (Memory.wf_congr hslots hmb).trans h.memory
  regs r := by rw [State.fits_eq_of_maxw hmaxw, State.reg_eq_of_regs hregs]; exact h.regs r
  stores j := by rw [State.fits_eq_of_maxw hmaxw, State.slot_eq_of_slots hslots]; exact h.stores j
  msg := by rw [State.fits_eq_of_maxw hmaxw, hmb]; exact h.msg
  rounds := ht ▸ h.rounds

theorem State.Inv.withPort {s : State} (h : s.Inv) (port : List PortEvent) : State.Inv { s with port := port } :=
  h.congr rfl rfl rfl rfl rfl

/-- Whatever is as before, or has been checked against `MAXW`, still fits. -/
theorem fits_of_same_or_room {s t : State} {x y : Bits} (hmaxw : t.maxw = s.maxw) (hx : s.fits x.len = true)
    (h : y = x ∨ Room s y.len) : t.fits y.len = true := by
  rw [State.fits_eq_of_maxw hmaxw]
  obtain rfl | hroom := h
  · exact hx
  · exact (s.fits_iff_room _).2 hroom

theorem exec_keeps_inv {i : Instr} {s t : State} (h : s.Inv) (he : exec i s = .next t) : t.Inv := by
  have hend := ending he
  have hslot (j : Slot) := hend.slotEnding j
  obtain ⟨hslots, -⟩ := (Memory.wf_iff s).1 h.memory
  exact {
    memory := (Memory.wf_iff t).2 ⟨fun j => (hslot j).keeps_wf (hslots j), hend.shaEnding.keeps_wf h.memory⟩
    regs := fun r => fits_of_same_or_room hend.maxw_eq (h.regs r) ((hend.reg_cases r).imp_right And.right)
    stores := fun j => fits_of_same_or_room hend.maxw_eq (h.stores j) (hslot j).store_cases
    msg := fits_of_same_or_room hend.maxw_eq h.msg hend.shaEnding.store_cases
    rounds := hend.shaEnding.t_le h.rounds }

/-- Settles O12, by the kind of event the step takes: none, the reset input, a legal and an illegal command. -/
theorem stepKeepsInvariant : Obligations.StepKeepsInvariant := by
  intro s t h hstep
  rcases hport : s.port with _ | ⟨_ | _, rest⟩
  case nil =>
    rw [step_of_port_nil hport] at hstep
    exact Host.Outcome.next.inj hstep ▸ h
  case cons.command c =>
    rcases hdec : decode c with e | i
    · rw [step_of_decode_error hport hdec] at hstep
      exact Host.Outcome.next.inj hstep ▸ h.congr rfl rfl rfl rfl rfl
    · rw [step_of_decode_ok hport hdec] at hstep
      exact exec_keeps_inv (h.withPort rest) hstep
  case cons.resetInput =>
    rw [step_of_resetInput hport] at hstep
    exact Host.Outcome.next.inj hstep ▸ .of_reset_values rfl rfl rfl le_rfl

/-! ## The response of every command (rules R30, R34, R251) -/

theorem Ending.resp_isSome {i : Instr} {s t : State} (h : Ending i s t) : ∃ r, t.resp = some r := by
  cases h.respEnding with
  | fault st _ _ ht => exact ⟨_, by rw [ht, State.faulted_resp]⟩
  | answer r _ hresp _ _ _ => exact ⟨r, hresp⟩

/-- Settles O13: every command answers, and no way of ending touches `MAXW` or the port. -/
theorem everyCommandEndsWithOneResponse : Obligations.EveryCommandEndsWithOneResponse := by
  intro i s
  obtain ⟨t, ht⟩ := exec_next i s
  obtain ⟨r, hr⟩ := (ending ht).resp_isSome
  exact ⟨t, r, ht, hr, (ending ht).maxw_eq, (ending ht).port_eq⟩

theorem exec_esticky {i : Instr} {s t : State} {r : Response} (he : exec i s = .next t) (hr : t.resp = some r)
    (hi : i ≠ .sysReset) : t.esticky = (s.esticky || r.status.isError) := by
  cases (ending he).respEnding with
  | fault st herr _ ht =>
    subst ht
    obtain rfl := Option.some.inj hr
    simp [herr]
  | answer r' hst hresp _ _ hsticky =>
    obtain rfl := Option.some.inj (hresp.symm.trans hr)
    obtain hsame | ⟨hreset, -⟩ := hsticky
    · simp [hst, hsame]
    · exact absurd hreset hi

/-- Settles O15: a legal command by its ending, an illegal one because it raises `IllegalCommand`. -/
theorem stickyErrorBit : Obligations.StickyErrorBit := by
  refine ⟨fun s t c rest r hport hstep hr hc => ?_, fun s t he => ?_, rfl⟩
  · rcases hdec : decode c with e | i
    · rw [step_of_decode_error hport hdec] at hstep
      obtain rfl := Host.Outcome.next.inj hstep
      obtain rfl := Option.some.inj hr
      rfl
    · rw [step_of_decode_ok hport hdec] at hstep
      have hi : i ≠ .sysReset := fun hi => hc (hi ▸ hdec)
      exact exec_esticky (s := { s with port := rest }) hstep hr hi
  · obtain rfl := Host.Outcome.next.inj he
    rfl

/-- Settles O16: a fault answers 0 and the empty value, and what else a command answers is no error. -/
theorem responseFields : Obligations.ResponseFields := by
  intro i s t r he hr
  cases (ending he).respEnding with
  | fault st _ _ ht =>
    subst ht
    obtain rfl := Option.some.inj hr
    exact ⟨absurd rfl, absurd rfl, fun _ => ⟨rfl, rfl⟩⟩
  | answer r' hst hresp hn hx _ =>
    obtain rfl := Option.some.inj (hresp.symm.trans hr)
    exact ⟨hn, hx, fun herr => absurd (hst.symm.trans herr) Bool.false_ne_true⟩

/-! ## The frames of every command -/

theorem status_ne_capacity_of_maxw_none {i : Instr} {s t : State} {r : Response} (he : exec i s = .next t)
    (hmaxw : s.maxw = none) (hr : t.resp = some r) : r.status ≠ .capacity := by
  cases (ending he).respEnding with
  | fault st _ hcap ht =>
    subst ht
    obtain rfl := Option.some.inj hr
    exact fun hst => hcap hst hmaxw
  | answer r' hst hresp _ _ _ =>
    obtain rfl := Option.some.inj (hresp.symm.trans hr)
    exact fun hc => by simp [hc, Status.isError] at hst

/-- Settles O18, register by register and store by store. -/
theorem capacityBoundsEveryWrite : Obligations.CapacityBoundsEveryWrite := fun _ _ _ he =>
  ⟨fun r => ((ending he).reg_cases r).imp_right And.right, fun j => ((ending he).slotEnding j).store_cases,
    (ending he).shaEnding.store_cases, fun hmaxw _ hr => status_ne_capacity_of_maxw_none he hmaxw hr⟩

/-- Settles O19: a register that is not as before is named as `rd`, or the command is SYS.RESET. -/
theorem registersChangeOnlyAsDestination : Obligations.RegistersChangeOnlyAsDestination := by
  intro i s t r hi he hd
  obtain hsame | ⟨hdest | hreset, -⟩ := (ending he).reg_cases r
  · exact hsame
  · exact absurd hdest hd
  · exact absurd hreset hi

/-- What a command that is no constructor of slot `j` does to it: the order stays, the cursor moves forward in a read alone,
the store grows at its end in an append alone (rule R24). -/
theorem SlotEnding.frame {i : Instr} {s : State} {j : Slot} {b : ByteBuffer} (h : SlotEnding i s j b)
    (hi : i ≠ .sysReset) (hc : i.slotUse ≠ some (j, .construct)) :
    b.order = (s.slot j).order ∧ (s.slot j).cur ≤ b.cur ∧ (∃ v, b.store = (s.slot j).store.append v) ∧
      ((∀ n, i.slotUse ≠ some (j, .append n)) → b.store = (s.slot j).store) ∧
      (i.slotUse ≠ some (j, .read) → b.cur = (s.slot j).cur) := by
  cases h with
  | same hb =>
    subst hb
    exact ⟨rfl, le_rfl, ⟨Bits.empty, (Bits.append_empty _).symm⟩, fun _ => rfl, fun _ => rfl⟩
  | construct hu _ _ _ => exact absurd hu hc
  | append n v hu _ _ hb =>
    subst hb
    exact ⟨rfl, le_rfl, ⟨v, rfl⟩, fun hna => absurd hu (hna n), fun _ => rfl⟩
  | read n hu hb =>
    subst hb
    exact ⟨rfl, Nat.le_add_right _ _, ⟨Bits.empty, (Bits.append_empty _).symm⟩, fun _ => rfl, absurd hu⟩
  | reset hr _ => exact absurd hr hi

/-- In a constructor's slot stands what stood there or a new buffer, with its cursor at the start. -/
theorem SlotEnding.of_construct {i : Instr} {s : State} {j : Slot} {b : ByteBuffer} (h : SlotEnding i s j b)
    (hu : i.slotUse = some (j, .construct)) : b = s.slot j ∨ b.cur = 0 := by
  cases h with
  | same hb => exact .inl hb
  | construct _ _ hcur _ => exact .inr hcur
  | append n v hu' _ _ _ => simp [hu] at hu'
  | read n hu' _ => simp [hu] at hu'
  | reset _ hb => exact .inr (by rw [hb]; rfl)

/-- Settles O20, from what each command leaves in a slot. -/
theorem buffersKeepTheirInvariants : Obligations.BuffersKeepTheirInvariants := fun _ _ _ j hi he =>
  have h := (ending he).slotEnding j
  ⟨h.keeps_wf, h.of_construct, h.frame hi⟩

/-- Settles O22: the frame of the SHA unit, whichever way the command ends. -/
theorem shaUnitFrame : Obligations.ShaUnitFrame := fun _ _ _ p he hp => (ending he).shaEnding.frame p hp

/-! ## The SHA register space (10_state.md rule R28) -/

theorem vector_setIfInBounds_of_lt {α : Type} {n k : Nat} (a : Vector α n) (x : α) (h : k < n) :
    a.setIfInBounds k x = a.set k x h :=
  Vector.ext fun j hj => by rw [Vector.getElem_setIfInBounds, Vector.getElem_set]

section ShaRegisters

variable {idx : Nat} (s : State)

theorem State.shaReg_h (h : idx < 8) : s.shaReg idx = some s.h[idx] := by
  rw [State.shaReg, if_pos h, wordAt_eq _ h]

theorem State.shaReg_v (h : 8 ≤ idx ∧ idx < 16) : s.shaReg idx = some s.v[idx - 8] := by
  rw [State.shaReg, if_neg (by omega), if_pos h.2, wordAt_eq]

theorem State.shaReg_w (h : 16 ≤ idx ∧ idx < 80) : s.shaReg idx = some s.w[idx - 16] := by
  rw [State.shaReg, if_neg (by omega), if_neg (by omega), if_pos h.2, wordAt_eq]

theorem State.shaReg_k (h : 80 ≤ idx ∧ idx < 144) : s.shaReg idx = some romK[idx - 80] := by
  rw [State.shaReg, if_neg (by omega), if_neg (by omega), if_neg (by omega), if_pos h.2, wordAt_eq]

theorem State.shaReg_iv (h : 144 ≤ idx ∧ idx < 152) : s.shaReg idx = some romIV[idx - 144] := by
  rw [State.shaReg, if_neg (by omega), if_neg (by omega), if_neg (by omega), if_neg (by omega), if_pos h.2, wordAt_eq]

theorem State.shaReg_none (h : 152 ≤ idx) : s.shaReg idx = none := by
  rw [State.shaReg, if_neg (by omega), if_neg (by omega), if_neg (by omega), if_neg (by omega), if_neg (by omega)]

theorem State.setShaReg_h (x : Word32) (h : idx < 8) : s.setShaReg idx x = { s with h := s.h.set idx x } := by
  rw [State.setShaReg, if_pos h, vector_setIfInBounds_of_lt]

theorem State.setShaReg_v (x : Word32) (h : 8 ≤ idx ∧ idx < 16) :
    s.setShaReg idx x = { s with v := s.v.set (idx - 8) x } := by
  rw [State.setShaReg, if_neg (by omega), if_pos h.2, vector_setIfInBounds_of_lt]

theorem State.setShaReg_w (x : Word32) (h : 16 ≤ idx ∧ idx < 80) :
    s.setShaReg idx x = { s with w := s.w.set (idx - 16) x } := by
  rw [State.setShaReg, if_neg (by omega), if_neg (by omega), vector_setIfInBounds_of_lt]

end ShaRegisters

/-- The opcode field of an encoded command word (30_encoding.md rule R71). -/
theorem command_opcode (f : Fields) (opa opb : BitVec 64) : (command f opa opb).cmd.extractLsb' 24 8 = f.opcode :=
  congrArg Fields.opcode (Fields.ofWord_toWord f)

theorem writesReg_shaRdr {s : State} {idx : Nat} {x : Word32} (r : Reg) (h : s.shaReg idx = some x) :
    WritesReg (.shaRdr r idx) s r (Bits.ofWord32 x) :=
  writesReg_of_finishReg (by simp only [exec, execShaRdr, h])

theorem faults_shaRdr {s : State} {idx : Nat} (r : Reg) (h : s.shaReg idx = none) :
    Faults (.shaRdr r idx) s .operandDomain := by
  simp only [Faults, exec, execShaRdr, h, State.raise_eq_faulted s (st := .operandDomain) rfl]

theorem faults_shaWrr_index {s : State} {idx : Nat} (r : Reg) (h : 80 ≤ idx) :
    Faults (.shaWrr idx r) s .operandDomain := by
  rw [Faults, exec, execShaWrr, if_pos h, State.raise_eq_faulted s rfl]

theorem faults_shaWrr_width {s : State} {idx : Nat} {r : Reg} (h : idx < 80) (hw : (s.reg r).len ≠ 32) :
    Faults (.shaWrr idx r) s .widthMismatch := by
  rw [Faults, exec, execShaWrr, if_neg (by omega), if_neg hw, State.raise_eq_faulted s rfl]

theorem exec_shaWrr_word {s : State} {idx : Nat} {r : Reg} {x : Word32} (h : idx < 80) (hx : s.reg r = Bits.ofWord32 x) :
    exec (.shaWrr idx r) s = .next ((s.setShaReg idx x).answered .ok 0 Bits.empty) := by
  rw [exec, execShaWrr, if_neg (by omega), hx, if_pos (Bits.len_ofWord32 x), Bits.toWord32_ofWord32, State.done_eq]

/-- Settles O57, range by range of the index. -/
theorem shaRegisterSpace : Obligations.ShaRegisterSpace := by
  intro r idx s
  refine ⟨command_opcode _ _ _, command_opcode _ _ _, fun h => writesReg_shaRdr r (s.shaReg_h h),
    fun h => writesReg_shaRdr r (s.shaReg_v h), fun h => writesReg_shaRdr r (s.shaReg_w h),
    fun h => writesReg_shaRdr r (s.shaReg_k h), fun h => writesReg_shaRdr r (s.shaReg_iv h),
    fun h => faults_shaRdr r (s.shaReg_none h), faults_shaWrr_index r, faults_shaWrr_width, fun x hx => ⟨?_, ?_, ?_⟩⟩
  · intro h
    rw [exec_shaWrr_word (by omega) hx, s.setShaReg_h x h]
    rfl
  · intro h
    rw [exec_shaWrr_word (by omega) hx, s.setShaReg_v x h]
    rfl
  · intro h
    rw [exec_shaWrr_word h.2 hx, s.setShaReg_w x h]
    rfl

/-! ## The constant ROM (rules R26, R27) -/

/-- Settles O42: the 64 primes and the 72 inequalities between integers, each decided by evaluation. -/
theorem constantRom : Obligations.ConstantRom := by
  have hprimes : primes.length = 64 := by decide +kernel
  refine ⟨hprimes, ?squareRoots, ?cubeRoots⟩
  case squareRoots => decide +kernel
  case cubeRoots => decide +kernel

end Sys2Proof.Machine

namespace Sys2Proof.Machine

/-! ## The bytes of a word and where its order puts them (20_memory.md rule R52) -/

/-- The eight digits of byte `j`, as a number. -/
theorem setWidth_slice_eq_wordByte {x : Bits} {n j : Nat} (hx : x.len = 8 * n) (hj : j < n) :
    (x.slice (8 * j) (8 * j + 8)).bits.setWidth 8 = wordByte x n j := by
  have hlen : x.len - (8 * j + 8) = 8 * (n - 1 - j) := by omega
  refine BitVec.eq_of_toNat_eq ?_
  rw [Bits.toNat_setWidth_of_le _ (by simp), Bits.val_slice, hlen, Nat.add_sub_cancel_left, wordByte,
    BitVec.toNat_ofNat, Nat.pow_mul]

/-- Byte `j` of a word stands, in the word as its order arranges it, at the place the order gives it. -/
theorem Order.slice_arrange_bytePlace (o : Order) {x : Bits} {n j : Nat} (hx : x.len = 8 * n) (hj : j < n) :
    (Order.arrange o x).slice (8 * bytePlace o n j) (8 * bytePlace o n j + 8) = x.slice (8 * j) (8 * j + 8) := by
  cases o with
  | big => rfl
  | little =>
    have hrev : x.byterev.len = x.len := Bits.len_byterev (by omega)
    have hback : n - 1 - (n - 1 - j) = j := by omega
    refine Bits.ext_digits ?_
    simp only [Order.arrange, bytePlace]
    rw [← byteDigits_eq_slice _ (by omega), ← byteDigits_eq_slice x (by omega),
      byteDigits_byterev hx (by omega), hback]

theorem bytePlace_lt (o : Order) {n j : Nat} (hj : j < n) : bytePlace o n j < n := by
  cases o with
  | big => exact hj
  | little => simp only [bytePlace]; omega

/-- A single byte has no order. -/
theorem Order.arrange_byte (o : Order) {x : Bits} (hx : x.len = 8) : Order.arrange o x = x := by
  cases o with
  | big => rfl
  | little =>
    refine ext_bytes (n := 1) (by rw [Order.arrange, Bits.len_byterev (by omega), hx]) hx fun j hj => ?_
    rw [Order.arrange, byteDigits_byterev (n := 1) hx hj]
    congr 1
    omega

/-! ## A buffer's bytes after the store of a word (rules R51, R52, R58) -/

theorem ByteBuffer.blen_memWrite (b : ByteBuffer) {v : Bits} {n : Nat} (hv : v.len = 8 * n) :
    (b.memWrite v).blen = b.blen + n := by
  simp only [ByteBuffer.blen, ByteBuffer.memWrite, Bits.len_append]
  omega

/-- `PUTW` (rule R156) on the buffer alone: the word at its end, in its order. -/
def ByteBuffer.putWord (b : ByteBuffer) (word : Bits) : ByteBuffer := b.memWrite (Order.arrange b.order word)

theorem ByteBuffer.byteAt_putWord {b : ByteBuffer} {word : Bits} {n j : Nat} (hb : b.wf = true)
    (hw : word.len = 8 * n) (hj : j < n) :
    (b.putWord word).byteAt (b.blen + bytePlace b.order n j) = some (wordByte word n j) := by
  have hlen : (Order.arrange b.order word).len = 8 * n := (Order.len_arrange _ (by omega)).trans hw
  have hplace := bytePlace_lt b.order hj
  rw [ByteBuffer.putWord, ByteBuffer.byteAt_memWrite_new hb (by omega), Order.slice_arrange_bytePlace _ hw hj,
    setWidth_slice_eq_wordByte hw hj]

theorem ByteBuffer.byteAt_putWord_beyond {b : ByteBuffer} {word : Bits} {n k : Nat} (hw : word.len = 8 * n)
    (hk : b.blen + n ≤ k) : (b.putWord word).byteAt k = none := by
  have hlen : (Order.arrange b.order word).len = 8 * n := (Order.len_arrange _ (by omega)).trans hw
  exact ByteBuffer.byteAt_of_le (by rwa [ByteBuffer.putWord, ByteBuffer.blen_memWrite b hlen])

/-! ## A store that answers OK -/

theorem State.faulted_resp_ne_ok (s : State) {st : Status} (hst : st ≠ .ok) (n : Nat) (x : Bits) :
    (s.faulted st).resp ≠ some ⟨.ok, n, x⟩ := fun h => by
  rw [State.faulted_resp] at h
  exact hst (congrArg Response.status (Option.some.inj h))

theorem State.slot_finishSlot_of_ok {s : State} {md : Slot} {b : ByteBuffer}
    (hok : (s.finishSlot md b).resp = some ⟨.ok, 0, Bits.empty⟩) : (s.finishSlot md b).slot md = b := by
  obtain ⟨-, he⟩ | ⟨-, he⟩ := State.finishSlot_cases s md b
  · rw [he, ← State.done_setSlot]
    exact State.slot_setSlot_same s md b
  · exact absurd (he ▸ hok) (s.faulted_resp_ne_ok (by decide) 0 Bits.empty)

theorem slot_putb_of_ok {s t : State} {md : Slot} {v : Nat} (he : exec (.bbPutb md v) s = .next t)
    (hok : t.resp = some ⟨.ok, 0, Bits.empty⟩) :
    (Bits.fromInt v 8).len = 8 * 1 ∧ t.slot md = (s.slot md).putWord (Bits.fromInt v 8) := by
  rw [exec, execBbPutb] at he
  split at he
  case isTrue hv =>
    obtain rfl := Host.Outcome.next.inj he
    rw [State.raise_eq_faulted s rfl] at hok
    exact absurd hok (s.faulted_resp_ne_ok (by decide) 0 Bits.empty)
  case isFalse hv =>
    obtain rfl := Host.Outcome.next.inj he
    have hlen : (Bits.fromInt v 8).len = 8 := Bits.len_fromInt_of_lt (by omega) (by omega)
    exact ⟨hlen, by rw [State.slot_finishSlot_of_ok hok, ByteBuffer.putWord, Order.arrange_byte _ hlen]⟩

/-- Rule R156, the case that answers `OK`. -/
theorem State.slot_putWord_of_ok {s : State} {md : Slot} {ra : Reg} {n : Nat}
    (hok : (s.putWord md ra n).resp = some ⟨.ok, 0, Bits.empty⟩) :
    (s.reg ra).len = 8 * n ∧ (s.putWord md ra n).slot md = (s.slot md).putWord (s.reg ra) := by
  obtain ⟨hlen, he⟩ | ⟨-, he⟩ := State.putWord_cases s md ra n
  · rw [he] at hok ⊢
    exact ⟨hlen, State.slot_finishSlot_of_ok hok⟩
  · exact absurd (he ▸ hok) (s.faulted_resp_ne_ok (by decide) 0 Bits.empty)

/-- Settles O21: each of the five commands that answers `OK` has put its word at the end of the slot, and the bytes of a
buffer after such a store are those of one append. -/
theorem storedBytes : Obligations.StoredBytes := by
  intro i s t md n word he hwf hok hi
  have hput : word.len = 8 * n ∧ t.slot md = (s.slot md).putWord word := by
    obtain ⟨v, rfl, rfl, rfl⟩ | ⟨ra, rfl, rfl, rfl⟩ | ⟨ra, rfl, rfl, rfl⟩ | ⟨ra, rfl, rfl, rfl⟩ | ⟨ra, rfl, rfl, rfl⟩ := hi
    · exact slot_putb_of_ok he hok
    all_goals
      obtain rfl := Host.Outcome.next.inj he
      exact State.slot_putWord_of_ok hok
  obtain ⟨hlen, hslot⟩ := hput
  rw [hslot]
  exact ⟨fun _ hk => ByteBuffer.byteAt_memWrite_old _ hk, fun _ hj => ByteBuffer.byteAt_putWord hwf hlen hj,
    fun _ hk => ByteBuffer.byteAt_putWord_beyond hlen hk⟩

end Sys2Proof.Machine

namespace Sys2Proof

/-! ## The decoder as a list of forms (30_encoding.md rules R71 to R74)

`decodeFields` is a match of 47 arms of one kind: an opcode, what the command uses of format C, and the instruction made of
fields and operand words. `forms` lists these arms, `decode_cases` says once that the decoder is this list, and
`opcodeTable_eq` that rule R73's table is the same list. What holds of every arm is then proved once, of a form. -/

/-- One arm of the decoder. -/
structure Form where
  opcode : BitVec 8
  shape  : Shape
  build  : Fields → (opa opb : BitVec 64) → Instr

/-- The 47 arms, in the decoder's order. -/
def forms : List Form :=
  [ ⟨0x01#8, ⟨.unused, .unused, false, .none⟩, fun _ _ _ => .sysReset⟩
  , ⟨0x02#8, ⟨.unused, .unused, false, .none⟩, fun _ a _ => .sysRdcsr a.toNat⟩
  , ⟨0x10#8, ⟨.reg, .unused, false, .none⟩, fun f a b => .bsLdi f.rdReg a.toNat b.toNat⟩
  , ⟨0x11#8, ⟨.reg, .unused, false, .none⟩, fun f _ _ => .bsEmpty f.rdReg⟩
  , ⟨0x12#8, ⟨.reg, .reg, true, .none⟩, fun f _ _ => .bsJoin f.rdReg f.raReg f.rbReg⟩
  , ⟨0x13#8, ⟨.reg, .reg, false, .none⟩, fun f a _ => .bsBit f.rdReg f.raReg (sgn a)⟩
  , ⟨0x14#8, ⟨.reg, .reg, false, .bounds⟩, fun f a b => .bsSlice f.rdReg f.raReg (f.startBound a) (f.stopBound b)⟩
  , ⟨0x15#8, ⟨.unused, .reg, false, .none⟩, fun f _ _ => .bsLen f.raReg⟩
  , ⟨0x16#8, ⟨.unused, .reg, true, .none⟩, fun f _ _ => .bsEq f.raReg f.rbReg⟩
  , ⟨0x17#8, ⟨.unused, .reg, false, .none⟩, fun f _ _ => .bsRd f.raReg⟩
  , ⟨0x20#8, ⟨.reg, .reg, true, .none⟩, fun f _ _ => .bsAdd f.rdReg f.raReg f.rbReg⟩
  , ⟨0x21#8, ⟨.reg, .reg, false, .none⟩, fun f a _ => .bsAddi f.rdReg f.raReg a.toNat⟩
  , ⟨0x22#8, ⟨.reg, .reg, true, .none⟩, fun f _ _ => .bsAnd f.rdReg f.raReg f.rbReg⟩
  , ⟨0x23#8, ⟨.reg, .reg, true, .none⟩, fun f _ _ => .bsOr f.rdReg f.raReg f.rbReg⟩
  , ⟨0x24#8, ⟨.reg, .reg, true, .none⟩, fun f _ _ => .bsXor f.rdReg f.raReg f.rbReg⟩
  , ⟨0x25#8, ⟨.reg, .reg, false, .none⟩, fun f _ _ => .bsNot f.rdReg f.raReg⟩
  , ⟨0x26#8, ⟨.reg, .reg, false, .none⟩, fun f a _ => .bsShr f.rdReg f.raReg a.toNat⟩
  , ⟨0x27#8, ⟨.reg, .reg, false, .none⟩, fun f a _ => .bsRotl f.rdReg f.raReg a.toNat⟩
  , ⟨0x28#8, ⟨.reg, .reg, false, .none⟩, fun f a _ => .bsRotr f.rdReg f.raReg a.toNat⟩
  , ⟨0x29#8, ⟨.reg, .reg, false, .none⟩, fun f a _ => .bsMod f.rdReg f.raReg a.toNat⟩
  , ⟨0x30#8, ⟨.slot, .unused, false, .order⟩, fun f _ _ => .bbNew f.mdSlot f.orderFlag⟩
  , ⟨0x31#8, ⟨.slot, .unused, false, .none⟩, fun f a _ => .bbPutb f.mdSlot a.toNat⟩
  , ⟨0x32#8, ⟨.slot, .reg, false, .none⟩, fun f _ _ => .bbPutw16 f.mdSlot f.raReg⟩
  , ⟨0x33#8, ⟨.slot, .reg, false, .none⟩, fun f _ _ => .bbPutw32 f.mdSlot f.raReg⟩
  , ⟨0x34#8, ⟨.slot, .reg, false, .none⟩, fun f _ _ => .bbPutw64 f.mdSlot f.raReg⟩
  , ⟨0x35#8, ⟨.slot, .reg, false, .none⟩, fun f _ _ => .bbPutw128 f.mdSlot f.raReg⟩
  , ⟨0x36#8, ⟨.reg, .slot, false, .none⟩, fun f _ _ => .bbGetb f.rdReg f.maSlot⟩
  , ⟨0x37#8, ⟨.reg, .slot, false, .none⟩, fun f _ _ => .bbGetw16 f.rdReg f.maSlot⟩
  , ⟨0x38#8, ⟨.reg, .slot, false, .none⟩, fun f _ _ => .bbGetw32 f.rdReg f.maSlot⟩
  , ⟨0x39#8, ⟨.reg, .slot, false, .none⟩, fun f _ _ => .bbGetw64 f.rdReg f.maSlot⟩
  , ⟨0x3A#8, ⟨.reg, .slot, false, .none⟩, fun f _ _ => .bbGetw128 f.rdReg f.maSlot⟩
  , ⟨0x3B#8, ⟨.slot, .slot, false, .none⟩, fun f a _ => .bbIdx f.mdSlot f.maSlot (sgn a)⟩
  , ⟨0x3C#8, ⟨.slot, .slot, false, .bounds⟩, fun f a b => .bbSlice f.mdSlot f.maSlot (f.startBound a) (f.stopBound b)⟩
  , ⟨0x3D#8, ⟨.unused, .slot, false, .none⟩, fun f _ _ => .bbLen f.maSlot⟩
  , ⟨0x3E#8, ⟨.reg, .slot, false, .none⟩, fun f _ _ => .bbStr f.rdReg f.maSlot⟩
  , ⟨0x40#8, ⟨.unused, .unused, false, .none⟩, fun _ _ _ => .shaInit⟩
  , ⟨0x41#8, ⟨.unused, .slot, false, .none⟩, fun f _ _ => .shaPad f.maSlot⟩
  , ⟨0x42#8, ⟨.unused, .unused, false, .none⟩, fun _ _ _ => .shaLdblk⟩
  , ⟨0x43#8, ⟨.unused, .unused, false, .none⟩, fun _ _ _ => .shaExpand⟩
  , ⟨0x44#8, ⟨.unused, .unused, false, .none⟩, fun _ _ _ => .shaBegin⟩
  , ⟨0x45#8, ⟨.unused, .unused, false, .none⟩, fun _ _ _ => .shaRound⟩
  , ⟨0x46#8, ⟨.unused, .unused, false, .none⟩, fun _ _ _ => .shaUpdate⟩
  , ⟨0x47#8, ⟨.reg, .unused, false, .none⟩, fun f _ _ => .shaDigest f.rdReg⟩
  , ⟨0x48#8, ⟨.unused, .unused, false, .none⟩, fun _ _ _ => .shaBlock⟩
  , ⟨0x49#8, ⟨.reg, .slot, false, .none⟩, fun f _ _ => .shaHash f.rdReg f.maSlot⟩
  , ⟨0x4A#8, ⟨.reg, .unused, false, .none⟩, fun f a _ => .shaRdr f.rdReg a.toNat⟩
  , ⟨0x4B#8, ⟨.unused, .reg, false, .none⟩, fun f a _ => .shaWrr a.toNat f.raReg⟩ ]

/-! ### The mask of a shape: the bits a command requires to be 0 -/

/-- The bits of a register field that its use requires to be 0 (rule R71). -/
def FieldUse.mask : FieldUse → BitVec 4
  | .unused => 0xF#4
  | .reg => 0x0#4
  | .slot => 0xC#4

/-- The bits of `fl` that a command requires to be 0 (rule R71). -/
def FlagUse.mask : FlagUse → BitVec 4
  | .none => 0xF#4
  | .order => 0xE#4
  | .bounds => 0xC#4

/-- The fields of a row's mask in rule R73's table. -/
def Shape.mask (sh : Shape) : Fields :=
  ⟨0xFF#8, sh.rd.mask, sh.ra.mask, if sh.rb then 0x0#4 else 0xF#4, sh.fl.mask, 0xFF#8⟩

theorem FieldUse.objection_eq_none_iff_mask (u : FieldUse) (x : BitVec 4) : u.objection x = none ↔ x &&& u.mask = 0#4 := by
  cases u <;> revert x <;> decide

theorem FlagUse.objection_eq_none_iff_mask (u : FlagUse) (x : BitVec 4) : u.objection x = .none ↔ x &&& u.mask = 0#4 := by
  cases u <;> revert x <;> decide

/-- The fields of a row's `match` in rule R73's table. -/
def Form.matchFields (r : Form) : Fields := ⟨r.opcode, 0#4, 0#4, 0#4, 0#4, 0#8⟩

/-- The row of rule R73's table that belongs to a form. -/
def Form.row (r : Form) : OpRow :=
  ⟨(r.build r.matchFields 0#64 0#64).mnemonic, r.matchFields.toWord, r.shape.mask.toWord⟩

/-- A row selects a word exactly when the opcode is the row's and the word's fields meet no objection. -/
theorem Form.selects_row (r : Form) (w : BitVec 32) : r.row.selects w = true ↔
    (Fields.ofWord w).opcode = r.opcode ∧ (Fields.ofWord w).objection r.shape = none := by
  have hop (x : BitVec 8) : x &&& 0xFF#8 = x := BitVec.and_allOnes
  have hrb (x : BitVec 4) : x &&& (if r.shape.rb then 0x0#4 else 0xF#4) = 0#4 ↔ r.shape.rb = true ∨ x = 0#4 := by
    have hx : x &&& 0xF#4 = x := BitVec.and_allOnes
    cases r.shape.rb <;> simp [hx]
  rw [← Fields.toWord_ofWord w, OpRow.selects_toWord, Fields.ofWord_toWord]
  simp only [Form.row, Form.matchFields, Shape.mask, Fields.ofWord_toWord, hop, hrb, Fields.objection_eq_none,
    FieldUse.objection_eq_none_iff_mask, FlagUse.objection_eq_none_iff_mask]
  tauto

/-- Rule R73's table lists the decoder's forms. -/
theorem opcodeTable_eq : opcodeTable = forms.map Form.row := by decide +kernel

theorem nodup_opcodes : (forms.map Form.opcode).Nodup := by decide

theorem Form.eq_of_opcode_eq {r q : Form} (hr : r ∈ forms) (hq : q ∈ forms) (h : r.opcode = q.opcode) : r = q :=
  List.inj_on_of_nodup_map nodup_opcodes hr hq h

/-! ### The decoder is the list -/

theorem decodeFields_of_form {r : Form} (hr : r ∈ forms) {f : Fields} (hop : f.opcode = r.opcode) (c : Command) :
    decodeFields f c = f.accept r.shape (r.build f c.opa c.opb) := by
  obtain ⟨op, rd, ra, rb, fl, rsv⟩ := f
  obtain rfl : op = r.opcode := hop
  fin_cases hr
  all_goals rfl

theorem decodeFields_of_unassigned {f : Fields} (h : ∀ r ∈ forms, f.opcode ≠ r.opcode) (c : Command) :
    decodeFields f c = .error .unassignedOpcode := by
  have hnot : f.opcode.toNat ∉ forms.map fun r => r.opcode.toNat := by
    intro hmem
    obtain ⟨r, hr, he⟩ := List.mem_map.1 hmem
    exact h r hr (BitVec.eq_of_toNat_eq he.symm)
  unfold decodeFields
  split
  case h_48 => rfl
  all_goals
    rename_i hop
    exact absurd (hop ▸ by decide) hnot

/-- How a command word is decoded, whatever the operand words: by the one form with its opcode, or not at all. -/
theorem decode_cases (w : BitVec 32) :
    (∃ r ∈ forms, (Fields.ofWord w).opcode = r.opcode ∧
      ∀ a b, decode ⟨w, a, b⟩ = (Fields.ofWord w).accept r.shape (r.build (Fields.ofWord w) a b)) ∨
    ((∀ r ∈ forms, (Fields.ofWord w).opcode ≠ r.opcode) ∧ ∀ a b, decode ⟨w, a, b⟩ = .error .unassignedOpcode) := by
  by_cases h : ∃ r ∈ forms, (Fields.ofWord w).opcode = r.opcode
  case pos =>
    obtain ⟨r, hr, hop⟩ := h
    exact .inl ⟨r, hr, hop, fun a b => decodeFields_of_form hr hop ⟨w, a, b⟩⟩
  case neg =>
    have hno : ∀ r ∈ forms, (Fields.ofWord w).opcode ≠ r.opcode := fun r hr hop => h ⟨r, hr, hop⟩
    exact .inr ⟨hno, fun a b => decodeFields_of_unassigned hno ⟨w, a, b⟩⟩

/-- A command decodes exactly when a row selects its word, and then as that row's command. -/
theorem decode_eq_ok_iff {c : Command} {i : Instr} : decode c = .ok i ↔
    ∃ r ∈ forms, r.row.selects c.cmd = true ∧ r.build (Fields.ofWord c.cmd) c.opa c.opb = i := by
  simp only [Form.selects_row]
  constructor
  · intro h
    obtain ⟨r, hr, hop, hdec⟩ | ⟨-, hdec⟩ := decode_cases c.cmd
    · rw [hdec c.opa c.opb, Fields.accept_eq_ok] at h
      exact ⟨r, hr, ⟨hop, h.1⟩, h.2⟩
    · exact absurd ((hdec c.opa c.opb).symm.trans h) nofun
  · rintro ⟨r, hr, ⟨hop, hobj⟩, rfl⟩
    exact (decodeFields_of_form hr hop c).trans (Fields.accept_ok hobj)

/-! ## Operand fields, read back (rules R71, R72) -/

theorem decode_command (f : Fields) (a b : BitVec 64) : decode (command f a b) = decodeFields f ⟨f.toWord, a, b⟩ := by
  rw [decode, command, Fields.ofWord_toWord]

@[simp] theorem Fields.rdReg_regField (op ra rb fl rsv) (r : Reg) : Fields.rdReg ⟨op, regField r, ra, rb, fl, rsv⟩ = r := rfl
@[simp] theorem Fields.raReg_regField (op rd rb fl rsv) (r : Reg) : Fields.raReg ⟨op, rd, regField r, rb, fl, rsv⟩ = r := rfl
@[simp] theorem Fields.rbReg_regField (op rd ra fl rsv) (r : Reg) : Fields.rbReg ⟨op, rd, ra, regField r, fl, rsv⟩ = r := rfl

@[simp] theorem Fields.mdSlot_slotField (op ra rb fl rsv) (m : Slot) :
    Fields.mdSlot ⟨op, slotField m, ra, rb, fl, rsv⟩ = m :=
  toFin_slotField m

@[simp] theorem Fields.maSlot_slotField (op rd rb fl rsv) (m : Slot) :
    Fields.maSlot ⟨op, rd, slotField m, rb, fl, rsv⟩ = m :=
  toFin_slotField m

@[simp] theorem Fields.orderFlag_orderField (op rd ra rb rsv) (o : Order) :
    Fields.orderFlag ⟨op, rd, ra, rb, orderField o, rsv⟩ = o := by
  cases o <;> simp [Fields.orderFlag, orderField]

@[simp] theorem Fields.startBound_boundWord (op rd ra rb rsv) {start : Option Int} (stop : Option Int)
    (h : fitsBound start = true) : Fields.startBound ⟨op, rd, ra, rb, boundsField start stop, rsv⟩ (boundWord start) = start :=
  startBound_boundsField rfl h

@[simp] theorem Fields.stopBound_boundWord (op rd ra rb rsv) (start : Option Int) {stop : Option Int}
    (h : fitsBound stop = true) : Fields.stopBound ⟨op, rd, ra, rb, boundsField start stop, rsv⟩ (boundWord stop) = stop :=
  stopBound_boundsField rfl h

theorem FlagUse.objection_orderField (o : Order) : FlagUse.order.objection (orderField o) = .none := by
  cases o <;> rfl

/-- Settles O1, command by command: the fields that the encoder writes meet no objection, and each operand is read back from
its field or, when it fits, from its operand word. -/
theorem decodeEncodeRoundTrip : Obligations.DecodeEncodeRoundTrip := by
  intro i hwf
  cases i
  all_goals
    simp only [encode, decode_command, decodeFields, BitVec.toNat_ofNat, Nat.reducePow, Nat.reduceMod, Fields.accept_eq_ok]
    refine ⟨by simp [Fields.objection_eq_none, FieldUse.objection_unused, FieldUse.objection_reg, FieldUse.objection_slot,
      slotField_upper, FlagUse.objection_none, FlagUse.objection_orderField, FlagUse.objection_boundsField], ?_⟩
  case sysRdcsr | bsLdi | bsBit | bsSlice | bsAddi | bsShr | bsRotl | bsRotr | bsMod | bbPutb | bbIdx | bbSlice | shaRdr |
      shaWrr =>
    simp only [Instr.WellFormed, Instr.wf, Bool.and_eq_true] at hwf
    simp [hwf]
  all_goals simp

/-! ## What a form builds, and what the encoder makes of it -/

theorem fitsBound_startBound (f : Fields) (a : BitVec 64) : fitsBound (f.startBound a) = true := by
  unfold Fields.startBound
  split
  · rfl
  · exact fitsSigned_sgn a

theorem fitsBound_stopBound (f : Fields) (b : BitVec 64) : fitsBound (f.stopBound b) = true := by
  unfold Fields.stopBound
  split
  · rfl
  · exact fitsSigned_sgn b

theorem Form.wellFormed_build {r : Form} (hr : r ∈ forms) (f : Fields) (a b : BitVec 64) : (r.build f a b).WellFormed := by
  fin_cases hr
  all_goals
    simp only [Instr.WellFormed, Instr.wf, fitsUnsigned_toNat, fitsSigned_sgn, fitsBound_startBound, fitsBound_stopBound,
      Bool.and_self]

theorem Form.mnemonic_build {r : Form} (hr : r ∈ forms) (f : Fields) (a b : BitVec 64) :
    (r.build f a b).mnemonic = r.row.mnemonic := by
  fin_cases hr
  all_goals rfl

/-- A register field as the encoder writes it, from the number that its use reads. -/
def FieldUse.written (u : FieldUse) (x : BitVec 4) : BitVec 4 :=
  match u with
  | .unused => 0#4
  | .reg => regField x.toFin
  | .slot => slotField (x.extractLsb' 0 2).toFin

/-- The flags as the encoder writes them, from the order or the bounds that their use reads. -/
def FlagUse.written (u : FlagUse) (f : Fields) (a b : BitVec 64) : BitVec 4 :=
  match u with
  | .none => 0#4
  | .order => orderField f.orderFlag
  | .bounds => boundsField (f.startBound a) (f.stopBound b)

/-- The fields that the encoder writes for what a form reads from `f`. -/
def Form.written (r : Form) (f : Fields) (a b : BitVec 64) : Fields :=
  ⟨r.opcode, r.shape.rd.written f.rd, r.shape.ra.written f.ra, if r.shape.rb then regField f.rbReg else 0#4,
    r.shape.fl.written f a b, 0#8⟩

/-- The encoder, form by form. -/
theorem Form.cmd_encode_build {r : Form} (hr : r ∈ forms) (f : Fields) (a b : BitVec 64) :
    (encode (r.build f a b)).cmd = (r.written f a b).toWord := by
  fin_cases hr
  all_goals rfl

/-- A register field that meets no objection holds nothing but what its use reads. -/
theorem FieldUse.written_of_objection_eq_none {u : FieldUse} {x : BitVec 4} (h : u.objection x = none) : u.written x = x := by
  cases u
  case unused => exact (FieldUse.objection_unused.1 h).symm
  case reg => rfl
  case slot => exact slotField_toFin x (FieldUse.objection_slot.1 h)

theorem FlagUse.written_of_objection_eq_none {u : FlagUse} {f : Fields} (h : u.objection f.fl = .none) (a b : BitVec 64) :
    u.written f a b = f.fl := by
  obtain ⟨op, rd, ra, rb, fl, rsv⟩ := f
  cases u
  case none => exact (FlagUse.objection_none.1 h).symm
  case order =>
    obtain rfl | rfl := FlagUse.objection_order.1 h
    all_goals simp [FlagUse.written, Fields.orderFlag, orderField]
  case bounds =>
    obtain rfl | rfl | rfl | rfl := FlagUse.objection_bounds.1 h
    all_goals simp [FlagUse.written, boundsField_eq, Fields.startBound, Fields.stopBound]

theorem Form.written_of_objection_eq_none {r : Form} {f : Fields} (hop : f.opcode = r.opcode)
    (hobj : f.objection r.shape = none) (a b : BitVec 64) : r.written f a b = f := by
  obtain ⟨hrsv, hfl, hrd, hra, hrb⟩ := Fields.objection_eq_none.1 hobj
  have hrb' : (if r.shape.rb then regField f.rbReg else 0#4) = f.rb := by
    split
    case isTrue => rfl
    case isFalse hno => exact (hrb.resolve_left hno).symm
  rw [Form.written, FieldUse.written_of_objection_eq_none hrd, FieldUse.written_of_objection_eq_none hra, hrb',
    FlagUse.written_of_objection_eq_none hfl, ← hop, ← hrsv]

/-- Settles O2: the encoder writes what the form read, and fields that meet no objection are written as they were. -/
theorem decodedWordIsTheEncodedWord : Obligations.DecodedWordIsTheEncodedWord := by
  intro c i h
  obtain ⟨r, hr, hsel, rfl⟩ := decode_eq_ok_iff.1 h
  obtain ⟨hop, hobj⟩ := (r.selects_row c.cmd).1 hsel
  refine ⟨Form.wellFormed_build hr _ _ _, ?_⟩
  rw [Form.cmd_encode_build hr, Form.written_of_objection_eq_none hop hobj, Fields.toWord_ofWord]

/-- Settles O3, form by form: the opcodes are distinct, a selected word is decoded by its own form, and nothing else decodes. -/
theorem decoderFollowsOpcodeTable : Obligations.DecoderFollowsOpcodeTable := by
  rw [Obligations.DecoderFollowsOpcodeTable, opcodeTable_eq, List.pairwise_map]
  simp only [List.forall_mem_map]
  refine ⟨rfl, ?disjoint, ?selected, ?rejected⟩
  case disjoint =>
    refine (List.pairwise_map.1 nodup_opcodes).imp fun {r q} hne w ⟨hr, hq⟩ => hne ?_
    exact ((r.selects_row w).1 hr).1.symm.trans ((q.selects_row w).1 hq).1
  case selected =>
    exact fun c r hr hsel => ⟨_, decode_eq_ok_iff.2 ⟨r, hr, hsel, rfl⟩, Form.mnemonic_build hr _ _ _⟩
  case rejected =>
    intro c hno
    cases hdec : decode c
    case error e => exact ⟨e, rfl⟩
    case ok i =>
      obtain ⟨r, hr, hsel, -⟩ := decode_eq_ok_iff.1 hdec
      exact absurd hsel (by simp [hno r hr])

/-! ## Illegal words (rule R74) -/

theorem Form.opcode_row_pat (r : Form) : r.row.pat.extractLsb' 24 8 = r.opcode :=
  congrArg Fields.opcode (Fields.ofWord_toWord r.matchFields)

/-- Whatever flags a command defines, `CMD[11:10]` are none of them. -/
theorem FlagUse.upper_eq_zero_of_objection_eq_none {u : FlagUse} {x : BitVec 4} (h : u.objection x = .none) :
    x.extractLsb' 2 2 = 0#2 := by
  cases u
  all_goals
    revert x
    decide

theorem Fields.ofWord_fl_upper (w : BitVec 32) : (Fields.ofWord w).fl.extractLsb' 2 2 = w.extractLsb' 10 2 := by
  refine BitVec.eq_of_getLsbD_eq fun i hi => ?_
  have h : 2 + i < 4 := by omega
  simp only [Fields.ofWord, BitVec.getLsbD_extractLsb', h, decide_true, Bool.true_and]
  congr 2
  omega

/-- The opcode values that rule R74 calls unassigned. -/
abbrev UnassignedOpcode (x : BitVec 8) : Prop :=
  x = 0x00#8 ∨ (0x03#8 ≤ x ∧ x ≤ 0x0F#8) ∨ (0x18#8 ≤ x ∧ x ≤ 0x1F#8) ∨ (0x2A#8 ≤ x ∧ x ≤ 0x2F#8) ∨ x = 0x3F#8 ∨
    0x4C#8 ≤ x

theorem Form.not_unassignedOpcode : ∀ r ∈ forms, ¬ UnassignedOpcode r.opcode := by
  decide

/-- Every row with the opcode of a selected word selects it: the table has one row per opcode. -/
theorem Form.selects_of_opcode_eq {r q : Form} (hr : r ∈ forms) (hq : q ∈ forms) {w : BitVec 32}
    (hsel : r.row.selects w = true) (hop : w.extractLsb' 24 8 = q.row.pat.extractLsb' 24 8) : q.row.selects w = true := by
  have hrop : w.extractLsb' 24 8 = r.opcode := ((r.selects_row w).1 hsel).1
  obtain rfl : r = q := Form.eq_of_opcode_eq hr hq (hrop.symm.trans (hop.trans q.opcode_row_pat))
  exact hsel

/-- Settles O7: a word without a row does not decode, and a word that a row selects has none of the faults that rule R74
lists. -/
theorem illegalCommandIsRaised : Obligations.IllegalCommandIsRaised := by
  refine ⟨fun s c rest hport hno => ?raised, fun w hill => ?unselected⟩
  case raised =>
    obtain ⟨-, -, -, hrejects⟩ := decoderFollowsOpcodeTable
    obtain ⟨e, hdec⟩ := hrejects c hno
    rw [Machine.step_of_decode_error hport hdec, Machine.State.raise_eq_faulted _ rfl]
  case unselected =>
    rw [opcodeTable_eq] at hill ⊢
    refine List.forall_mem_map.2 fun r hr => Bool.eq_false_iff.2 fun hsel => ?_
    obtain ⟨hop, hobj⟩ := (r.selects_row w).1 hsel
    obtain ⟨hrsv, hfl, -⟩ := Fields.objection_eq_none.1 hobj
    have hassigned : ¬ UnassignedOpcode (w.extractLsb' 24 8) := by
      rw [show w.extractLsb' 24 8 = r.opcode from hop]
      exact r.not_unassignedOpcode hr
    have hreserved : w.extractLsb' 0 8 = 0#8 := hrsv
    have hupper : w.extractLsb' 10 2 = 0#2 :=
      (Fields.ofWord_fl_upper w).symm.trans (FlagUse.upper_eq_zero_of_objection_eq_none hfl)
    have hzeros : w ≠ 0x00000000#32 := by
      rintro rfl
      exact hassigned (.inl rfl)
    have hones : w ≠ 0xFFFFFFFF#32 := by
      rintro rfl
      exact hassigned (by decide)
    have hmask : ¬ ∃ q ∈ forms.map Form.row, w.extractLsb' 24 8 = q.pat.extractLsb' 24 8 ∧ w &&& q.mask ≠ q.pat := by
      rintro ⟨_, hmem, hqop, hqmask⟩
      obtain ⟨q, hq, rfl⟩ := List.mem_map.1 hmem
      exact hqmask ((q.row.selects_iff w).1 (Form.selects_of_opcode_eq hr hq hsel hqop))
    unfold UnassignedOpcode at hassigned
    grind

/-- Settles O5 by evaluation: six closed words. -/
theorem specWordsDecode : Obligations.SpecWordsDecode := by
  unfold Obligations.SpecWordsDecode
  decide +kernel

/-! ## Operand words (rule R72) -/

theorem sgn_eq_toInt (x : BitVec 64) : sgn x = x.toInt := by
  rw [BitVec.toInt_eq_toNat_cond, sgn]
  split_ifs <;> omega

/-- Nothing is read from `OPB`, but by the three opcodes that do. -/
theorem Form.build_opb {r : Form} (hr : r ∈ forms) (hno : r.opcode ∉ [0x10#8, 0x14#8, 0x3C#8]) (f : Fields)
    (a b b' : BitVec 64) : r.build f a b = r.build f a b' := by
  fin_cases hr
  any_goals rfl
  all_goals exact absurd (by decide) hno

/-- Nothing is read from `OPA`, but by the fourteen opcodes that do. -/
theorem Form.build_opa {r : Form} (hr : r ∈ forms) (hno : r.opcode ∉ [0x02#8, 0x10#8, 0x13#8, 0x14#8, 0x21#8, 0x26#8,
    0x27#8, 0x28#8, 0x29#8, 0x31#8, 0x3B#8, 0x3C#8, 0x4A#8, 0x4B#8]) (f : Fields) (a a' b : BitVec 64) :
    r.build f a b = r.build f a' b := by
  fin_cases hr
  any_goals rfl
  all_goals exact absurd (by decide) hno

/-- What is decoded changes with the operand words only if what the word's form builds does. -/
theorem decode_congr {w : BitVec 32} {a a' b b' : BitVec 64}
    (h : ∀ r ∈ forms, w.extractLsb' 24 8 = r.opcode → r.build (Fields.ofWord w) a b = r.build (Fields.ofWord w) a' b') :
    decode ⟨w, a, b⟩ = decode ⟨w, a', b'⟩ := by
  obtain ⟨r, hr, hop, hdec⟩ | ⟨-, hdec⟩ := decode_cases w
  · rw [hdec, hdec, h r hr hop]
  · rw [hdec, hdec]

/-- The two commands with bounds read the operand words as bounds only. -/
theorem Form.build_bounds {r : Form} (hr : r ∈ forms) (hop : r.opcode ∈ [0x14#8, 0x3C#8]) {f : Fields}
    {a a' b b' : BitVec 64} (hstart : f.startBound a = f.startBound a') (hstop : f.stopBound b = f.stopBound b') :
    r.build f a b = r.build f a' b' := by
  have hcases : r.opcode = 0x14#8 ∨ r.opcode = 0x3C#8 := by simpa using hop
  obtain h | h := hcases
  · obtain rfl : r = forms[6] := Form.eq_of_opcode_eq hr (List.getElem_mem _) h
    exact congrArg₂ (Instr.bsSlice f.rdReg f.raReg) hstart hstop
  · obtain rfl : r = forms[32] := Form.eq_of_opcode_eq hr (List.getElem_mem _) h
    exact congrArg₂ (Instr.bbSlice f.mdSlot f.maSlot) hstart hstop

theorem Fields.ofWord_fl_getLsbD {w : BitVec 32} {i : Nat} (hi : i < 4) :
    (Fields.ofWord w).fl.getLsbD i = w.getLsbD (8 + i) := by
  simp [Fields.ofWord, hi]

theorem Fields.startBound_of_absent {f : Fields} (h : f.fl.getLsbD 0 = true) (a : BitVec 64) : f.startBound a = none :=
  if_pos h

theorem Fields.stopBound_of_absent {f : Fields} (h : f.fl.getLsbD 1 = true) (b : BitVec 64) : f.stopBound b = none :=
  if_pos h

/-- A word that the row at index `k` selects is decoded by the form at that index. -/
theorem decode_of_selects (k : Nat) (hk : k < forms.length) {w : BitVec 32} {a b : BitVec 64} {i : Instr}
    (hsel : forms[k].row.selects w = true) (hi : forms[k].build (Fields.ofWord w) a b = i) : decode ⟨w, a, b⟩ = .ok i :=
  decode_eq_ok_iff.2 ⟨forms[k], List.getElem_mem hk, hsel, hi⟩

/-- Settles O4: the form alone decides legality, and a form reads the operand words it names and no others. -/
theorem operandWords : Obligations.OperandWords := by
  refine ⟨?legality, ?opb, ?opa, ?bounds, ?readings⟩
  case legality =>
    intro w a a' b b' e h
    obtain ⟨r, -, -, hdec⟩ | ⟨-, hdec⟩ := decode_cases w
    · rw [hdec, Fields.accept] at h ⊢
      split at h
      · cases h
      · exact h
    · rwa [hdec] at h ⊢
  case opb => exact fun w a b b' hno => decode_congr fun r hr hop => Form.build_opb hr (hop ▸ hno) _ a b b'
  case opa => exact fun w a a' b hno => decode_congr fun r hr hop => Form.build_opa hr (hop ▸ hno) _ a a' b
  case bounds =>
    refine fun w a a' b b' hmem => ⟨fun habsent => ?_, fun habsent => ?_⟩
    · have h := (Fields.ofWord_fl_getLsbD (i := 0) (by decide)).trans habsent
      exact decode_congr fun r hr hop => Form.build_bounds hr (hop ▸ hmem)
        ((Fields.startBound_of_absent h a).trans (Fields.startBound_of_absent h a').symm) rfl
    · have h := (Fields.ofWord_fl_getLsbD (i := 1) (by decide)).trans habsent
      exact decode_congr fun r hr hop => Form.build_bounds hr (hop ▸ hmem) rfl
        ((Fields.stopBound_of_absent h b).trans (Fields.stopBound_of_absent h b').symm)
  case readings =>
    intro a b
    simp only [← sgn_eq_toInt]
    refine ⟨decode_of_selects 5 (by decide) (by decide) rfl, decode_of_selects 6 (by decide) (by decide) ?_,
      decode_of_selects 2 (by decide) (by decide) rfl⟩
    exact congrArg₂ (Instr.bsSlice 1 0) (if_neg (by decide)) (if_neg (by decide))

/-! ## BS.PARSE: the chunks of a value, and the commands that join them (30_encoding.md rule R77) -/

namespace Bits

theorem slice_append_slice (x : Bits) {lo mid hi : Nat} (hlo : lo ≤ mid) (hmid : mid ≤ hi) (hhi : hi ≤ x.len) :
    (x.slice lo mid).append (x.slice mid hi) = x.slice lo hi := by
  have hlen : hi - lo = (mid - lo) + (hi - mid) := by omega
  have hdrop : mid = lo + (mid - lo) := by omega
  refine ext_digits ?_
  rw [digits_append, digits_slice x (by omega), digits_slice x hhi, digits_slice x hhi, hlen, List.take_add, List.drop_drop,
    ← hdrop]

theorem len_foldl_append (cs : List Bits) (y : Bits) : (cs.foldl append y).len = y.len + (cs.map len).sum := by
  induction cs generalizing y with
  | nil => rfl
  | cons c cs ih => rw [List.foldl_cons, ih, len_append, List.map_cons, List.sum_cons, Nat.add_assoc]

end Bits

namespace Machine

/-- Joining the first `k` chunks of 64 digits gives the digits before position `64 k`. -/
theorem concatAll_chunks (x : Bits) {k : Nat} (hk : k ≤ (x.len + 63) / 64) :
    concatAll ((List.range k).map fun j => x.slice (64 * j) (min (64 * j + 64) x.len)) = x.slice 0 (min (64 * k) x.len) := by
  induction k with
  | zero => exact (Bits.eq_empty_of_len (by simp)).symm
  | succ k ih =>
    have hstart : min (64 * k) x.len = 64 * k := by omega
    rw [List.range_succ, List.map_append, concatAll, List.foldl_append, ← concatAll, ih (by omega), hstart]
    exact Bits.slice_append_slice x (Nat.zero_le _) (by omega) (by omega)

theorem concatAll_chunks64 (x : Bits) : concatAll (chunks64 x) = x := by
  have hall : min (64 * ((x.len + 63) / 64)) x.len = x.len := by omega
  rw [chunks64, concatAll_chunks x le_rfl, hall, Bits.slice_full]

theorem chunks64_len_pos {x c : Bits} (hc : c ∈ chunks64 x) : 0 < c.len := by
  obtain ⟨j, hj, rfl⟩ := List.mem_map.1 hc
  rw [List.mem_range] at hj
  rw [Bits.len_slice]
  omega

/-- `t` comes from `s` by writes to `rd` and to the scratch register alone. -/
structure State.LoadedFrom (s : State) (rd : Reg) (t : State) : Prop where
  maxw : t.maxw = s.maxw
  regs : ∀ r : Reg, r ≠ rd → r ≠ scratch → t.reg r = s.reg r
  arch : State.SameArch { s with regs := t.regs } t

theorem State.LoadedFrom.refl (s : State) (rd : Reg) : s.LoadedFrom rd s where
  maxw := rfl
  regs _ _ _ := rfl
  arch := ⟨rfl, rfl, rfl, rfl, rfl, rfl, rfl, rfl⟩

theorem State.reg_wrote (s : State) (rd r : Reg) (v : Bits) :
    (s.wrote rd v).reg r = if r = rd then v else s.reg r :=
  State.reg_setReg s rd r v

theorem State.LoadedFrom.wrote {s t : State} {rd r : Reg} (h : s.LoadedFrom rd t) (hr : r = rd ∨ r = scratch) (v : Bits) :
    s.LoadedFrom rd (t.wrote r v) where
  maxw := h.maxw
  regs q hrd hscr := by
    have hq : q ≠ r := by
      rintro rfl
      exact hr.elim hrd hscr
    rw [State.reg_wrote, if_neg hq, h.regs q hrd hscr]
  arch := ⟨rfl, h.arch.slots, h.arch.mb, h.arch.h, h.arch.v, h.arch.w, h.arch.counter, h.arch.esticky⟩

theorem Room.of_maxw {s t : State} {m n : Nat} (h : Room s n) (hmaxw : t.maxw = s.maxw) (hmn : m ≤ n) : Room t m :=
  fun k hk => le_trans hmn (h k (hmaxw ▸ hk))

theorem exec_bsLdi_val_len {s : State} {c : Bits} (rd : Reg) (hc : 0 < c.len) (hroom : Room s c.len) :
    exec (.bsLdi rd c.val c.len) s = .next (s.wrote rd c) := by
  rw [exec, execBsLdi, Bits.fromInt_val_len hc, State.finishReg_of_room hroom]

theorem exec_bsJoin_of_room {s : State} {rd ra rb : Reg} (hroom : Room s ((s.reg ra).append (s.reg rb)).len) :
    exec (.bsJoin rd ra rb) s = .next (s.wrote rd ((s.reg ra).append (s.reg rb))) := by
  rw [exec, execBsJoin, State.finishReg_of_room hroom]

/-- The commands of one chunk append it to `rd`. -/
theorem execAll_chunkCommands {s : State} {rd : Reg} {c : Bits} (hrd : rd ≠ scratch) (hc : 0 < c.len)
    (hroom : Room s ((s.reg rd).append c).len) (rest : List Instr) :
    execAll (chunkCommands rd c ++ rest) s =
      execAll rest ((s.wrote scratch c).wrote rd ((s.reg rd).append c)) := by
  have hload : exec (.bsLdi scratch c.val c.len) s = .next (s.wrote scratch c) :=
    exec_bsLdi_val_len scratch hc (hroom.of_maxw rfl (by simp))
  have hra : (s.wrote scratch c).reg rd = s.reg rd := by rw [State.reg_wrote, if_neg hrd]
  have hrb : (s.wrote scratch c).reg scratch = c := by rw [State.reg_wrote, if_pos rfl]
  have hjoin : exec (.bsJoin rd rd scratch) (s.wrote scratch c) =
      .next ((s.wrote scratch c).wrote rd ((s.reg rd).append c)) := by
    rw [exec_bsJoin_of_room (by rw [hra, hrb]; exact hroom), hra, hrb]
  simp only [chunkCommands, List.cons_append, List.nil_append, execAll, hload, hjoin]

/-- The commands of a list of chunks append them to `rd`, one after another, as long as the whole fits. -/
theorem execAll_chunks {rd : Reg} (hrd : rd ≠ scratch) (s : State) (cs : List Bits) (hcs : ∀ c ∈ cs, 0 < c.len) {t : State}
    (hfrom : s.LoadedFrom rd t) (hroom : Room t (cs.foldl Bits.append (t.reg rd)).len) :
    ∃ u, execAll (cs.flatMap (chunkCommands rd)) t = .next u ∧ u.reg rd = cs.foldl Bits.append (t.reg rd) ∧
      s.LoadedFrom rd u := by
  induction cs generalizing t with
  | nil => exact ⟨t, rfl, rfl, hfrom⟩
  | cons c cs ih =>
    have hfits : Room t ((t.reg rd).append c).len :=
      hroom.of_maxw rfl (by rw [List.foldl_cons, Bits.len_foldl_append]; omega)
    rw [List.flatMap_cons, execAll_chunkCommands hrd (hcs c List.mem_cons_self) hfits]
    have hnext := (hfrom.wrote (.inr rfl) c).wrote (.inl rfl) ((t.reg rd).append c)
    have hreg : ((t.wrote scratch c).wrote rd ((t.reg rd).append c)).reg rd = (t.reg rd).append c := by
      rw [State.reg_wrote, if_pos rfl]
    have hstep := ih (fun d hd => hcs d (List.mem_cons_of_mem c hd)) hnext
    rw [hreg] at hstep
    exact hstep hroom

/-- Settles O59: BS.EMPTY, then the chunks' commands, which append chunks that join to `x`. -/
theorem parseLoadsAnyValue : Obligations.ParseLoadsAnyValue := by
  intro rd x s hrd hroom
  have hempty : exec (.bsEmpty rd) s = .next (s.wrote rd Bits.empty) := by
    rw [exec, execBsEmpty, State.finishReg_of_room (hroom.of_maxw rfl (Nat.zero_le _))]
  have hreg : (s.wrote rd Bits.empty).reg rd = Bits.empty := by rw [State.reg_wrote, if_pos rfl]
  have hjoined : (chunks64 x).foldl Bits.append ((s.wrote rd Bits.empty).reg rd) = x := by
    rw [hreg]
    exact concatAll_chunks64 x
  obtain ⟨t, hrun, hrdval, hfrom⟩ := execAll_chunks hrd s (chunks64 x) (fun _ => chunks64_len_pos)
    ((State.LoadedFrom.refl s rd).wrote (.inl rfl) Bits.empty) (by rw [hjoined]; exact hroom.of_maxw rfl le_rfl)
  refine ⟨t, ?_, hrdval.trans hjoined, hfrom.regs, hfrom.arch⟩
  simpa only [parseCommands, execAll, hempty] using hrun

end Machine

end Sys2Proof

namespace Sys2Proof.Bits

/-! ## Digit strings of the BitStream commands (40_bitstream_alu.md) -/

theorem digits_slice_eq_map (x : Bits) {lo hi : Nat} (h : hi ≤ x.len) :
    (x.slice lo hi).digits = (List.range (hi - lo)).map fun k => x.digit (lo + k) :=
  digits_eq_of (by simp) fun i hi' => by
    rw [digit_slice x h (by simpa using hi'), List.getElem_map, List.getElem_range]

theorem digits_slice_single (x : Bits) {j : Nat} (h : j < x.len) : (x.slice j (j + 1)).digits = [x.digit j] := by
  have hone : j + 1 - j = 1 := Nat.add_sub_cancel_left j 1
  rw [digits_slice_eq_map x h, hone]
  rfl

theorem add_swap (x y : Bits) : x.add y = y.add x := by
  rw [add, add, Nat.add_comm, max_comm]

theorem len_add (x y : Bits) : (x.add y).len = max (max x.len y.len) (Machine.numeralLen (x.val + y.val)) :=
  len_fromInt _ _

theorem len_addi (x : Bits) (n : Nat) : (x.addi n).len = max x.len (Machine.numeralLen (x.val + n)) :=
  len_fromInt _ _

/-- The carry out is at most one bit. -/
theorem len_add_eq_or (x y : Bits) :
    (x.add y).len = max x.len y.len ∨ (x.add y).len = max x.len y.len + 1 := by
  have hx : x.val < 2 ^ max x.len y.len := x.val_lt.trans_le (Nat.pow_le_pow_right (by decide) (le_max_left _ _))
  have hy : y.val < 2 ^ max x.len y.len := y.val_lt.trans_le (Nat.pow_le_pow_right (by decide) (le_max_right _ _))
  have hle : (x.add y).len ≤ max x.len y.len + 1 :=
    len_add_le x y _ (by omega) (by omega) (by omega) (by rw [Nat.pow_succ]; omega)
  have hge : max x.len y.len ≤ (x.add y).len := max_le (le_len_add_left x y) (le_len_add_right x y)
  omega

/-- A right rotation is undone by the left rotation by as many places. -/
theorem digits_rotr_rotate (x : Bits) (n : Nat) : (x.rotr n).digits.rotate n = x.digits := by
  rw [digits_rotr, List.rotate_rotate]
  obtain hlen | hlen := Nat.eq_zero_or_pos x.len
  · rw [eq_empty_of_len hlen, digits_empty, List.rotate_nil]
  · have hturn : x.len - n % x.len + n = x.len * (n / x.len + 1) := by
      have := Nat.mod_lt n hlen
      have := Nat.div_add_mod n x.len
      rw [Nat.mul_succ]
      omega
    rw [hturn, ← length_digits, List.rotate_length_mul]

/-- A left rotation by `n` places takes both values to the digits of `x.rotl n`, and rotating is injective. -/
theorem rotr_rotl (x : Bits) (n : Nat) : (x.rotl n).rotr n = x :=
  ext_digits (List.rotate_injective n ((digits_rotr_rotate _ n).trans (digits_rotl x n)))

theorem xor_self_eq_zeros (x : Bits) : x.xor x = zeros x.len :=
  ext_val (max_self _) (by rw [val_xor, Nat.xor_self, val_zeros])

theorem padLeft_digits_of_len {x : Bits} {w : Nat} (h : x.len = w) : Machine.padLeft w x.digits = x.digits := by
  simp [Machine.padLeft, h]

/-- An operation that answers `c` on every digit and its complement answers `c` everywhere on `x` and `NOT x`. -/
theorem zipWith_padLeft_not {f : Bool → Bool → Bool} {c : Bool} (hf : ∀ b, f b (!b) = c) (x : Bits) :
    List.zipWith f (Machine.padLeft (max x.len x.not.len) x.digits) (Machine.padLeft (max x.len x.not.len) x.not.digits) =
      List.replicate x.len c := by
  have hw : max x.len x.not.len = x.len := max_self _
  rw [hw, padLeft_digits_of_len rfl, padLeft_digits_of_len (len_not x), digits_not, List.zipWith_map_right,
    List.zipWith_self]
  simp only [hf, List.map_const', length_digits]

theorem and_not_eq_zeros (x : Bits) : x.and x.not = zeros x.len :=
  ext_digits (by rw [digits_and, zipWith_padLeft_not Bool.and_not_self, digits_zeros])

theorem digits_or_not (x : Bits) : (x.or x.not).digits = List.replicate x.len true := by
  rw [digits_or, zipWith_padLeft_not Bool.or_not_self]

end Sys2Proof.Bits

namespace Sys2Proof.Machine

/-! ## Sums associated in any way (40_bitstream_alu.md rule R118) -/

theorem AddTree.val_eval (e : AddTree) : e.eval.val = e.total := by
  induction e with
  | leaf x => rfl
  | add l r ihl ihr => rw [eval, Bits.val_add, ihl, ihr, total]

/-- No addition drops a digit: a sum is as wide as its operands. -/
theorem AddTree.le_len_eval {n : Nat} {e : AddTree} (h : e.Wide n) : n ≤ e.eval.len := by
  induction e with
  | leaf x => exact Eq.ge h
  | add l r ihl _ =>
    obtain ⟨hl, -⟩ := h
    exact (ihl hl).trans (Bits.le_len_add_left _ _)

/-- Settles O34: an untruncated sum keeps its whole value and at least `n` digits; the failing case by evaluation. -/
theorem twoStepModularAddition : Obligations.TwoStepModularAddition := by
  refine ⟨fun n e _ hwide => ⟨?_, ?_⟩, by decide⟩
  · rw [Bits.len_mod, min_eq_right (AddTree.le_len_eval hwide)]
  · rw [Bits.val_mod, AddTree.val_eval]

/-- Settles O33, property by property. -/
theorem algebraicProperties : Obligations.AlgebraicProperties := fun x n =>
  ⟨x.rotr_rotl n, x.xor_self_eq_zeros, x.and_not_eq_zeros, x.digits_or_not⟩

/-! ## The meanings that can fault, one equation per case (rules R103, R114, R117) -/

theorem normIndex_eq_some {len j : Nat} {i : Int} (hj : (j : Int) = fromEnd len i) (hlt : j < len) :
    normIndex len i = some j := by
  cases hnorm : normIndex len i with
  | none => exact absurd (by omega) (normIndex_none.1 hnorm)
  | some k =>
    obtain ⟨-, hk⟩ := normIndex_some hnorm
    exact congrArg some (by omega)

theorem faults_bsBit {s : State} {ra : Reg} {i : Int} (rd : Reg) (h : normIndex (s.reg ra).len i = none) :
    Faults (.bsBit rd ra i) s .indexShape := by
  simp only [Faults, exec, execBsBit, h]
  rw [State.raise_eq_faulted s rfl]

theorem writesReg_bsBit {s : State} {ra : Reg} {i : Int} {j : Nat} (rd : Reg)
    (h : normIndex (s.reg ra).len i = some j) : WritesReg (.bsBit rd ra i) s rd ((s.reg ra).slice j (j + 1)) :=
  writesReg_of_finishReg (by simp only [exec, execBsBit, h])

theorem faults_bsMod_zero (rd ra : Reg) (s : State) : Faults (.bsMod rd ra 0) s .operandDomain := by
  rw [Faults, exec, execBsMod, if_pos rfl, State.raise_eq_faulted s rfl]

theorem writesReg_bsMod {d : Nat} (rd ra : Reg) (s : State) (h : 1 ≤ d) :
    WritesReg (.bsMod rd ra d) s rd ((s.reg ra).mod d) :=
  writesReg_of_finishReg (by rw [exec, execBsMod, if_neg (by omega)])

theorem faults_bsShr_zero (rd ra : Reg) (s : State) : Faults (.bsShr rd ra 0) s .operandDomain := by
  rw [Faults, exec, execBsShr, if_pos rfl, State.raise_eq_faulted s rfl]

theorem writesReg_bsShr {n : Nat} (rd ra : Reg) (s : State) (h : 1 ≤ n) :
    WritesReg (.bsShr rd ra n) s rd ((s.reg ra).shr n) :=
  writesReg_of_finishReg (by rw [exec, execBsShr, if_neg (by omega)])

/-! ## The BitStream commands (40_bitstream_alu.md) -/

/-- Settles O23: the value written is `from_int(n, zfill)`. -/
theorem loadInteger : Obligations.LoadInteger := fun _ n zfill _ =>
  ⟨command_opcode _ _ _, Bits.fromInt n zfill, Bits.val_fromInt n zfill, Bits.len_fromInt n zfill,
    writesReg_of_finishReg rfl⟩

/-- Settles O25, by whether the index is in range. -/
theorem singleBitIndex : Obligations.SingleBitIndex := fun rd _ _ _ =>
  ⟨command_opcode _ _ _, fun hout => faults_bsBit rd (normIndex_none.2 hout), fun _ hj hlt =>
    ⟨_, Bits.digits_slice_single _ hlt, writesReg_bsBit rd (normIndex_eq_some hj hlt)⟩⟩

/-- Settles O26: the positions selected are those between the normalised bounds, which lie within the value. -/
theorem bitSlice : Obligations.BitSlice := by
  refine fun rd ra start stop s => ⟨command_opcode _ _ _, _, ?_, writesReg_of_finishReg rfl⟩
  rw [Bits.digits_slice_eq_map _ (normSlice_bounds _ start stop).2, selected_eq_range, List.map_map]
  rfl

/-- Settles O28: the sum is `from_int` of the exact value; exchanged sources give the same sum. -/
theorem additionNeverTruncates : Obligations.AdditionNeverTruncates := by
  refine fun rd ra rb n s => ⟨⟨command_opcode _ _ _, (s.reg ra).add (s.reg rb), Bits.val_add _ _, Bits.len_add _ _,
    Bits.len_add_eq_or _ _, writesReg_of_finishReg rfl, writesReg_of_finishReg ?exchanged⟩,
    command_opcode _ _ _, (s.reg ra).addi n, Bits.val_addi _ _, Bits.len_addi _ _, writesReg_of_finishReg rfl⟩
  rw [Bits.add_swap]
  rfl

/-- Settles O29, by whether `d` is 0. -/
theorem bitTruncation : Obligations.BitTruncation := fun rd ra d s =>
  ⟨command_opcode _ _ _, fun h0 => h0 ▸ faults_bsMod_zero rd ra s, fun h1 =>
    ⟨(s.reg ra).mod d, Bits.digits_mod _ d, Bits.len_mod _ d, Bits.val_mod _ d, writesReg_bsMod rd ra s h1⟩⟩

/-- Settles O30, command by command. -/
theorem bitwiseLogic : Obligations.BitwiseLogic := fun _ _ _ _ =>
  ⟨⟨command_opcode _ _ _, _, Bits.digits_and _ _, writesReg_of_finishReg rfl⟩,
    ⟨command_opcode _ _ _, _, Bits.digits_or _ _, writesReg_of_finishReg rfl⟩,
    ⟨command_opcode _ _ _, _, Bits.digits_xor _ _, writesReg_of_finishReg rfl⟩,
    command_opcode _ _ _, _, Bits.digits_not _, Bits.len_not _, Bits.val_not _, writesReg_of_finishReg rfl⟩

/-- Settles O31, by whether `n` is 0. -/
theorem shiftRight : Obligations.ShiftRight := fun rd ra n s =>
  ⟨command_opcode _ _ _, fun h0 => h0 ▸ faults_bsShr_zero rd ra s, fun h1 =>
    ⟨(s.reg ra).shr n, Bits.digits_shr _ n, Bits.len_shr _ n, Bits.val_shr _ n, writesReg_bsShr rd ra s h1⟩⟩

/-- Settles O32: the right rotation by its inverse. -/
theorem rotations : Obligations.Rotations := fun _ _ n _ =>
  ⟨⟨command_opcode _ _ _, _, Bits.digits_rotl _ n, writesReg_of_finishReg rfl⟩,
    command_opcode _ _ _, _, Bits.digits_rotr_rotate _ n, writesReg_of_finishReg rfl⟩

/-- Settles O24: the empty value fits under every `MAXW`. -/
theorem emptyAndConcatenation : Obligations.EmptyAndConcatenation := by
  refine fun rd ra rb s => ⟨⟨command_opcode _ _ _, ?empty⟩, command_opcode _ _ _, (s.reg ra).append (s.reg rb),
    Bits.digits_append _ _, Bits.len_append _ _, Bits.val_append _ _, writesReg_of_finishReg rfl⟩
  exact (writesReg_of_finishReg rfl).1 fun _ _ => Nat.zero_le _

/-- Settles O27: values are equal exactly when their digit strings are, and `OK` leaves `ESTICKY` as it was. -/
theorem lengthEqualityRead : Obligations.LengthEqualityRead := by
  refine fun ra rb s => ⟨⟨command_opcode _ _ _, ?len⟩, ⟨command_opcode _ _ _, ?eq⟩, command_opcode _ _ _, ?rd⟩
  case len => rw [exec, execBsLen, State.respond_eq_answered s _ _ rfl]
  case eq =>
    rw [exec, execBsEq, State.respond_eq_answered s _ _ rfl]
    simp only [Bits.digits_inj]
  case rd => rw [exec, execBsRd, State.respond_eq_answered s _ _ rfl]

end Sys2Proof.Machine

namespace Sys2Proof.Machine

/-! ## The digits of a word in an order, and of a slice of a buffer (20_memory.md rules R52, R58) -/

theorem Order.digits_arrange (o : Order) {x : Bits} {n : Nat} (hx : x.len = 8 * n) :
    (Order.arrange o x).digits = orderedDigits o x 0 n := by
  have h := digits_arrange_slice o x (off := 0) (n := n) (by omega)
  rwa [Nat.zero_add, ← hx, Nat.mul_zero, Bits.slice_full] at h

theorem orderedDigits_zero (o : Order) (x : Bits) (off : Nat) : orderedDigits o x off 0 = [] := by
  cases o <;> rfl

/-- The value of a relative read; with no byte left it is empty wherever the cursor stands. -/
theorem ByteBuffer.digits_get (b : ByteBuffer) (n : Nat) :
    (b.get n).1.digits = orderedDigits b.order b.store b.cur (b.getCount n) := by
  by_cases hk : b.getCount n = 0
  case pos =>
    have hempty : (b.get n).1 = Bits.empty := Bits.eq_empty_of_len (by rw [ByteBuffer.len_get, hk])
    rw [hempty, hk, orderedDigits_zero, Bits.digits_empty]
  case neg =>
    have hfits : 8 * (b.cur + b.getCount n) ≤ b.store.len := by
      simp only [ByteBuffer.getCount, ByteBuffer.blen] at hk ⊢
      omega
    exact digits_arrange_slice b.order b.store hfits

/-- The bytes at the selected positions are one range of the store. -/
theorem ByteBuffer.digits_copyOut_normSlice (b : ByteBuffer) (start stop : Option Int) :
    (b.copyOut (normSlice b.blen start stop).1
        ((normSlice b.blen start stop).2 - (normSlice b.blen start stop).1)).store.digits =
      (selected b.blen start stop).flatMap (byteDigits b.store) := by
  have hfits : 8 * ((normSlice b.blen start stop).1 +
      ((normSlice b.blen start stop).2 - (normSlice b.blen start stop).1)) ≤ b.store.len := by
    have hbounds := normSlice_bounds b.blen start stop
    have hblen : 8 * b.blen ≤ b.store.len := Nat.mul_div_le b.store.len 8
    omega
  rw [selected_eq_range, List.flatMap_map]
  exact digits_slice_bytes b.store hfits

theorem ByteBuffer.digits_copyOut_one {b : ByteBuffer} {j : Nat} (hj : j < b.blen) :
    (b.copyOut j 1).store.digits = byteDigits b.store j :=
  (byteDigits_eq_slice b.store (by simp only [ByteBuffer.blen] at hj; omega)).symm

/-! ## The word stores and loads (41_bytebuffer.md rules R156 to R158) -/

theorem storesWord_of_putWord {i : Instr} {n : Nat} {s : State} {md : Slot} {ra : Reg}
    (h : exec i s = .next (s.putWord md ra n)) : StoresWord i n s md ra := by
  obtain ⟨hlen, he⟩ | ⟨hlen, he⟩ := State.putWord_cases s md ra n
  · exact ⟨absurd hlen, fun _ =>
      ⟨_, Order.digits_arrange _ hlen, writesSlot_of_finishSlot (h.trans (congrArg _ he))⟩⟩
  · exact ⟨fun _ => h.trans (congrArg _ he), fun hl => absurd hl hlen⟩

theorem ByteBuffer.getStatus_get (b : ByteBuffer) (n : Nat) :
    getStatus (b.get n).1 = if b.getCount n = 0 then .exhausted else .ok := by
  simp only [getStatus, ByteBuffer.len_get, Nat.mul_eq_zero, OfNat.ofNat_ne_zero, false_or]

theorem loadsWord_of_getWord {i : Instr} {n : Nat} {s : State} {rd : Reg} {ma : Slot}
    (h : exec i s = .next (s.getWord rd ma n)) : LoadsWord i n s rd ma := by
  refine ⟨((s.slot ma).get n).1, ByteBuffer.len_get _ n, ByteBuffer.digits_get _ n, ?_⟩
  obtain ⟨hroom, he⟩ | ⟨hroom, he⟩ := State.getWord_cases s rd ma n
  · rw [ByteBuffer.getStatus_get] at he
    exact ⟨fun _ => h.trans (congrArg _ he), fun hno => absurd hroom hno⟩
  · exact ⟨fun hr => absurd hr hroom, fun _ => h.trans (congrArg _ he)⟩

/-- Rule R158 on the buffer alone: the word stands behind the bytes already read, in the order it is read in. -/
theorem ByteBuffer.get_putWord {b : ByteBuffer} {word : Bits} {n : Nat} (hb : b.wf = true) (hcur : b.cur = b.blen)
    (hw : word.len = 8 * n) : ((b.putWord word).get n).1 = word := by
  have hlen : (Order.arrange b.order word).len = 8 * n := (Order.len_arrange _ (by omega)).trans hw
  have hcount : (b.putWord word).getCount n = n := by
    rw [ByteBuffer.getCount, ByteBuffer.putWord, ByteBuffer.blen_memWrite b hlen]
    simp only [ByteBuffer.memWrite]
    omega
  have hread : (b.putWord word).memRead b.cur n = Order.arrange b.order word := by
    have hstore : 8 * b.cur = b.store.len := by
      rw [ByteBuffer.wf_iff] at hb
      simp only [ByteBuffer.blen] at hcur
      omega
    have hend := slice_append_right b.store (Order.arrange b.order word) (lo := 0) le_rfl
    rwa [Bits.slice_full, Nat.add_zero, hlen, ← hstore, ← Nat.mul_add] at hend
  calc ((b.putWord word).get n).1
      = Order.arrange b.order ((b.putWord word).memRead b.cur ((b.putWord word).getCount n)) := rfl
    _ = Order.arrange b.order (Order.arrange b.order word) := by rw [hcount, hread]
    _ = word := Order.arrange_arrange b.order (by omega)

theorem State.slot_stored_same (s : State) (md : Slot) (b : ByteBuffer) : (s.stored md b).slot md = b :=
  State.slot_setSlot_same s md b

theorem State.putWord_of_room {s : State} {md : Slot} {ra : Reg} {n : Nat} (hlen : (s.reg ra).len = 8 * n)
    (hroom : Room s ((s.slot md).store.len + 8 * n)) :
    s.putWord md ra n = s.stored md ((s.slot md).putWord (s.reg ra)) := by
  have harr := (Order.len_arrange (s.slot md).order (v := s.reg ra) (by omega)).trans hlen
  rw [State.putWord, if_pos hlen, ← ByteBuffer.putWord, State.finishSlot_of_room]
  rwa [ByteBuffer.putWord, ByteBuffer.memWrite, Bits.len_append, harr]

theorem State.reg_getWord_of_room {s : State} {ma : Slot} {n : Nat} (rd : Reg) (h : Room s ((s.slot ma).get n).1.len) :
    (s.getWord rd ma n).reg rd = ((s.slot ma).get n).1 := by
  obtain ⟨-, he⟩ | ⟨hno, -⟩ := State.getWord_cases s rd ma n
  · rw [he]
    exact State.reg_setReg_same _ rd _
  · exact absurd h hno

theorem State.reg_getWord_putWord {s : State} {m : Slot} {ra : Reg} {n : Nat} (rd : Reg) (hwf : (s.slot m).wf = true)
    (hcur : (s.slot m).cur = (s.slot m).blen) (hlen : (s.reg ra).len = 8 * n)
    (hroom : Room s ((s.slot m).store.len + 8 * n)) : ((s.putWord m ra n).getWord rd m n).reg rd = s.reg ra := by
  have hget : (((s.putWord m ra n).slot m).get n).1 = s.reg ra := by
    rw [State.putWord_of_room hlen hroom, State.slot_stored_same, ByteBuffer.get_putWord hwf hcur hlen]
  have hmaxw : (s.putWord m ra n).maxw = s.maxw := by rw [State.putWord_of_room hlen hroom, State.stored_maxw]
  rw [State.reg_getWord_of_room rd (hroom.of_maxw hmaxw (by rw [hget]; omega)), hget]

/-! ## The meanings that can fault, one equation per case (rules R141, R151) -/

theorem faults_bbPutb {v : Nat} (md : Slot) (s : State) (hv : 255 < v) : Faults (.bbPutb md v) s .widthMismatch := by
  rw [Faults, exec, execBbPutb, if_pos hv, State.raise_eq_faulted s rfl]

/-- The byte as a value is its numeral padded to eight digits. -/
theorem fromInt_eq_byte {v : Nat} (hv : v ≤ 255) : Bits.fromInt v 8 = ⟨8, BitVec.ofNat 8 v⟩ := by
  have hlt : v < 2 ^ 8 := Nat.lt_succ_of_le hv
  refine Bits.ext_val (Bits.len_fromInt_of_lt (by decide) hlt) ?_
  rw [Bits.val_fromInt, Bits.val, BitVec.toNat_ofNat, Nat.mod_eq_of_lt hlt]

theorem writesSlot_bbPutb {v : Nat} (md : Slot) (s : State) (hv : v ≤ 255) :
    WritesSlot (.bbPutb md v) s md ((s.slot md).memWrite ⟨8, BitVec.ofNat 8 v⟩) :=
  writesSlot_of_finishSlot (by rw [exec, execBbPutb, if_neg (by omega), fromInt_eq_byte hv])

theorem faults_bbIdx {s : State} {ma : Slot} {i : Int} (md : Slot) (h : normIndex (s.slot ma).blen i = none) :
    Faults (.bbIdx md ma i) s .indexShape := by
  simp only [Faults, exec, execBbIdx, h]
  rw [State.raise_eq_faulted s rfl]

theorem writesSlot_bbIdx {s : State} {ma : Slot} {i : Int} {j : Nat} (md : Slot)
    (h : normIndex (s.slot ma).blen i = some j) : WritesSlot (.bbIdx md ma i) s md ((s.slot ma).copyOut j 1) :=
  writesSlot_of_finishSlot (by simp only [exec, execBbIdx, h])

/-! ## The ByteBuffer commands (41_bytebuffer.md) -/

/-- Settles O36: the four stores are `PUTW` of 2, 4, 8 and 16 bytes. -/
theorem putWords : Obligations.PutWords := fun _ _ _ =>
  ⟨⟨command_opcode _ _ _, storesWord_of_putWord rfl⟩, ⟨command_opcode _ _ _, storesWord_of_putWord rfl⟩,
    ⟨command_opcode _ _ _, storesWord_of_putWord rfl⟩, command_opcode _ _ _, storesWord_of_putWord rfl⟩

/-- Settles O37: the five loads are `GET` of 1, 2, 4, 8 and 16 bytes. -/
theorem getWords : Obligations.GetWords := fun _ _ _ =>
  ⟨⟨command_opcode _ _ _, loadsWord_of_getWord rfl⟩, ⟨command_opcode _ _ _, loadsWord_of_getWord rfl⟩,
    ⟨command_opcode _ _ _, loadsWord_of_getWord rfl⟩, ⟨command_opcode _ _ _, loadsWord_of_getWord rfl⟩,
    command_opcode _ _ _, loadsWord_of_getWord rfl⟩

/-- Settles O38: each pair of commands is `PUTW`, then `GET` of the same width. -/
theorem wordRoundTrip : Obligations.WordRoundTrip := by
  intro s m ra rd n put get hpair hwf hcur hlen hroom
  have hrun : execAll [put, get] s = .next ((s.putWord m ra n).getWord rd m n) := by
    obtain ⟨rfl, rfl, rfl⟩ | ⟨rfl, rfl, rfl⟩ | ⟨rfl, rfl, rfl⟩ | ⟨rfl, rfl, rfl⟩ := hpair
    all_goals rfl
  exact ⟨_, hrun, State.reg_getWord_putWord rd hwf hcur hlen hroom⟩

/-- Settles O39, by whether the index is in range. -/
theorem singleByteIndex : Obligations.SingleByteIndex := fun md _ _ _ =>
  ⟨command_opcode _ _ _, fun hout => faults_bbIdx md (normIndex_none.2 hout), fun _ hj hlt =>
    ⟨_, ByteBuffer.digits_copyOut_one hlt, writesSlot_bbIdx md (normIndex_eq_some hj hlt)⟩⟩

/-- Settles O40: the copy is the range between the normalised bounds. -/
theorem byteSlice : Obligations.ByteSlice := fun _ ma start stop s =>
  ⟨command_opcode _ _ _, _, (s.slot ma).digits_copyOut_normSlice start stop, writesSlot_of_finishSlot rfl⟩

/-- Settles O35: the empty buffer fits under every `MAXW`; BB.PUTB by whether the value is a byte. -/
theorem newBufferAndPutByte : Obligations.NewBufferAndPutByte := by
  refine fun md o v s => ⟨⟨command_opcode _ _ _, ?new⟩, command_opcode _ _ _, faults_bbPutb md s,
    writesSlot_bbPutb md s⟩
  exact (writesSlot_of_finishSlot rfl).1 fun _ _ => Nat.zero_le _

/-- Settles O41: BB.LEN answers `OK`, which leaves `ESTICKY` as it was; BB.STR writes the store as it stands. -/
theorem wholeBufferReads : Obligations.WholeBufferReads := by
  refine fun rd ma s => ⟨⟨command_opcode _ _ _, ?len⟩, command_opcode _ _ _, writesReg_of_finishReg rfl⟩
  rw [exec, execBbLen, State.respond_eq_answered s _ _ rfl, ByteBuffer.blen]

end Sys2Proof.Machine

namespace Sys2Proof.Machine

/-! ## The mixing functions on 32-bit values (42_sha256_pipeline.md rules R170 to R175) -/

theorem smallSigma0_ofWord32 (x : Word32) : smallSigma0 (Bits.ofWord32 x) = Bits.ofWord32 (Ref.smallSigma0 x) := by
  rw [smallSigma0, Bits.rotr_ofWord32 x (by decide), Bits.rotr_ofWord32 x (by decide), Bits.shr_ofWord32,
    Bits.xor_ofWord32, Bits.xor_ofWord32, Ref.smallSigma0]

theorem smallSigma1_ofWord32 (x : Word32) : smallSigma1 (Bits.ofWord32 x) = Bits.ofWord32 (Ref.smallSigma1 x) := by
  rw [smallSigma1, Bits.rotr_ofWord32 x (by decide), Bits.rotr_ofWord32 x (by decide), Bits.shr_ofWord32,
    Bits.xor_ofWord32, Bits.xor_ofWord32, Ref.smallSigma1]

theorem bigSigma0_ofWord32 (x : Word32) : bigSigma0 (Bits.ofWord32 x) = Bits.ofWord32 (Ref.bigSigma0 x) := by
  rw [bigSigma0, Bits.rotr_ofWord32 x (by decide), Bits.rotr_ofWord32 x (by decide), Bits.rotr_ofWord32 x (by decide),
    Bits.xor_ofWord32, Bits.xor_ofWord32, Ref.bigSigma0]

theorem bigSigma1_ofWord32 (x : Word32) : bigSigma1 (Bits.ofWord32 x) = Bits.ofWord32 (Ref.bigSigma1 x) := by
  rw [bigSigma1, Bits.rotr_ofWord32 x (by decide), Bits.rotr_ofWord32 x (by decide), Bits.rotr_ofWord32 x (by decide),
    Bits.xor_ofWord32, Bits.xor_ofWord32, Ref.bigSigma1]

/-- The two terms of `choice` have no digit 1 in common, so that the exclusive or is their union. -/
theorem choice_ofWord32 (x y z : Word32) :
    choice (Bits.ofWord32 x) (Bits.ofWord32 y) (Bits.ofWord32 z) = Bits.ofWord32 (Ref.choice x y z) := by
  have hbits : x &&& y ^^^ ~~~x &&& z = Ref.choice x y z := by
    ext i hi
    simp only [Ref.choice, BitVec.getElem_xor, BitVec.getElem_or, BitVec.getElem_and, BitVec.getElem_not]
    cases x[i] <;> simp
  rw [choice, Bits.not_ofWord32, Bits.and_ofWord32, Bits.and_ofWord32, Bits.xor_ofWord32, hbits]

/-- Of the three terms of `majority` none, one or all three hold a digit 1 at a place. -/
theorem majority_ofWord32 (x y z : Word32) :
    majority (Bits.ofWord32 x) (Bits.ofWord32 y) (Bits.ofWord32 z) = Bits.ofWord32 (Ref.majority x y z) := by
  have hbits : x &&& y ^^^ x &&& z ^^^ y &&& z = Ref.majority x y z := by
    ext i hi
    simp only [Ref.majority, BitVec.getElem_xor, BitVec.getElem_or, BitVec.getElem_and]
    cases x[i] <;> cases y[i] <;> simp
  rw [majority, Bits.and_ofWord32, Bits.and_ofWord32, Bits.and_ofWord32, Bits.xor_ofWord32, Bits.xor_ofWord32, hbits]

/-- Settles O43, function by function. -/
theorem mixingFunctions : Obligations.MixingFunctions := fun x y z =>
  ⟨smallSigma0_ofWord32 x, smallSigma1_ofWord32 x, bigSigma0_ofWord32 x, bigSigma1_ofWord32 x,
    choice_ofWord32 x y z, majority_ofWord32 x y z⟩

/-! ## The untruncated sums of a round (rules R182, R190) -/

/-- No addition grows past the width that holds the exact sum. -/
theorem AddTree.len_eval_le {n w : Nat} {e : AddTree} (hwide : e.Wide n) (hn : n ≤ w) (hw : 0 < w)
    (htotal : e.total < 2 ^ w) : e.eval.len ≤ w := by
  induction e with
  | leaf x => exact Eq.trans_le hwide hn
  | add l r ihl ihr =>
    obtain ⟨hl, hr⟩ := hwide
    rw [total] at htotal
    exact Bits.len_add_le _ _ w (ihl hl (by omega)) (ihr hr (by omega)) hw (by rwa [l.val_eval, r.val_eval])

/-- A 32-bit word as an operand of a sum. -/
def AddTree.word (x : Word32) : AddTree := .leaf (Bits.ofWord32 x)

@[simp] theorem AddTree.wide_word (x : Word32) : (AddTree.word x).Wide 32 := rfl

@[simp] theorem AddTree.total_word (x : Word32) : (AddTree.word x).total = x.toNat := rfl

/-- The five operands of `t1`, added left to right. -/
def roundT1Sum (v : Vector Word32 8) (k w : Word32) : AddTree :=
  .add (.add (.add (.add (.word v[7]) (.word (Ref.bigSigma1 v[4]))) (.word (Ref.choice v[4] v[5] v[6]))) (.word k)) (.word w)

/-- The two operands of `t2`. -/
def roundT2Sum (v : Vector Word32 8) : AddTree :=
  .add (.word (Ref.bigSigma0 v[0])) (.word (Ref.majority v[0] v[1] v[2]))

theorem roundT1_eq_eval (v : Vector Word32 8) (k w : Word32) : roundT1 v k w = (roundT1Sum v k w).eval := by
  simp only [roundT1, bigSigma1_ofWord32, choice_ofWord32]
  rfl

theorem roundT2_eq_eval (v : Vector Word32 8) : roundT2 v = (roundT2Sum v).eval := by
  simp only [roundT2, bigSigma0_ofWord32, majority_ofWord32]
  rfl

theorem wide_roundT1Sum (v : Vector Word32 8) (k w : Word32) : (roundT1Sum v k w).Wide 32 := by
  simp [roundT1Sum, AddTree.Wide]

theorem wide_roundT2Sum (v : Vector Word32 8) : (roundT2Sum v).Wide 32 := by
  simp [roundT2Sum, AddTree.Wide]

theorem total_roundT1Sum (v : Vector Word32 8) (k w : Word32) : (roundT1Sum v k w).total =
    v[7].toNat + (Ref.bigSigma1 v[4]).toNat + (Ref.choice v[4] v[5] v[6]).toNat + k.toNat + w.toNat := rfl

theorem total_roundT2Sum (v : Vector Word32 8) :
    (roundT2Sum v).total = (Ref.bigSigma0 v[0]).toNat + (Ref.majority v[0] v[1] v[2]).toNat := rfl

theorem total_roundT1Sum_le (v : Vector Word32 8) (k w : Word32) : (roundT1Sum v k w).total ≤ 5 * (2 ^ 32 - 1) := by
  rw [total_roundT1Sum]
  have := v[7].isLt
  have := (Ref.bigSigma1 v[4]).isLt
  have := (Ref.choice v[4] v[5] v[6]).isLt
  have := k.isLt
  have := w.isLt
  omega

theorem total_roundT2Sum_le (v : Vector Word32 8) : (roundT2Sum v).total ≤ 2 * (2 ^ 32 - 1) := by
  rw [total_roundT2Sum]
  have := (Ref.bigSigma0 v[0]).isLt
  have := (Ref.majority v[0] v[1] v[2]).isLt
  omega

/-- A sum of 32-bit operands below `2^w` is between 32 and `w` bits wide. -/
theorem AddTree.len_eval_bounds {w : Nat} {e : AddTree} (hwide : e.Wide 32) (hw : 32 ≤ w) (htotal : e.total < 2 ^ w) :
    32 ≤ e.eval.len ∧ e.eval.len ≤ w :=
  ⟨AddTree.le_len_eval hwide, AddTree.len_eval_le hwide hw (by omega) htotal⟩

/-- Settles O49: each intermediate is an untruncated sum of 32-bit words, of at most two for `t2` and seven for the rest. -/
theorem roundIntermediatesFitIn35Bits : Obligations.RoundIntermediatesFitIn35Bits := by
  intro v k w
  have hw1 := wide_roundT1Sum v k w
  have hw2 := wide_roundT2Sum v
  have hle1 := total_roundT1Sum_le v k w
  have hle2 := total_roundT2Sum_le v
  have hv3 := v[3].isLt
  have ht1 := AddTree.len_eval_bounds (w := 35) hw1 (by decide) (by omega)
  have ht2 := AddTree.len_eval_bounds (w := 33) hw2 (by decide) (by omega)
  have he1 := AddTree.len_eval_bounds (w := 35) (e := .add (.word v[3]) (roundT1Sum v k w)) ⟨AddTree.wide_word _, hw1⟩
    (by decide) (by rw [AddTree.total, AddTree.total_word]; omega)
  have ha1 := AddTree.len_eval_bounds (w := 35) (e := .add (roundT1Sum v k w) (roundT2Sum v)) ⟨hw1, hw2⟩
    (by decide) (by rw [AddTree.total]; omega)
  simp only [roundT1_eq_eval, roundT2_eq_eval, AddTree.val_eval]
  exact ⟨⟨ht1.1, ht1.2, hle1⟩, ht2, he1, ha1, total_roundT1Sum v k w, total_roundT2Sum v⟩

/-- `t1` modulo `2^32` (rule R191). -/
theorem ofNat_val_roundT1 (v : Vector Word32 8) (k w : Word32) : BitVec.ofNat 32 (roundT1 v k w).val =
    v[7] + Ref.bigSigma1 v[4] + Ref.choice v[4] v[5] v[6] + k + w := by
  simp only [roundT1_eq_eval, AddTree.val_eval, total_roundT1Sum, BitVec.ofNat_add, BitVec.ofNat_toNat, BitVec.setWidth_eq]

/-- `t2` modulo `2^32` (rule R191). -/
theorem ofNat_val_roundT2 (v : Vector Word32 8) : BitVec.ofNat 32 (roundT2 v).val =
    Ref.bigSigma0 v[0] + Ref.majority v[0] v[1] v[2] := by
  simp only [roundT2_eq_eval, AddTree.val_eval, total_roundT2Sum, BitVec.ofNat_add, BitVec.ofNat_toNat, BitVec.setWidth_eq]

/-! ## The micro-commands of one stage (rules R177, R180 to R184) -/

/-- Settles O45: the constants are those of the ROM, and `OK` leaves `ESTICKY` as it was. -/
theorem initialiseAndBegin : Obligations.InitialiseAndBegin := by
  refine fun s => ⟨⟨command_opcode _ _ _, ?init⟩, command_opcode _ _ _, ?begin⟩
  case init => rw [exec, execShaInit, State.done_eq]; rfl
  case begin => rw [exec, execShaBegin, State.done_eq]; rfl

theorem faults_shaRound {s : State} (h : 64 ≤ s.t) : Faults .shaRound s .sequence := by
  rw [Faults, exec, execShaRound, if_pos h, State.raise_eq_faulted s rfl]

theorem exec_shaRound_of_lt {s : State} (h : s.t < 64) : exec .shaRound s = .next (stageRound s).done := by
  rw [exec, execShaRound, if_neg (by omega)]

/-- Settles O48, by whether a round is pending; the two intermediates are taken modulo `2^32` where they are assigned. -/
theorem compressionRound : Obligations.CompressionRound := by
  refine fun s => ⟨command_opcode _ _ _, faults_shaRound, fun ht => ?_⟩
  rw [exec_shaRound_of_lt ht, State.done_eq, stageRound, roundVars_words, ofNat_val_roundT1, ofNat_val_roundT2,
    wordAt_eq _ ht, wordAt_eq _ ht]
  rfl

/-- Settles O50: addition modulo `2^32`, register by register. -/
theorem foldVariablesIntoHash : Obligations.FoldVariablesIntoHash := by
  refine fun s => ⟨command_opcode _ _ _, ?_⟩
  have hadd : addMod32 = (· + ·) := funext₂ addMod32_eq
  rw [exec, execShaUpdate, State.done_eq, stageUpdate, hadd]
  rfl

/-- Settles O51: the digest is written through `finishReg`, as its eight registers' digits. -/
theorem digestIsTheRegistersInOrder : Obligations.DigestIsTheRegistersInOrder := fun _ s =>
  ⟨command_opcode _ _ _, digestOf s.h, digits_digestOf s.h, len_digestOf s.h, writesReg_of_finishReg rfl⟩

/-- A schedule word is the recurrence of rule R180 modulo `2^32`. -/
theorem scheduleWord_eq (w : Vector Word32 64) {i : Nat} (hi : i < 64) :
    scheduleWord w i = w[i - 16] + Ref.smallSigma0 w[i - 15] + w[i - 7] + Ref.smallSigma1 w[i - 2] := by
  simp only [scheduleWord, Bits.mod32_toWord32, Bits.val_add, smallSigma0_ofWord32, smallSigma1_ofWord32,
    Bits.val_ofWord32, BitVec.ofNat_add, BitVec.ofNat_toNat, BitVec.setWidth_eq]
  rw [wordAt_eq, wordAt_eq, wordAt_eq, wordAt_eq]

/-- An expansion's words 16 to 63 obey the recurrence. -/
theorem expandFrom_recurrence (w : Vector Word32 64) {i : Nat} (hi : i < 64) (h16 : 16 ≤ i) :
    (expandFrom 48 16 w)[i] = (expandFrom 48 16 w)[i - 16] + Ref.smallSigma0 (expandFrom 48 16 w)[i - 15] +
      (expandFrom 48 16 w)[i - 7] + Ref.smallSigma1 (expandFrom 48 16 w)[i - 2] := by
  rw [expandFrom_word w hi ⟨h16, hi⟩ le_rfl, scheduleWord_eq _ hi]

/-- Settles O47: words 0 to 15 are not written, and each other word is the recurrence over the words the expansion leaves. -/
theorem expandSchedule : Obligations.ExpandSchedule := by
  refine fun s => ⟨command_opcode _ _ _, expandFrom 48 16 s.w, ?_, fun i hi => expandFrom_other _ _ (.inl hi),
    fun i hi h16 => expandFrom_recurrence s.w hi h16⟩
  rw [exec, execShaExpand, State.done_eq, stageExpand]
  rfl

end Sys2Proof.Machine

namespace Sys2Proof.Machine

/-! ## SHA.LDBLK (rule R179) -/

theorem MsgBuffer.exhausted_iff (mb : MsgBuffer) : mb.exhausted = true ↔ mb.blen ≤ mb.cur := by
  simp [MsgBuffer.exhausted]

theorem MsgBuffer.not_exhausted_of_lt {mb : MsgBuffer} (h : mb.cur < mb.blen) : mb.exhausted = false := by
  simpa [MsgBuffer.exhausted] using h

theorem exec_shaLdblk_of_exhausted {s : State} (h : s.mb.exhausted = true) :
    exec .shaLdblk s = .next (s.answered .exhausted 0 Bits.empty) := by
  rw [exec, execShaLdblk, if_pos h, State.respond_eq_answered s _ _ rfl]

theorem exec_shaLdblk_of_not_exhausted {s : State} (h : s.mb.exhausted = false) :
    exec .shaLdblk s = .next (stageLoad s).done := by
  rw [exec, execShaLdblk, if_neg (by simp [h])]

theorem slice_slice (x : Bits) {off top lo hi : Nat} (h : top ≤ x.len) (hhi : off + hi ≤ top) :
    (x.slice off top).slice lo hi = x.slice (off + lo) (off + hi) := by
  have hlen : off + hi - (off + lo) = hi - lo := by omega
  refine Bits.ext_digit (by simp [hlen]) fun i hi' => ?_
  have hi' : i < hi - lo := by simpa using hi'
  rw [Bits.digit_slice _ (by simp; omega) hi', Bits.digit_slice x h (by omega), Bits.digit_slice x (by omega) (by omega),
    Nat.add_assoc]

/-- Byte `k` from the left of a word read at byte `off` is byte `off + k` of the buffer. -/
theorem ByteBuffer.byteAt_memRead {b : ByteBuffer} {off k : Nat} (h : off + 4 ≤ b.blen) (hk : k < 4) :
    b.byteAt (off + k) = some ((b.memRead off 4).toWord32.extractLsb' (24 - 8 * k) 8) := by
  have hlen : 8 * off + 32 ≤ b.store.len := by simp only [ByteBuffer.blen] at h; omega
  have hslice : b.store.slice (8 * (off + k)) (8 * (off + k) + 8) = (b.memRead off 4).slice (8 * k) (8 * k + 8) := by
    rw [ByteBuffer.memRead, slice_slice b.store (by omega) (by omega), Nat.mul_add, Nat.add_assoc]
  have hword := setWidth_slice_eq_wordByte (ByteBuffer.len_memRead b off 4) hk
  have hexp : 24 - 8 * k = 8 * (4 - 1 - k) := by omega
  rw [ByteBuffer.byteAt_of_lt (by omega), hslice, hword, wordByte]
  refine congrArg some (BitVec.eq_of_toNat_eq ?_)
  have hval := (b.memRead off 4).val_lt
  rw [ByteBuffer.len_memRead] at hval
  rw [BitVec.toNat_ofNat, BitVec.extractLsb'_toNat, Bits.toNat_toWord32, Nat.mod_eq_of_lt hval,
    Nat.shiftRight_eq_div_pow, hexp, Nat.pow_mul]

/-- Settles O46: a block that is there is whole, so that every word of it is read at its place. -/
theorem loadBlock : Obligations.LoadBlock := by
  refine fun s => ⟨command_opcode _ _ _, fun h => exec_shaLdblk_of_exhausted (s.mb.exhausted_iff.2 h), fun hwf hlt =>
    ⟨(loadWords 16 0 (s.mb, s.w)).2, ?run, fun i k hi hk => ?word, fun i hi h16 => loadWords_other _ hi (.inr h16)⟩⟩
  case run =>
    rw [exec_shaLdblk_of_not_exhausted (MsgBuffer.not_exhausted_of_lt hlt), State.done_eq, stageLoad,
      ← MsgBuffer.load hwf (MsgBuffer.not_exhausted_of_lt hlt) s.w]
    rfl
  case word =>
    have hblock : s.mb.cur + 64 ≤ s.mb.blen := MsgBuffer.block_left hwf (MsgBuffer.not_exhausted_of_lt hlt)
    have hw := loadWords_word (i := 0) s.w (count := 16) hblock hi (by omega)
    simp only [Nat.zero_add] at hw
    rw [hw]
    exact ByteBuffer.byteAt_memRead (b := s.mb.asBuffer) (show _ ≤ s.mb.blen by omega) hk

/-! ## SHA.PAD (rules R176, R178) -/

theorem lengthMismatch_eq_false {n : Nat} (h : n < 2 ^ 61) : lengthMismatch n = false := by
  rw [← Bool.not_eq_true, lengthMismatch_iff]
  omega

theorem faults_shaPad_long {s : State} {ma : Slot} (h : 2 ^ 61 ≤ (s.slot ma).blen) :
    Faults (.shaPad ma) s .widthMismatch := by
  rw [Faults, exec, execShaPad, if_pos ((lengthMismatch_iff _).2 (by omega)), State.raise_eq_faulted s rfl]

section PadOfShortMessage

variable {s : State} {ma : Slot} (h : (s.slot ma).blen < 2 ^ 61)
include h

theorem exec_shaPad_of_room (hroom : Room s (padding (s.slot ma).store).len) :
    exec (.shaPad ma) s = .next (stagePad ma s).done := by
  rw [exec, execShaPad, if_neg (by simp [lengthMismatch_eq_false h]), if_pos ((s.fits_iff_room _).2 hroom)]

theorem faults_shaPad_of_not_room (hroom : ¬ Room s (padding (s.slot ma).store).len) : Faults (.shaPad ma) s .capacity := by
  rw [Faults, exec, execShaPad, if_neg (by simp [lengthMismatch_eq_false h]),
    if_neg (fun hf => hroom ((s.fits_iff_room _).1 hf)), State.raise_eq_faulted s rfl]

end PadOfShortMessage

theorem len_lengthWord {n : Nat} (h : n < 2 ^ 61) : (lengthWord n).len = 64 :=
  Bits.len_fromInt_of_lt (by decide) (by omega)

/-- The digits of the padded message: the byte `0x80` is the digit 1 and seven zeros. -/
theorem digits_padding (msg : Bits) : (padding msg).digits = msg.digits ++ true ::
    List.replicate (7 + 8 * padZeros (msg.len / 8)) false ++ (lengthWord (msg.len / 8)).digits := by
  have hbyte : (Bits.fromInt 0x80 8).digits = true :: List.replicate 7 false := by decide
  simp only [padding, Bits.digits_append, hbyte, Bits.digits_zeros, List.replicate_add, List.cons_append, List.append_assoc]

/-- Settles O44: the padded message is written out, and its two faults are told apart by the message's length and by room. -/
theorem padMessage : Obligations.PadMessage := by
  refine fun ma s => ⟨command_opcode _ _ _, faults_shaPad_long, fun h =>
    ⟨padding (s.slot ma).store, lengthWord (s.slot ma).blen, len_lengthWord h, Bits.val_fromInt _ _, ?digits,
      fun h8 => len_padding h8 (lengthMismatch_eq_false h), fun hroom => ?run, faults_shaPad_of_not_room h⟩⟩
  case digits =>
    have hzeros : padZeros (s.slot ma).blen = ((55 - ((s.slot ma).blen : Int)) % 64).toNat := by
      rw [padZeros]; omega
    rw [← hzeros]
    exact digits_padding _
  case run =>
    rw [exec_shaPad_of_room h hroom, State.done_eq]
    rfl

/-! ## A response changes nothing that a stage reads -/

theorem State.done_done (s : State) : s.done.done = s.done := by
  rw [State.done_eq s, State.done_eq]
  rfl

theorem stageInit_done (s : State) : stageInit s.done = (stageInit s).done := by
  rw [State.done_eq, State.done_eq]; rfl

theorem stagePad_done (ma : Slot) (s : State) : stagePad ma s.done = (stagePad ma s).done := by
  rw [State.done_eq, State.done_eq]; rfl

theorem stageLoad_done (s : State) : stageLoad s.done = (stageLoad s).done := by
  rw [State.done_eq, State.done_eq]; rfl

theorem stageExpand_done (s : State) : stageExpand s.done = (stageExpand s).done := by
  rw [State.done_eq, State.done_eq]; rfl

theorem stageBegin_done (s : State) : stageBegin s.done = (stageBegin s).done := by
  rw [State.done_eq, State.done_eq]; rfl

theorem stageRound_done (s : State) : stageRound s.done = (stageRound s).done := by
  rw [State.done_eq, State.done_eq]; rfl

theorem stageUpdate_done (s : State) : stageUpdate s.done = (stageUpdate s).done := by
  rw [State.done_eq, State.done_eq]; rfl

theorem stageRounds_done (n : Nat) (s : State) : stageRounds n s.done = (stageRounds n s).done := by
  induction n generalizing s with
  | zero => rfl
  | succ n ih => rw [stageRounds, stageRounds, stageRound_done, ih]

theorem stageBlock_done (s : State) : stageBlock s.done = (stageBlock s).done := by
  rw [stageBlock, stageBlock, stageLoad_done, stageExpand_done, stageBegin_done, stageRounds_done, stageUpdate_done]

/-! ## Commands one after another (20_memory.md rule R60) -/

theorem execAll_cons {i : Instr} {s t : State} (h : exec i s = .next t) (rest : List Instr) :
    execAll (i :: rest) s = execAll rest t := by
  rw [execAll, h]

theorem execAll_append {is : List Instr} {s t : State} (h : execAll is s = .next t) (rest : List Instr) :
    execAll (is ++ rest) s = execAll rest t := by
  induction is generalizing s with
  | nil => cases h; rfl
  | cons i is ih =>
    obtain ⟨u, hu⟩ := exec_next i s
    rw [execAll_cons hu] at h
    rw [List.cons_append, execAll_cons hu, ih h]

/-! The commands of one stage after a command that answered `OK`: that response leaves no trace. -/

theorem exec_shaInit_done (s : State) : exec .shaInit s.done = .next (stageInit s).done := by
  rw [exec, execShaInit, stageInit_done, State.done_done]

theorem exec_shaExpand_done (s : State) : exec .shaExpand s.done = .next (stageExpand s).done := by
  rw [exec, execShaExpand, stageExpand_done, State.done_done]

theorem exec_shaBegin_done (s : State) : exec .shaBegin s.done = .next (stageBegin s).done := by
  rw [exec, execShaBegin, stageBegin_done, State.done_done]

theorem exec_shaRound_done {s : State} (h : s.t < 64) : exec .shaRound s.done = .next (stageRound s).done := by
  rw [exec_shaRound_of_lt (s := s.done) h, stageRound_done, State.done_done]

theorem exec_shaUpdate_done (s : State) : exec .shaUpdate s.done = .next (stageUpdate s).done := by
  rw [exec, execShaUpdate, stageUpdate_done, State.done_done]

/-! ## The exchanges of rule R192 -/

theorem stageInit_stagePad (ma : Slot) (s : State) : stageInit (stagePad ma s) = stagePad ma (stageInit s) := rfl

theorem stageBegin_stageExpand (s : State) : stageBegin (stageExpand s) = stageExpand (stageBegin s) := rfl

theorem shaPad_of_ok {s t : State} {ma : Slot} (he : exec (.shaPad ma) s = .next t)
    (hok : t.resp = some ⟨.ok, 0, Bits.empty⟩) : (s.slot ma).blen < 2 ^ 61 ∧ Room s (padding (s.slot ma).store).len := by
  by_cases h : (s.slot ma).blen < 2 ^ 61
  case neg =>
    cases he.symm.trans (faults_shaPad_long (not_lt.1 h))
    exact absurd hok (State.faulted_resp_ne_ok s (by decide) _ _)
  by_cases hroom : Room s (padding (s.slot ma).store).len
  case neg =>
    cases he.symm.trans (faults_shaPad_of_not_room h hroom)
    exact absurd hok (State.faulted_resp_ne_ok s (by decide) _ _)
  exact ⟨h, hroom⟩

/-- Settles O56: the padding reads a slot and writes `MB`, the initialisation writes `H`; the expansion reads and writes `W`,
the beginning reads `H` and writes `V` and `T`. -/
theorem exchangeableStages : Obligations.ExchangeableStages := by
  refine fun s ma => ⟨fun ⟨t, he, hok⟩ => ?padInit, ?expandBegin⟩
  case padInit =>
    obtain ⟨hshort, hroom⟩ := shaPad_of_ok he hok
    have hinit : exec .shaInit s = .next (stageInit s).done := rfl
    have hpad : exec (.shaPad ma) (stageInit s).done = .next (stagePad ma (stageInit s)).done := by
      rw [exec_shaPad_of_room (s := (stageInit s).done) hshort hroom, stagePad_done, State.done_done]
    rw [execAll_cons (exec_shaPad_of_room hshort hroom), execAll_cons (exec_shaInit_done _), execAll_cons hinit,
      execAll_cons hpad, stageInit_stagePad]
  case expandBegin =>
    have hexpand : exec .shaExpand s = .next (stageExpand s).done := rfl
    have hbegin : exec .shaBegin s = .next (stageBegin s).done := rfl
    rw [execAll_cons hexpand, execAll_cons (exec_shaBegin_done _), execAll_cons hbegin, execAll_cons (exec_shaExpand_done _),
      stageBegin_stageExpand]

/-! ## SHA.BLOCK (rule R185) -/

theorem execAll_rounds {n : Nat} {s : State} (h : s.t + n ≤ 64) :
    execAll (List.replicate n .shaRound) s.done = .next (stageRounds n s).done := by
  induction n generalizing s with
  | zero => rfl
  | succ n ih =>
    rw [List.replicate_succ, execAll_cons (exec_shaRound_done (by omega)), ih (by rw [stageRound_t]; omega), stageRounds]

theorem exec_shaBlock_of_exhausted {s : State} (h : s.mb.exhausted = true) :
    exec .shaBlock s = .next (s.answered .exhausted 0 Bits.empty) := by
  rw [exec, execShaBlock, if_pos h, State.respond_eq_answered s _ _ rfl]

theorem exec_shaBlock_of_not_exhausted {s : State} (h : s.mb.exhausted = false) :
    exec .shaBlock s = .next (stageBlock s).done := by
  rw [exec, execShaBlock, if_neg (by simp [h])]

theorem execAll_blockCommands {n : Nat} {s : State} (h : s.mb.exhausted = false) (hn : n ≤ 64) :
    execAll ([.shaLdblk, .shaExpand, .shaBegin] ++ List.replicate n .shaRound ++ [.shaUpdate]) s =
      .next (stageUpdate (stageRounds n (stageBegin (stageExpand (stageLoad s))))).done := by
  have hfirst : execAll [.shaLdblk, .shaExpand, .shaBegin] s = .next (stageBegin (stageExpand (stageLoad s))).done := by
    rw [execAll_cons (exec_shaLdblk_of_not_exhausted h), execAll_cons (exec_shaExpand_done _),
      execAll_cons (exec_shaBegin_done _), execAll]
  have hrounds := execAll_rounds (n := n) (s := stageBegin (stageExpand (stageLoad s))) (by rwa [stageBegin_t, Nat.zero_add])
  rw [List.append_assoc, execAll_append hfirst, execAll_append hrounds, execAll_cons (exec_shaUpdate_done _), execAll]

/-- Settles O52: the micro-commands pass the same states through the same stages, and `T` counts from 0 to 64. -/
theorem blockIsTheMicroSequence : Obligations.BlockIsTheMicroSequence := by
  refine fun s => ⟨command_opcode _ _ _, fun h => exec_shaBlock_of_exhausted (s.mb.exhausted_iff.2 h), fun h => ?_⟩
  have he := MsgBuffer.not_exhausted_of_lt h
  refine ⟨(stageBlock s).done, exec_shaBlock_of_not_exhausted he, ?_, ?_, fun hwf => ?_⟩
  · rw [execAll_blockCommands he (n := 64) le_rfl, stageBlock]
  · rw [State.done_t, stageBlock_t]
  · rw [State.done_mb, stageBlock_cursor hwf he]

/-! ## SHA.HASH (rule R186) -/

theorem faults_shaHash_long {s : State} {ma : Slot} (rd : Reg) (h : 2 ^ 61 ≤ (s.slot ma).blen) :
    Faults (.shaHash rd ma) s .widthMismatch := by
  rw [Faults, exec, execShaHash, if_pos ((lengthMismatch_iff _).2 (by omega)), State.raise_eq_faulted s rfl]

section HashOfShortMessage

variable {s : State} {ma : Slot} (rd : Reg) (h : (s.slot ma).blen < 2 ^ 61)
include h

theorem exec_shaHash_of_room (hroom : Room s (padding (s.slot ma).store).len) (hroom256 : Room s 256) :
    exec (.shaHash rd ma) s = .next ((stageHash ma s).wrote rd (digestOf (stageHash ma s).h)) := by
  rw [exec, execShaHash, if_neg (by simp [lengthMismatch_eq_false h]), if_pos, State.done_setReg]
  rw [Bool.and_eq_true, State.fits_iff_room, State.fits_iff_room]
  exact ⟨hroom, hroom256⟩

theorem faults_shaHash_of_not_room (hroom : ¬ (Room s (padding (s.slot ma).store).len ∧ Room s 256)) :
    Faults (.shaHash rd ma) s .capacity := by
  rw [Faults, exec, execShaHash, if_neg (by simp [lengthMismatch_eq_false h]), if_neg, State.raise_eq_faulted s rfl]
  rw [Bool.and_eq_true, State.fits_iff_room, State.fits_iff_room]
  exact hroom

end HashOfShortMessage

/-- The blocks of the padded message of slot `ma`. -/
def blockCount (s : State) (ma : Slot) : Nat := ((s.slot ma).blen + 8) / 64 + 1

/-- A message buffer that holds one block and `n` more: the block is there, and the `n` are after it. -/
theorem stageBlock_blocks_left {n : Nat} {s : State} (hwf : s.mb.wf = true) (h : s.mb.cur + 64 * (n + 1) ≤ s.mb.blen) :
    s.mb.exhausted = false ∧ (stageBlock s).mb.wf = true ∧
      (stageBlock s).mb.cur + 64 * n ≤ (stageBlock s).mb.blen := by
  have he : s.mb.exhausted = false := MsgBuffer.not_exhausted_of_lt (by omega)
  refine ⟨he, stageBlock_mb s ▸ MsgBuffer.wf_load hwf he s.w, ?_⟩
  rw [stageBlock_cursor hwf he]
  simp only [MsgBuffer.blen] at h ⊢
  omega

theorem execAll_blocks {n : Nat} {s : State} (hwf : s.mb.wf = true) (h : s.mb.cur + 64 * n ≤ s.mb.blen) :
    execAll (List.replicate n .shaBlock) s.done = .next (stageBlocks n s).done := by
  induction n generalizing s with
  | zero => rfl
  | succ n ih =>
    obtain ⟨he, hwf', h'⟩ := stageBlock_blocks_left hwf h
    have hblock : exec .shaBlock s.done = .next (stageBlock s).done := by
      rw [exec_shaBlock_of_not_exhausted (s := s.done) he, stageBlock_done, State.done_done]
    rw [List.replicate_succ, execAll_cons hblock, ih hwf' h', stageBlocks_succ n he]

section HashOfWholeBytes

variable {s : State} {ma : Slot} (h8 : (s.slot ma).store.len % 8 = 0) (h : (s.slot ma).blen < 2 ^ 61)
include h8 h

theorem len_padding_slot : (padding (s.slot ma).store).len = 512 * blockCount s ma :=
  len_padding h8 (lengthMismatch_eq_false h)

theorem wf_mb_stagePad : (stagePad ma s).mb.wf = true :=
  stagePad_mb ma s ▸ MsgBuffer.wf_padding h8 (lengthMismatch_eq_false h)

theorem blen_mb_stagePad : (stagePad ma s).mb.blen = 64 * blockCount s ma := by
  rw [MsgBuffer.blen, stagePad_mb, len_padding_slot h8 h]
  omega

/-- The blocks of SHA.HASH are all of the padded message's, and none is left after them. -/
theorem stageHash_eq_stageBlocks : stageHash ma s = stageBlocks (blockCount s ma) (stageInit (stagePad ma s)) ∧
    (stageHash ma s).mb = ⟨padding (s.slot ma).store, 64 * blockCount s ma⟩ := by
  have hblen : (stageInit (stagePad ma s)).mb.blen = 64 * blockCount s ma := blen_mb_stagePad h8 h
  have hcur : (stageInit (stagePad ma s)).mb.cur = 0 := by rw [stageInit_mb, stagePad_mb]
  obtain ⟨hmb, hmore⟩ := stageBlocks_cursor (blockCount s ma) (s := stageInit (stagePad ma s)) (wf_mb_stagePad h8 h)
    (by omega)
  have hall : stageHash ma s = stageBlocks (blockCount s ma) (stageInit (stagePad ma s)) := by
    have hfuel : 64 * blockCount s ma / 64 + 1 = blockCount s ma + 1 := by omega
    rw [stageHash, hblen, hfuel]
    exact hmore (by omega) 1
  rw [hcur, stageInit_mb, stagePad_mb, Nat.zero_add] at hmb
  exact ⟨hall, hall ▸ hmb⟩

theorem execAll_hashCommands (rd : Reg) (hroom : Room s (padding (s.slot ma).store).len) (hroom256 : Room s 256) :
    execAll ([.shaPad ma, .shaInit] ++ List.replicate (blockCount s ma) .shaBlock ++ [.shaDigest rd]) s =
      .next ((stageHash ma s).wrote rd (digestOf (stageHash ma s).h)) := by
  have hfirst : execAll [.shaPad ma, .shaInit] s = .next (stageInit (stagePad ma s)).done := by
    rw [execAll_cons (exec_shaPad_of_room h hroom), execAll_cons (exec_shaInit_done _), execAll]
  have hblocks := execAll_blocks (n := blockCount s ma) (s := stageInit (stagePad ma s)) (wf_mb_stagePad h8 h)
    (by rw [stageInit_mb, blen_mb_stagePad h8 h, stagePad_mb, Nat.zero_add])
  have hmaxw : (stageHash ma s).done.maxw = s.maxw := (stageHash_outside ma s).maxw
  have hdigest : exec (.shaDigest rd) (stageHash ma s).done =
      .next ((stageHash ma s).wrote rd (digestOf (stageHash ma s).h)) := by
    rw [exec, execShaDigest, State.finishReg_of_room (hroom256.of_maxw hmaxw (len_digestOf _).le), State.done_eq]
    rfl
  rw [List.append_assoc, execAll_append hfirst, execAll_append hblocks, ← (stageHash_eq_stageBlocks h8 h).1,
    execAll_cons hdigest, execAll]

end HashOfWholeBytes

/-- Settles O53: the faults by length and room; otherwise the commands pass through the stages that SHA.HASH runs. -/
theorem hashIsTheCommandSequence : Obligations.HashIsTheCommandSequence := by
  intro rd ma s hwf
  obtain ⟨h8, -⟩ := (ByteBuffer.wf_iff _).1 hwf
  refine ⟨command_opcode _ _ _, faults_shaHash_long rd, fun h hno => faults_shaHash_of_not_room rd h ?_,
    fun h hroom hroom256 => ?_⟩
  · rwa [len_padding_slot h8 h]
  · have hpad : Room s (padding (s.slot ma).store).len := by rwa [len_padding_slot h8 h]
    refine ⟨_, exec_shaHash_of_room rd h hpad hroom256, execAll_hashCommands h8 h rd hpad hroom256, rfl, ?_, ?_⟩
    · rw [State.wrote_mb, (stageHash_eq_stageBlocks h8 h).2, MsgBuffer.blen, len_padding_slot h8 h]
      exact (show 512 * blockCount s ma / 8 ≤ 64 * blockCount s ma by omega)
    · rw [State.reg_wrote, if_pos rfl, len_digestOf]

end Sys2Proof.Machine

namespace Sys2Proof.Machine

/-! ## The bytes of a store, and of the padded message (rule R176) -/

@[simp] theorem length_storeBytes (x : Bits) : (storeBytes x).length = x.len / 8 := by
  simp [storeBytes]

theorem getElem_storeBytes (x : Bits) {k : Nat} (h : k < (storeBytes x).length) :
    (storeBytes x)[k] = BitVec.ofNat 8 (x.slice (8 * k) (8 * k + 8)).val := by
  simp [storeBytes]

theorem storeBytes_append {x : Bits} (hx : x.len % 8 = 0) (y : Bits) :
    storeBytes (x.append y) = storeBytes x ++ storeBytes y := by
  refine List.ext_getElem (by simp; omega) fun k hk _ => ?_
  have hk : k < (x.len + y.len) / 8 := by simpa using hk
  rw [getElem_storeBytes, List.getElem_append]
  split
  case isTrue hlt =>
    rw [length_storeBytes] at hlt
    rw [getElem_storeBytes, slice_append_left x y (by omega)]
  case isFalse hge =>
    rw [length_storeBytes] at hge
    obtain ⟨j, rfl⟩ := Nat.exists_eq_add_of_le (not_lt.1 hge)
    have hstart : 8 * (x.len / 8 + j) = x.len + 8 * j := by omega
    simp only [length_storeBytes, Nat.add_sub_cancel_left]
    rw [getElem_storeBytes, hstart, Nat.add_assoc, slice_append_right x y (by omega)]

theorem storeBytes_zeros (k : Nat) : storeBytes (Bits.zeros (8 * k)) = List.replicate k 0#8 := by
  refine List.ext_getElem (by simp) fun j _ _ => ?_
  rw [getElem_storeBytes, Bits.val_slice, Bits.val_zeros, Nat.zero_div, Nat.zero_mod, List.getElem_replicate]

/-- The length word's bytes, the most significant first. -/
theorem storeBytes_lengthWord {n : Nat} (h : n < 2 ^ 61) :
    storeBytes (lengthWord n) = (List.range 8).map fun j => BitVec.ofNat 8 (8 * n / 256 ^ (7 - j)) := by
  refine List.ext_getElem (by simp [len_lengthWord h]) fun j hj _ => ?_
  have hj : j < 8 := by simpa [len_lengthWord h] using hj
  have hexp : 64 - (8 * j + 8) = 8 * (7 - j) := by omega
  rw [getElem_storeBytes, Bits.val_slice, len_lengthWord h, lengthWord, Bits.val_fromInt, List.getElem_map,
    List.getElem_range, hexp, Nat.pow_mul, Nat.add_sub_cancel_left]
  refine BitVec.eq_of_toNat_eq ?_
  rw [BitVec.toNat_ofNat, BitVec.toNat_ofNat, Nat.mod_mod]

theorem storeBytes_padding {msg : Bits} (h8 : msg.len % 8 = 0) (h : msg.len / 8 < 2 ^ 61) :
    storeBytes (padding msg) = Ref.pad (storeBytes msg) := by
  have hbyte : storeBytes (Bits.fromInt 0x80 8) = [0x80#8] := by decide
  have hlen : (Bits.fromInt 0x80 8).len = 8 := by decide
  rw [padding, storeBytes_append, storeBytes_append, storeBytes_append h8, hbyte, storeBytes_zeros, storeBytes_lengthWord h,
    Ref.pad, length_storeBytes, padZeros]
  · rw [Bits.len_append, hlen]; omega
  · rw [Bits.len_append, Bits.len_append, hlen, Bits.len_zeros]; omega

/-! ## The words of a block (rule R179) -/

/-- A four-byte word is made of its bytes, the first the most significant. -/
theorem val_word_eq_bytes (x : Bits) {off : Nat} (h : 8 * (off + 4) ≤ x.len) :
    (x.slice (8 * off) (8 * (off + 4))).val =
      (x.slice (8 * off) (8 * off + 8)).val * 2 ^ 24 + (x.slice (8 * (off + 1)) (8 * (off + 1) + 8)).val * 2 ^ 16 +
        (x.slice (8 * (off + 2)) (8 * (off + 2) + 8)).val * 2 ^ 8 + (x.slice (8 * (off + 3)) (8 * (off + 3) + 8)).val := by
  have hsplit (k : Nat) (hk : off ≤ k) (hk4 : k < off + 4) : (x.slice (8 * off) (8 * (k + 1))).val =
      (x.slice (8 * off) (8 * k)).val * 2 ^ 8 + (x.slice (8 * k) (8 * k + 8)).val := by
    rw [Nat.mul_add_one, ← Bits.slice_append_slice x (mid := 8 * k) (by omega) (by omega) (by omega), Bits.val_append,
      Bits.len_slice, Nat.add_sub_cancel_left]
  have h3 := hsplit (off + 3) (by omega) (by omega)
  have h2 := hsplit (off + 2) (by omega) (by omega)
  have h1 := hsplit (off + 1) (by omega) (by omega)
  rw [h3, h2, h1, Nat.mul_add_one]
  ring

theorem getD_block (x : Bits) {cur k : Nat} (hk : k < 64) (h : cur + 64 ≤ x.len / 8) :
    ((((storeBytes x).drop cur).take 64).getD k 0).toNat = (x.slice (8 * (cur + k)) (8 * (cur + k) + 8)).val := by
  have hbyte := (x.slice (8 * (cur + k)) (8 * (cur + k) + 8)).val_lt
  rw [Bits.len_slice, Nat.add_sub_cancel_left] at hbyte
  rw [List.getD_eq_getElem _ _ (by simp; omega), List.getElem_take, List.getElem_drop, getElem_storeBytes,
    BitVec.toNat_ofNat, Nat.mod_eq_of_lt hbyte]

theorem word_block (x : Bits) {cur i : Nat} (hi : i < 16) (h : cur + 64 ≤ x.len / 8) :
    Ref.word (((storeBytes x).drop cur).take 64) i = (x.slice (8 * (cur + 4 * i)) (8 * (cur + 4 * i + 4))).toWord32 := by
  refine BitVec.eq_of_toNat_eq ?_
  rw [Ref.word, getD_block x (by omega) h, getD_block x (by omega) h, getD_block x (by omega) h, getD_block x (by omega) h,
    BitVec.toNat_ofNat, Bits.toNat_toWord32, val_word_eq_bytes x (by omega)]
  rfl

/-! ## The schedule as a list (rule R180) -/

/-- The words from 16 on obey the recurrence. -/
def IsSchedule (u : Vector Word32 64) : Prop :=
  ∀ i (hi : i < 64), 16 ≤ i → u[i] = u[i - 16] + Ref.smallSigma0 u[i - 15] + u[i - 7] + Ref.smallSigma1 u[i - 2]

theorem nextWord_take {u : Vector Word32 64} (hu : IsSchedule u) {m : Nat} (h16 : 16 ≤ m) (hm : m < 64) :
    Ref.nextWord (u.toList.take m) = u[m] := by
  have hlen : (u.toList.take m).length = m := by simp; omega
  have hget (j : Nat) (hj : j < m) : (u.toList.take m).getD j 0 = u[j] := by
    rw [List.getD_eq_getElem _ _ (by omega), List.getElem_take, Vector.getElem_toList]
  rw [Ref.nextWord, hlen, hget _ (by omega), hget _ (by omega), hget _ (by omega), hget _ (by omega), hu m hm h16]

theorem extend_take {u : Vector Word32 64} (hu : IsSchedule u) {n : Nat} (hn : n ≤ 48) :
    Ref.extend n (u.toList.take (64 - n)) = u.toList := by
  induction n with
  | zero => exact List.take_of_length_le (by simp)
  | succ n ih =>
    have hidx : 64 - n = 64 - (n + 1) + 1 := by omega
    have hnext : u.toList.take (64 - (n + 1)) ++ [Ref.nextWord (u.toList.take (64 - (n + 1)))] = u.toList.take (64 - n) := by
      rw [nextWord_take hu (by omega) (by omega), hidx, ← Vector.getElem_toList (xs := u) (by simp; omega),
        List.take_append_getElem]
    rw [Ref.extend, hnext, ih (by omega)]

/-- The schedule that loading and expanding a block leave is the reference's. -/
theorem toList_expandFrom_loadWords {mb : MsgBuffer} (w : Vector Word32 64) (h : mb.cur + 64 ≤ mb.blen) :
    (expandFrom 48 16 (loadWords 16 0 (mb, w)).2).toList =
      Ref.schedule (((storeBytes mb.store).drop mb.cur).take 64) := by
  have hfirst : (expandFrom 48 16 (loadWords 16 0 (mb, w)).2).toList.take 16 =
      (List.range 16).map (Ref.word (((storeBytes mb.store).drop mb.cur).take 64)) := by
    refine List.ext_getElem (by simp) fun i hi _ => ?_
    have hi : i < 16 := by simp at hi; omega
    have hload := loadWords_word (count := 16) (i := 0) w h hi (by omega)
    simp only [Nat.zero_add] at hload
    rw [List.getElem_take, Vector.getElem_toList, expandFrom_other _ _ (.inl hi), hload, List.getElem_map,
      List.getElem_range, word_block mb.store hi h]
    rfl
  rw [Ref.schedule, ← hfirst]
  exact (extend_take (fun i hi h16 => expandFrom_recurrence _ hi h16) le_rfl).symm

/-! ## Rounds, blocks and the digest on words (rules R182 to R186, R191) -/

theorem ofVector_roundVars (v : Vector Word32 8) (k w : Word32) :
    Ref.Vars.ofVector (roundVars v k w) = Ref.round (Ref.Vars.ofVector v) k w := by
  rw [roundVars_words, ofNat_val_roundT1, ofNat_val_roundT2]
  rfl

theorem ofVector_v_stageRounds (n : Nat) (s : State) : Ref.Vars.ofVector (stageRounds n s).v =
    (List.range' s.t n).foldl (fun v i => Ref.round v (wordAt romK i) (wordAt s.w i)) (Ref.Vars.ofVector s.v) := by
  induction n generalizing s with
  | zero => rfl
  | succ n ih => rw [stageRounds, ih, List.range'_succ, List.foldl_cons, stageRound_v, stageRound_t, stageRound_w,
      ofVector_roundVars]

theorem zip_toList_eq_map_range' {n : Nat} (k w : Vector Word32 n) :
    List.zip k.toList w.toList = (List.range' 0 n).map fun i => (wordAt k i, wordAt w i) := by
  refine List.ext_getElem (by simp) fun i hi _ => ?_
  have hi : i < n := by simpa using hi
  rw [List.getElem_zip, List.getElem_map, List.getElem_range', wordAt_eq _ (by omega), wordAt_eq _ (by omega)]
  simp

theorem ofVector_h_stageUpdate (s : State) :
    Ref.Vars.ofVector (stageUpdate s).h = (Ref.Vars.ofVector s.h).add (Ref.Vars.ofVector s.v) := by
  simp [Ref.Vars.ofVector, Ref.Vars.add, addMod32_eq]

theorem ofVector_h_stageBlock {s : State} (h : s.mb.cur + 64 ≤ s.mb.blen) : Ref.Vars.ofVector (stageBlock s).h =
    Ref.block (Ref.Vars.ofVector s.h) (((storeBytes s.mb.store).drop s.mb.cur).take 64) := by
  rw [stageBlock, ofVector_h_stageUpdate, stageRounds_h, ofVector_v_stageRounds, Ref.block,
    ← toList_expandFrom_loadWords s.w h, zip_toList_eq_map_range', List.foldl_map, stageBegin_h, stageBegin_v, stageBegin_t,
    stageBegin_w, stageExpand_h, stageExpand_w, stageLoad_h, stageLoad_w]

theorem ofVector_h_stageBlocks {n : Nat} {s : State} (hwf : s.mb.wf = true) (h : s.mb.cur + 64 * n ≤ s.mb.blen) :
    Ref.Vars.ofVector (stageBlocks n s).h =
      Ref.blocks n (Ref.Vars.ofVector s.h) ((storeBytes s.mb.store).drop s.mb.cur) := by
  induction n generalizing s with
  | zero => rfl
  | succ n ih =>
    obtain ⟨he, hwf', h'⟩ := stageBlock_blocks_left hwf h
    rw [stageBlocks_succ n he, ih hwf' h', ofVector_h_stageBlock (by omega), stageBlock_cursor hwf he, Ref.blocks,
      List.drop_drop]

theorem digits_digestOf_eq (h : Vector Word32 8) : (digestOf h).digits = (Ref.Vars.ofVector h).digits := by
  have hlist : h.toList = [h[0], h[1], h[2], h[3], h[4], h[5], h[6], h[7]] := by
    refine List.ext_getElem (by simp) fun i hi _ => ?_
    have hi : i < 8 := by simpa using hi
    interval_cases i <;> exact Vector.getElem_toList _
  rw [digits_digestOf, hlist]
  rfl

/-- The digest that SHA.HASH writes is the reference's of the slot's bytes. -/
theorem digits_digestOf_stageHash {s : State} {ma : Slot} (h8 : (s.slot ma).store.len % 8 = 0)
    (h : (s.slot ma).blen < 2 ^ 61) :
    (digestOf (stageHash ma s).h).digits = (Ref.sha256 (storeBytes (s.slot ma).store)).digits := by
  have hblocks := ofVector_h_stageBlocks (n := blockCount s ma) (s := stageInit (stagePad ma s)) (wf_mb_stagePad h8 h)
    (by rw [stageInit_mb, blen_mb_stagePad h8 h, stagePad_mb, Nat.zero_add])
  rw [stageInit_h, stageInit_mb, stagePad_mb, List.drop_zero, storeBytes_padding h8 h] at hblocks
  rw [digits_digestOf_eq, (stageHash_eq_stageBlocks h8 h).1, hblocks, Ref.sha256, length_storeBytes]
  rfl

/-- What SHA.HASH leaves when it answers `OK`. -/
theorem shaHash_of_ok {s t : State} {rd : Reg} {ma : Slot} (he : exec (.shaHash rd ma) s = .next t)
    (hok : t.resp = some ⟨.ok, 0, Bits.empty⟩) :
    (s.slot ma).blen < 2 ^ 61 ∧ t.reg rd = digestOf (stageHash ma s).h := by
  by_cases h : (s.slot ma).blen < 2 ^ 61
  case neg =>
    cases he.symm.trans (faults_shaHash_long rd (not_lt.1 h))
    exact absurd hok (State.faulted_resp_ne_ok s (by decide) _ _)
  by_cases hroom : Room s (padding (s.slot ma).store).len ∧ Room s 256
  case neg =>
    cases he.symm.trans (faults_shaHash_of_not_room rd h hroom)
    exact absurd hok (State.faulted_resp_ne_ok s (by decide) _ _)
  cases he.symm.trans (exec_shaHash_of_room rd h hroom.1 hroom.2)
  exact ⟨h, by rw [State.reg_wrote, if_pos rfl]⟩

/-- Settles O54: both digests are the reference's, which reads the bytes of the message alone. -/
theorem hashDependsOnlyOnTheMessage : Obligations.HashDependsOnlyOnTheMessage := by
  intro s s' t t' rd rd' ma ma' hwf hstore he he' hok hok'
  obtain ⟨h8, -⟩ := (ByteBuffer.wf_iff _).1 hwf
  obtain ⟨h, hreg⟩ := shaHash_of_ok he hok
  obtain ⟨h', hreg'⟩ := shaHash_of_ok he' hok'
  refine Bits.ext_digits ?_
  rw [hreg, hreg', digits_digestOf_stageHash h8 h, digits_digestOf_stageHash (hstore ▸ h8) h', hstore]

/-- Settles O55: padding, schedule, rounds and digest agree with the reference, and 256 bits fit where the padding does. -/
theorem hashIsSha256OfTheBytes : Obligations.HashIsSha256OfTheBytes := by
  intro rd ma s hwf h hroom
  obtain ⟨h8, -⟩ := (ByteBuffer.wf_iff _).1 hwf
  have hroom256 : Room s 256 := hroom.of_maxw rfl (by omega)
  refine ⟨_, exec_shaHash_of_room rd h (by rwa [len_padding_slot h8 h]) hroom256, (stageHash_outside ma s).slots, ?_⟩
  rw [State.reg_wrote, if_pos rfl, digits_digestOf_stageHash h8 h]

end Sys2Proof.Machine

namespace Sys2Proof.Machine

/-! ## Joined values and texts read character by character (43_system_and_host.md rules R214, R216) -/

theorem foldl_append_eq (xs : List Bits) (y : Bits) : xs.foldl Bits.append y = y.append (concatAll xs) := by
  induction xs generalizing y with
  | nil => exact (Bits.append_empty y).symm
  | cons x xs ih => rw [concatAll, List.foldl_cons, List.foldl_cons, ih, ih, Bits.empty_append, Bits.append_assoc]

theorem concatAll_cons (x : Bits) (xs : List Bits) : concatAll (x :: xs) = x.append (concatAll xs) := by
  rw [concatAll, List.foldl_cons, Bits.empty_append, foldl_append_eq]

theorem len_concatAll {xs : List Bits} {k : Nat} (h : ∀ x ∈ xs, x.len = k) : (concatAll xs).len = k * xs.length := by
  rw [concatAll, Bits.len_foldl_append, List.map_congr_left h, List.map_const', List.sum_replicate, smul_eq_mul,
    Bits.len_empty, Nat.zero_add, Nat.mul_comm]

/-- Values of one length, joined, are read back one by one. -/
theorem slice_concatAll {xs : List Bits} {k : Nat} (h : ∀ x ∈ xs, x.len = k) {j : Nat} (hj : j < xs.length) :
    (concatAll xs).slice (k * j) (k * j + k) = xs[j] := by
  induction xs generalizing j with
  | nil => exact absurd hj (Nat.not_lt_zero j)
  | cons x xs ih =>
    obtain ⟨rfl, hxs⟩ := List.forall_mem_cons.1 h
    rw [concatAll_cons]
    cases j with
    | zero => rw [Nat.mul_zero, Nat.zero_add, slice_append_left x _ le_rfl, Bits.slice_full, List.getElem_cons_zero]
    | succ j =>
      have hj : j < xs.length := Nat.lt_of_succ_lt_succ hj
      have hend : x.len * j + x.len ≤ (concatAll xs).len := by
        rw [len_concatAll hxs]; exact Nat.mul_le_mul_left x.len hj
      rw [Nat.mul_succ, Nat.add_comm (x.len * j), Nat.add_assoc, slice_append_right x _ hend, ih hxs hj,
        List.getElem_cons_succ]

/-- One element that the reading refuses makes it refuse the whole list. -/
theorem mapM_eq_none {α β : Type} {f : α → Option β} {l : List α} (h : ∃ a ∈ l, f a = none) : l.mapM f = none := by
  obtain ⟨a, ha, hfa⟩ := h
  induction ha with
  | head l => rw [List.mapM_cons, hfa]; rfl
  | tail b _ ih => rw [List.mapM_cons, ih]; cases f b <;> rfl

/-- What is written element by element is read back element by element. -/
theorem mapM_map_eq_some {α β γ : Type} {write : α → β} {read : β → Option γ} {v : α → γ}
    (h : ∀ a, read (write a) = some (v a)) (l : List α) : (l.map write).mapM read = some (l.map v) := by
  have hread : read ∘ write = fun a => pure (v a) := funext h
  rw [List.mapM_map, hread]
  exact List.mapM_pure

/-! ## Binary text (rules R216, R220) -/

theorem binDigit_eq_none {c : Char} (h : c ≠ '0' ∧ c ≠ '1') : binDigit c = none := by
  rw [binDigit, if_neg h.1, if_neg h.2]

theorem digits_ofDigits (ds : List Bool) : (ofDigits ds).digits = ds := by
  have hone : ∀ d : Bool, (⟨1, BitVec.ofBool d⟩ : Bits).digits = [d] := by decide
  induction ds with
  | nil => rfl
  | cons d ds ih =>
    rw [ofDigits, List.map_cons, concatAll_cons, Bits.digits_append, hone, ← ofDigits, ih, List.singleton_append]

theorem parseStr_strOut (x : Bits) : parseStr (strOut x) = .ok x := by
  have hread : ∀ d : Bool, binDigit (if d then '1' else '0') = some d := by decide
  simp only [parseStr, strOut, mapM_map_eq_some hread, List.map_id', Bits.ext_digits (digits_ofDigits x.digits)]

theorem parseStr_eq_error {t : Text} (h : ∃ c ∈ t, c ≠ '0' ∧ c ≠ '1') : parseStr t = .error .malformedValue := by
  obtain ⟨c, hc, hother⟩ := h
  simp only [parseStr, mapM_eq_none ⟨c, hc, binDigit_eq_none hother⟩]

/-! ## Hexadecimal text (rules R214, R218) -/

/-- The four bits of a hexadecimal digit. -/
def nibble (d : Fin 16) : Bits := Bits.fromInt d.val 4

theorem len_nibble (d : Fin 16) : (nibble d).len = 4 := Bits.len_fromInt_of_lt (by decide) d.isLt

theorem val_nibble (d : Fin 16) : (nibble d).val = d.val := Bits.val_fromInt d.val 4

/-- The lowercase text of a list of hexadecimal digits. -/
def hexText (ds : List (Fin 16)) : Text := ds.map fun d => hexChar d.val

theorem exists_hexText {t : Text} (h : ∀ c ∈ t, c ∈ lowerHexDigits) : ∃ ds, hexText ds = t := by
  have hlisted : lowerHexDigits = hexText (List.finRange 16) := by decide
  have hchar : ∀ c ∈ t, c ∈ Set.range fun d : Fin 16 => hexChar d.val := by
    intro c hc
    obtain ⟨d, -, hd⟩ := List.mem_map.1 (hlisted ▸ h c hc)
    exact ⟨d, hd⟩
  exact (Set.range_list_map _).ge hchar

theorem fromHex_hexText (ds : List (Fin 16)) : fromHex (hexText ds) = .ok (concatAll (ds.map nibble)) := by
  have hread : ∀ d : Fin 16, hexDigit (hexChar d.val) = some d.val := by decide
  simp only [fromHex, hexDigits, hexText, mapM_map_eq_some hread, List.map_map]
  rfl

theorem len_of_mem_nibbles {ds : List (Fin 16)} : ∀ x ∈ ds.map nibble, x.len = 4 :=
  List.forall_mem_map.2 fun d _ => len_nibble d

theorem len_concatAll_nibbles (ds : List (Fin 16)) : (concatAll (ds.map nibble)).len = 4 * ds.length := by
  rw [len_concatAll len_of_mem_nibbles, List.length_map]

theorem hexOut_concatAll_nibbles (ds : List (Fin 16)) : hexOut (concatAll (ds.map nibble)) = .ok (hexText ds) := by
  rw [hexOut, len_concatAll_nibbles, if_pos (Nat.mul_mod_right 4 _), Nat.mul_div_cancel_left _ (by decide)]
  refine congrArg Except.ok (List.ext_getElem (by simp [hexText]) fun j hj _ => ?_)
  have hj : j < (ds.map nibble).length := by simpa using hj
  rw [List.getElem_map, List.getElem_range, slice_concatAll len_of_mem_nibbles hj, List.getElem_map, val_nibble]
  simp [hexText]

/-- The characters that are read are the ten digits and the six letters in either case. -/
theorem hexDigit_eq_none {c : Char} (h : c ∉ lowerHexDigits ++ ['A', 'B', 'C', 'D', 'E', 'F']) : hexDigit c = none := by
  have hlisted : ∀ n ∈ List.range' 48 10 ++ List.range' 97 6 ++ List.range' 65 6,
      Char.ofNat n ∈ lowerHexDigits ++ ['A', 'B', 'C', 'D', 'E', 'F'] := by decide
  have hrange : ¬ ((48 ≤ c.toNat ∧ c.toNat ≤ 57) ∨ (97 ≤ c.toNat ∧ c.toNat ≤ 102) ∨ (65 ≤ c.toNat ∧ c.toNat ≤ 70)) :=
    fun hc => h (c.ofNat_toNat ▸ hlisted c.toNat (by simp only [List.mem_append, List.mem_range'_1]; omega))
  simp only [not_or] at hrange
  simp only [hexDigit, hrange, if_false]

theorem fromHex_eq_error {t : Text} (h : ∃ c ∈ t, c ∉ lowerHexDigits ++ ['A', 'B', 'C', 'D', 'E', 'F']) :
    fromHex t = .error .malformedValue := by
  obtain ⟨c, hc, hother⟩ := h
  simp only [fromHex, hexDigits, mapM_eq_none ⟨c, hc, hexDigit_eq_none hother⟩]

/-- Settles O60: a text is read character by character, and each digit stands at its own place in the value. -/
theorem textRoundTrips : Obligations.TextRoundTrips := by
  refine ⟨parseStr_strOut, fun _ => parseStr_eq_error, fun t ht => ?_, fun _ => fromHex_eq_error⟩
  obtain ⟨ds, rfl⟩ := exists_hexText ht
  exact ⟨_, fromHex_hexText ds, by rw [len_concatAll_nibbles, hexText, List.length_map], hexOut_concatAll_nibbles ds⟩

/-! ## SYS.RESET and the reset input (rules R210, R270) -/

theorem State.sameArch_resetCore (s : State) : State.SameArch State.reset s.resetCore :=
  ⟨s.resetCore_regs, s.resetCore_slots, s.resetCore_mb, s.resetCore_h, s.resetCore_v, s.resetCore_w, s.resetCore_t,
    s.resetCore_esticky⟩

theorem State.SameArch.done {s t : State} (h : State.SameArch s t) : State.SameArch s t.done := by
  rw [State.done_eq]
  exact ⟨h.regs, h.slots, h.mb, h.h, h.v, h.w, h.counter, h.esticky⟩

/-- Settles O9: both put the reset values in place, and the response of SYS.RESET is no architectural state. -/
theorem bothResetsGiveTheResetState : Obligations.BothResetsGiveTheResetState :=
  ⟨fun _ _ hport => ⟨_, step_of_resetInput hport, State.sameArch_resetCore _, State.resetCore_port _⟩,
    command_opcode _ _ _,
    fun s => ⟨s.resetCore.done, rfl, s.sameArch_resetCore.done, State.done_resp _⟩⟩

/-! ## SYS.RDCSR (rules R29, R211) -/

theorem exec_sysRdcsr_of_some {s : State} {n v : Nat} (h : s.csr n = some v) :
    exec (.sysRdcsr n) s = .next (s.answered .ok v Bits.empty) := by
  simp only [exec, execSysRdcsr, h, State.respond_eq_answered s (st := .ok) v Bits.empty rfl]

theorem faults_sysRdcsr {s : State} {n : Nat} (h : s.csr n = none) : Faults (.sysRdcsr n) s .operandDomain := by
  simp only [Faults, exec, execSysRdcsr, h, State.raise_eq_faulted s (st := .operandDomain) rfl]

theorem State.csr_cursor (s : State) (j : Slot) : s.csr (0x10 + j.val) = some (s.slot j).cur := by
  fin_cases j <;> rfl

theorem State.csr_order (s : State) (j : Slot) : s.csr (0x18 + j.val) = some (orderCode (s.slot j).order) := by
  fin_cases j <;> rfl

theorem orderCode_eq (o : Order) : orderCode o = if o = .little then 1 else 0 := by cases o <;> rfl

theorem State.csr_eq_none (s : State) {n : Nat} (h : ¬ (n < 0x04 ∨ (0x10 ≤ n ∧ n < 0x14) ∨ (0x18 ≤ n ∧ n < 0x1C))) :
    s.csr n = none := by
  unfold State.csr
  split
  case h_13 => rfl
  all_goals omega

/-- Settles O58, by the number: four single CSRs, one for each slot twice, and the rest. -/
theorem readControlRegister : Obligations.ReadControlRegister := fun _ s =>
  ⟨command_opcode _ _ _, exec_sysRdcsr_of_some rfl, exec_sysRdcsr_of_some rfl, exec_sysRdcsr_of_some rfl,
    exec_sysRdcsr_of_some rfl, fun j => exec_sysRdcsr_of_some (s.csr_cursor j),
    fun j => exec_sysRdcsr_of_some (by rw [s.csr_order, orderCode_eq]), fun h => faults_sysRdcsr (s.csr_eq_none h)⟩

end Sys2Proof.Machine

namespace Sys2Proof.Machine

/-! ## Faults are precise (60_exceptions.md rule R249) -/

theorem exec_fault_precise {i : Instr} {s t : State} {r : Response} (he : exec i s = .next t) (hr : t.resp = some r)
    (herr : r.status.isError = true) : t = s.faulted r.status := by
  cases (ending he).respEnding with
  | fault st _ _ ht =>
    subst ht
    obtain rfl := Option.some.inj hr
    rfl
  | answer r' hst hresp _ _ _ =>
    obtain rfl := Option.some.inj (hresp.symm.trans hr)
    exact absurd (hst.symm.trans herr) Bool.false_ne_true

/-- Settles O14: a command whose status is an error ended in a fault, and an illegal command word raises `IllegalCommand`. -/
theorem faultsArePrecise : Obligations.FaultsArePrecise := by
  refine ⟨fun _ _ _ _ => exec_fault_precise, fun s t c rest r hport hstep hr herr => ?_⟩
  rcases hdec : decode c with e | i
  · rw [step_of_decode_error hport hdec] at hstep
    obtain rfl := Host.Outcome.next.inj hstep
    obtain rfl := Option.some.inj hr
    exact State.raise_eq_faulted _ herr
  · rw [step_of_decode_ok hport hdec] at hstep
    exact exec_fault_precise hstep hr herr

/-! ## What a state that meets the invariant has room for (rule R35) -/

theorem State.Inv.room_reg {s : State} (h : s.Inv) {ra : Reg} {n : Nat} (hn : n ≤ (s.reg ra).len) : Room s n :=
  (s.fits_iff_room n).1 (State.fits_mono (h.regs ra) hn)

theorem State.Inv.room_store {s : State} (h : s.Inv) {ma : Slot} {n : Nat} (hn : n ≤ (s.slot ma).store.len) : Room s n :=
  (s.fits_iff_room n).1 (State.fits_mono (h.stores ma) hn)

theorem Room.max {s : State} {m n : Nat} (hm : Room s m) (hn : Room s n) : Room s (max m n) :=
  fun k hk => max_le (hm k hk) (hn k hk)

/-- Both operands of a bitwise command fit, so the longer one does. -/
theorem State.Inv.room_max_reg {s : State} (h : s.Inv) (ra rb : Reg) : Room s (max (s.reg ra).len (s.reg rb).len) :=
  (h.room_reg le_rfl).max (h.room_reg le_rfl)

theorem room_zero (s : State) : Room s 0 := fun _ _ => Nat.zero_le _

theorem not_room_iff {s : State} {n : Nat} : ¬ Room s n ↔ ∃ m, s.maxw = some m ∧ m < n := by
  simp only [Room, not_forall, not_le, exists_prop]

/-- A copy of bytes that stand in the buffer is no longer than its store. -/
theorem ByteBuffer.len_copyOut_le (b : ByteBuffer) {off n : Nat} (h : n ≤ b.blen) :
    (b.copyOut off n).store.len ≤ b.store.len := by
  rw [ByteBuffer.len_copyOut]
  exact (Nat.mul_le_mul_left 8 h).trans (Nat.mul_div_le b.store.len 8)

/-! ## The statuses of each command (60_exceptions.md rule R258) -/

/-- Rule R258 on a status: it is `OK` or stands in the command's row, and `Capacity` of a result of fixed size needs a `MAXW`
below that size. -/
structure InRow (i : Instr) (s : State) (st : Status) : Prop where
  mem   : st ∈ Status.ok :: i.otherStatuses
  fixed : st = .capacity → ∀ n, i.fixedSize = some n → ¬ Room s n

/-- The command answers with a status of its row. -/
def AnswersInRow (i : Instr) (s : State) : Prop :=
  ∃ t r, exec i s = .next t ∧ t.resp = some r ∧ InRow i s r.status

section Rows

variable {i : Instr} {s t : State} {rd : Reg} {md ma : Slot} {z : Bits} {b : ByteBuffer} {n : Nat} {st : Status}

theorem AnswersInRow.of_ok (he : exec i s = .next t) (hr : t.resp = some ⟨.ok, n, z⟩) : AnswersInRow i s :=
  ⟨t, _, he, hr, List.mem_cons_self, nofun⟩

theorem AnswersInRow.of_exhausted (he : exec i s = .next (s.answered .exhausted 0 Bits.empty))
    (hrow : .exhausted ∈ i.otherStatuses := by simp [Instr.otherStatuses]) : AnswersInRow i s :=
  ⟨_, _, he, State.answered_resp _ _ _ _, List.mem_cons_of_mem _ hrow, nofun⟩

theorem AnswersInRow.of_faults (h : Faults i s st) (hne : st ≠ .capacity := by decide)
    (hrow : st ∈ i.otherStatuses := by simp [Instr.otherStatuses]) : AnswersInRow i s :=
  ⟨_, _, h, State.faulted_resp _ _, List.mem_cons_of_mem _ hrow, fun hcap => absurd hcap hne⟩

/-- `Capacity`, for a length that does not fit and that is at most the fixed size where the result has one. -/
theorem AnswersInRow.of_capacity (h : Faults i s .capacity) (hroom : ¬ Room s n)
    (hrow : .capacity ∈ i.otherStatuses := by simp [Instr.otherStatuses])
    (hsize : ∀ k, i.fixedSize = some k → n ≤ k := by simp [Instr.fixedSize]) : AnswersInRow i s :=
  ⟨_, _, h, State.faulted_resp _ _, List.mem_cons_of_mem _ hrow, fun _ k hk hr =>
    hroom (hr.of_maxw rfl (hsize k hk))⟩

/-- A command whose result is no longer than an operand never raises `Capacity` (rule R247). -/
theorem AnswersInRow.of_writesReg_of_room (h : WritesReg i s rd z) (hroom : Room s z.len) : AnswersInRow i s :=
  .of_ok (h.1 hroom) (State.wrote_resp _ _ _)

theorem AnswersInRow.of_writesReg (h : WritesReg i s rd z)
    (hrow : .capacity ∈ i.otherStatuses := by simp [Instr.otherStatuses])
    (hsize : ∀ k, i.fixedSize = some k → z.len ≤ k := by simp [Instr.fixedSize]) : AnswersInRow i s := by
  by_cases hroom : Room s z.len
  · exact .of_writesReg_of_room h hroom
  · exact .of_capacity (h.2 hroom) hroom hrow hsize

theorem AnswersInRow.of_writesSlot_of_room (h : WritesSlot i s md b) (hroom : Room s b.store.len) : AnswersInRow i s :=
  .of_ok (h.1 hroom) (State.stored_resp _ _ _)

theorem AnswersInRow.of_writesSlot (h : WritesSlot i s md b)
    (hrow : .capacity ∈ i.otherStatuses := by simp [Instr.otherStatuses])
    (hsize : i.fixedSize = none := by rfl) : AnswersInRow i s := by
  by_cases hroom : Room s b.store.len
  · exact .of_writesSlot_of_room h hroom
  · exact .of_capacity (h.2 hroom) hroom hrow (by simp [hsize])

theorem AnswersInRow.of_storesWord {ra : Reg} (h : StoresWord i n s md ra)
    (hwidth : .widthMismatch ∈ i.otherStatuses := by simp [Instr.otherStatuses])
    (hrow : .capacity ∈ i.otherStatuses := by simp [Instr.otherStatuses])
    (hsize : i.fixedSize = none := by rfl) : AnswersInRow i s := by
  by_cases hlen : (s.reg ra).len = 8 * n
  · obtain ⟨v, -, hw⟩ := h.2 hlen
    exact .of_writesSlot hw hrow hsize
  · exact .of_faults (h.1 hlen) (by decide) hwidth

theorem AnswersInRow.of_loadsWord (h : LoadsWord i n s rd ma)
    (hexhausted : .exhausted ∈ i.otherStatuses := by simp [Instr.otherStatuses])
    (hrow : .capacity ∈ i.otherStatuses := by simp [Instr.otherStatuses])
    (hsize : i.fixedSize = some (8 * n) := by rfl) : AnswersInRow i s := by
  obtain ⟨v, hlen, -, hread, hcap⟩ := h
  by_cases hroom : Room s v.len
  · refine ⟨_, _, hread hroom, rfl, ?_, ?_⟩
    · split
      · exact List.mem_cons_of_mem _ hexhausted
      · exact List.mem_cons_self
    · split <;> nofun
  · refine .of_capacity (hcap hroom) hroom hrow fun k hk => ?_
    obtain rfl := Option.some.inj (hsize.symm.trans hk)
    omega

end Rows

theorem answersInRow_sysRdcsr (n : Nat) (s : State) : AnswersInRow (.sysRdcsr n) s := by
  cases h : s.csr n with
  | none => exact .of_faults (faults_sysRdcsr h)
  | some v => exact .of_ok (exec_sysRdcsr_of_some h) (State.answered_resp _ _ _ _)

/-! ### Commands whose result is no longer than an operand (rule R247) -/

section NeverCapacity

variable {s : State} (hinv : s.Inv)
include hinv

theorem answersInRow_bsBit (rd ra : Reg) (index : Int) : AnswersInRow (.bsBit rd ra index) s := by
  cases h : normIndex (s.reg ra).len index with
  | none => exact .of_faults (faults_bsBit rd h)
  | some j =>
    obtain ⟨hj, -⟩ := normIndex_some h
    exact .of_writesReg_of_room (writesReg_bsBit rd h) (hinv.room_reg (ra := ra) (by rw [Bits.len_slice]; omega))

theorem answersInRow_bsSlice (rd ra : Reg) (start stop : Option Int) : AnswersInRow (.bsSlice rd ra start stop) s := by
  obtain ⟨-, hstop⟩ := normSlice_bounds (s.reg ra).len start stop
  exact .of_writesReg_of_room (writesReg_of_finishReg rfl) (hinv.room_reg ((Nat.sub_le _ _).trans hstop))

theorem answersInRow_bsShr (rd ra : Reg) (n : Nat) : AnswersInRow (.bsShr rd ra n) s := by
  rcases Nat.eq_zero_or_pos n with rfl | hn
  · exact .of_faults (faults_bsShr_zero rd ra s)
  · exact .of_writesReg_of_room (writesReg_bsShr rd ra s hn) (hinv.room_reg (Bits.len_shr _ n).le)

theorem answersInRow_bsMod (rd ra : Reg) (d : Nat) : AnswersInRow (.bsMod rd ra d) s := by
  rcases Nat.eq_zero_or_pos d with rfl | hd
  · exact .of_faults (faults_bsMod_zero rd ra s)
  · exact .of_writesReg_of_room (writesReg_bsMod rd ra s hd)
      (hinv.room_reg (by rw [Bits.len_mod]; exact min_le_left _ d))

theorem answersInRow_bbIdx (md ma : Slot) (index : Int) : AnswersInRow (.bbIdx md ma index) s := by
  cases h : normIndex (s.slot ma).blen index with
  | none => exact .of_faults (faults_bbIdx md h)
  | some j =>
    obtain ⟨hj, -⟩ := normIndex_some h
    exact .of_writesSlot_of_room (writesSlot_bbIdx md h) (hinv.room_store (ByteBuffer.len_copyOut_le _ (by omega)))

theorem answersInRow_bbSlice (md ma : Slot) (start stop : Option Int) : AnswersInRow (.bbSlice md ma start stop) s := by
  obtain ⟨-, hstop⟩ := normSlice_bounds (s.slot ma).blen start stop
  exact .of_writesSlot_of_room (writesSlot_of_finishSlot rfl)
    (hinv.room_store (ByteBuffer.len_copyOut_le _ ((Nat.sub_le _ _).trans hstop)))

end NeverCapacity

/-! ### Commands that can end in another way than `OK` -/

theorem answersInRow_bbPutb (md : Slot) (v : Nat) (s : State) : AnswersInRow (.bbPutb md v) s := by
  rcases Nat.lt_or_ge 255 v with hv | hv
  · exact .of_faults (faults_bbPutb md s hv)
  · exact .of_writesSlot (writesSlot_bbPutb md s hv)

theorem answersInRow_shaPad (ma : Slot) (s : State) : AnswersInRow (.shaPad ma) s := by
  rcases Nat.lt_or_ge (s.slot ma).blen (2 ^ 61) with h | h
  · by_cases hroom : Room s (padding (s.slot ma).store).len
    · exact .of_ok (exec_shaPad_of_room h hroom) (State.done_resp _)
    · exact .of_capacity (faults_shaPad_of_not_room h hroom) hroom
  · exact .of_faults (faults_shaPad_long h)

theorem answersInRow_shaLdblk (s : State) : AnswersInRow .shaLdblk s := by
  cases h : s.mb.exhausted with
  | true => exact .of_exhausted (exec_shaLdblk_of_exhausted h)
  | false => exact .of_ok (exec_shaLdblk_of_not_exhausted h) (State.done_resp _)

theorem answersInRow_shaRound (s : State) : AnswersInRow .shaRound s := by
  rcases Nat.lt_or_ge s.t 64 with h | h
  · exact .of_ok (exec_shaRound_of_lt h) (State.done_resp _)
  · exact .of_faults (faults_shaRound h)

theorem answersInRow_shaBlock (s : State) : AnswersInRow .shaBlock s := by
  cases h : s.mb.exhausted with
  | true => exact .of_exhausted (exec_shaBlock_of_exhausted h)
  | false => exact .of_ok (exec_shaBlock_of_not_exhausted h) (State.done_resp _)

theorem answersInRow_shaHash (rd : Reg) (ma : Slot) (s : State) : AnswersInRow (.shaHash rd ma) s := by
  rcases Nat.lt_or_ge (s.slot ma).blen (2 ^ 61) with h | h
  · by_cases hroom : Room s (max (padding (s.slot ma).store).len 256)
    · exact .of_ok (exec_shaHash_of_room rd h (hroom.of_maxw rfl (le_max_left _ _)) (hroom.of_maxw rfl (le_max_right _ _)))
        (State.wrote_resp _ _ _)
    · exact .of_capacity (faults_shaHash_of_not_room rd h fun hboth => hroom (hboth.1.max hboth.2)) hroom
  · exact .of_faults (faults_shaHash_long rd h)

theorem answersInRow_shaRdr (rd : Reg) (idx : Nat) (s : State) : AnswersInRow (.shaRdr rd idx) s := by
  cases h : s.shaReg idx with
  | none => exact .of_faults (faults_shaRdr rd h)
  | some x => exact .of_writesReg (writesReg_shaRdr rd h)

theorem answersInRow_shaWrr (idx : Nat) (ra : Reg) (s : State) : AnswersInRow (.shaWrr idx ra) s := by
  rcases Nat.lt_or_ge idx 80 with h | h
  · by_cases hw : (s.reg ra).len = 32
    · exact .of_ok (exec_shaWrr_word h (Bits.ofWord32_toWord32 hw).symm) (State.answered_resp _ _ _ _)
    · exact .of_faults (faults_shaWrr_width h hw)
  · exact .of_faults (faults_shaWrr_index ra h)

/-- Rule R258's table, row by row. -/
theorem answersInRow (i : Instr) {s : State} (hinv : s.Inv) : AnswersInRow i s := by
  cases i with
  | sysReset => exact .of_ok rfl (State.done_resp _)
  | sysRdcsr csr => exact answersInRow_sysRdcsr csr s
  | bsLdi rd n zfill => exact .of_writesReg (writesReg_of_finishReg rfl)
  | bsEmpty rd => exact .of_writesReg_of_room (writesReg_of_finishReg rfl) (room_zero s)
  | bsJoin rd ra rb => exact .of_writesReg (writesReg_of_finishReg rfl)
  | bsBit rd ra index => exact answersInRow_bsBit hinv rd ra index
  | bsSlice rd ra start stop => exact answersInRow_bsSlice hinv rd ra start stop
  | bsLen ra => exact .of_ok rfl (State.respond_resp _ _ _ _)
  | bsEq ra rb => exact .of_ok rfl (State.respond_resp _ _ _ _)
  | bsRd ra => exact .of_ok rfl (State.respond_resp _ _ _ _)
  | bsAdd rd ra rb => exact .of_writesReg (writesReg_of_finishReg rfl)
  | bsAddi rd ra n => exact .of_writesReg (writesReg_of_finishReg rfl)
  | bsAnd rd ra rb => exact .of_writesReg_of_room (writesReg_of_finishReg rfl) (hinv.room_max_reg ra rb)
  | bsOr rd ra rb => exact .of_writesReg_of_room (writesReg_of_finishReg rfl) (hinv.room_max_reg ra rb)
  | bsXor rd ra rb => exact .of_writesReg_of_room (writesReg_of_finishReg rfl) (hinv.room_max_reg ra rb)
  | bsNot rd ra => exact .of_writesReg_of_room (writesReg_of_finishReg rfl) (hinv.room_reg (Bits.len_not _).le)
  | bsShr rd ra n => exact answersInRow_bsShr hinv rd ra n
  | bsRotl rd ra n => exact .of_writesReg_of_room (writesReg_of_finishReg rfl) (hinv.room_reg (Bits.len_rotl _ n).le)
  | bsRotr rd ra n => exact .of_writesReg_of_room (writesReg_of_finishReg rfl) (hinv.room_reg (Bits.len_rotr _ n).le)
  | bsMod rd ra d => exact answersInRow_bsMod hinv rd ra d
  | bbNew md order => exact .of_writesSlot_of_room (writesSlot_of_finishSlot rfl) (room_zero s)
  | bbPutb md v => exact answersInRow_bbPutb md v s
  | bbPutw16 md ra => exact .of_storesWord (storesWord_of_putWord rfl)
  | bbPutw32 md ra => exact .of_storesWord (storesWord_of_putWord rfl)
  | bbPutw64 md ra => exact .of_storesWord (storesWord_of_putWord rfl)
  | bbPutw128 md ra => exact .of_storesWord (storesWord_of_putWord rfl)
  | bbGetb rd ma => exact .of_loadsWord (loadsWord_of_getWord rfl)
  | bbGetw16 rd ma => exact .of_loadsWord (loadsWord_of_getWord rfl)
  | bbGetw32 rd ma => exact .of_loadsWord (loadsWord_of_getWord rfl)
  | bbGetw64 rd ma => exact .of_loadsWord (loadsWord_of_getWord rfl)
  | bbGetw128 rd ma => exact .of_loadsWord (loadsWord_of_getWord rfl)
  | bbIdx md ma index => exact answersInRow_bbIdx hinv md ma index
  | bbSlice md ma start stop => exact answersInRow_bbSlice hinv md ma start stop
  | bbLen ma => exact .of_ok rfl (State.respond_resp _ _ _ _)
  | bbStr rd ma => exact .of_writesReg_of_room (writesReg_of_finishReg rfl) (hinv.room_store le_rfl)
  | shaInit => exact .of_ok rfl (State.done_resp _)
  | shaPad ma => exact answersInRow_shaPad ma s
  | shaLdblk => exact answersInRow_shaLdblk s
  | shaExpand => exact .of_ok rfl (State.done_resp _)
  | shaBegin => exact .of_ok rfl (State.done_resp _)
  | shaRound => exact answersInRow_shaRound s
  | shaUpdate => exact .of_ok rfl (State.done_resp _)
  | shaDigest rd => exact .of_writesReg (writesReg_of_finishReg rfl) (hsize := by simp [Instr.fixedSize, len_digestOf])
  | shaBlock => exact answersInRow_shaBlock s
  | shaHash rd ma => exact answersInRow_shaHash rd ma s
  | shaRdr rd idx => exact answersInRow_shaRdr rd idx s
  | shaWrr idx ra => exact answersInRow_shaWrr idx ra s

/-- Settles O17: a command has one next state and one response, and its status stands in the command's row. -/
theorem statusesOfEachCommand : Obligations.StatusesOfEachCommand := by
  intro i s t r hinv he hr
  obtain ⟨t', r', he', hr', hrow⟩ := answersInRow i hinv
  obtain rfl := Host.Outcome.next.inj (he'.symm.trans he)
  obtain rfl := Option.some.inj (hr'.symm.trans hr)
  exact ⟨hrow.mem, fun n hn hcap => not_room_iff.1 (hrow.fixed hcap n hn)⟩

end Sys2Proof.Machine

namespace Sys2Proof.Machine

/-! ## The model's port (60_exceptions.md rule R252; log entry 2) -/

theorem decodeTableWord_eq_some_iff {nbits w : Nat} {i : Instr} :
    decodeTableWord nbits w = some i ↔ decode (Command.ofBits nbits w) = .ok i := by
  unfold decodeTableWord
  cases decode (Command.ofBits nbits w) with
  | ok j => simp only [Option.some.injEq, Except.ok.injEq]
  | error e => simp only [reduceCtorEq]

@[simp] theorem State.withFetchWord_port (s : State) (nbits w : Nat) :
    (s.withFetchWord nbits w).port = .command (Command.ofBits nbits w) :: s.port := rfl

/-- Taking the presented command off the port gives back the state that stood before it. -/
theorem State.withFetchWord_with_port (s : State) (nbits w : Nat) :
    { s.withFetchWord nbits w with port := s.port } = s := rfl

theorem step_withFetchWord {nbits w : Nat} {i : Instr} (s : State) (hdec : decodeTableWord nbits w = some i) :
    step (s.withFetchWord nbits w) = exec i s := by
  rw [step_of_decode_ok (s.withFetchWord_port nbits w) (decodeTableWord_eq_some_iff.1 hdec),
    State.withFetchWord_with_port]

/-- Settles O8: an empty port leaves the step nothing to take, and a presented command is the one it takes. -/
theorem portOfTheModel : Obligations.PortOfTheModel :=
  ⟨fun _ hport => step_of_port_nil hport, fun s _ _ _ hdec => step_withFetchWord s hdec⟩

end Sys2Proof.Machine
